-- ==== Sys2Proof/Word.lean ====
section
/-!
DEFINITION. The two bit-vector types of the block: a 32-bit register word (`10_state.md` R21) and a byte
(`20_memory.md` R60).
-/

namespace Sys2Proof

/-- A register of `REG`, a command word, a length: 32 bits (R21, R90, `LEN_W` of R5). -/
abbrev Word := BitVec 32

/-- One byte of `IBUF` or `OBUF` (R60: "The byte is 8 bits"). -/
abbrev Byte := BitVec 8

end Sys2Proof
end

