-- ==== Sys2Proof/Machine/Data.lean ====
section
/-!
DEFINITION. The data model of the block (`00_scope.md` R9 to R15): symbols, domains, Huffman trees, RLE items, and
the results and errors of a command (`60_exceptions.md` R231). Types only; every operation on them is in a file of
`Machine/` that a repair may mend.
-/

namespace Sys2Proof.Machine

/-- `SymbolDomain`, R10: `BYTE` (encoded 0) or `CHAR` (encoded 1). -/
inductive Domain where
  | byte
  | char
  deriving DecidableEq, Repr

/-- A symbol, R9: a natural number below `2^8` (`BYTE`) or `2^CHAR_W` (`CHAR`), compared for equality and order only. -/
abbrev Symbol := Nat

/-- A bit-string, R13: first bit leftmost, that is at the head of the list. -/
abbrev Bits := List Bool

/-- `HuffmanNode`, R12, with the third form `Wrap` (`90_conflicts.md` C1): a one-child internal node whose child hangs
on the left edge. -/
inductive Node where
  | leaf (sym : Symbol) (freq : Nat)
  | internal (freq : Nat) (left right : Node)
  | wrap (freq : Nat) (child : Node)
  deriving DecidableEq, Repr

/-- RLE items, R15: `Single` and `Run` in a basic payload, `Run`, `ShortRun` and `Sequence` in an adaptive one. -/
inductive Item where
  | single (sym : Symbol)
  | run (sym : Symbol) (count : Nat)
  | shortRun (sym : Symbol) (count : Nat)
  | sequence (syms : List Symbol)
  deriving DecidableEq, Repr

/-- `algorithmTag`, R101: 0 basic, 1 adaptive. -/
inductive Algo where
  | basic
  | adaptive
  deriving DecidableEq, Repr

/-- The six errors of R231. They are the block's only exceptions (R230); each ends a command in a next state. -/
inductive CmdError where
  | emptyInput
  | malformedPayload
  | lengthMismatch
  | unknownItemType
  | illegalCommand
  | resource
  deriving DecidableEq, Repr

/-- The five analyzer registers `AN_RUNCOUNT`, `AN_TOTALRUN`, `AN_LONGEST`, `AN_INLEN`, `AN_RECOMMEND` (R28). -/
structure Analysis where
  runCount  : Word
  totalRun  : Word
  longest   : Word
  inLen     : Word
  recommend : Bool
  deriving DecidableEq, Repr

/-- What `Exec` answers (R45): `Ok(out, dom, an)` or `Err(code)`. -/
inductive CmdResult where
  | ok (out : List Byte) (dom : Domain) (an : Option Analysis)
  | err (e : CmdError)
  deriving DecidableEq, Repr

/-- The five fields of a Huffman payload (R14, R97) as `HUFD` reads them from the header, with the two lengths the
layout adds. -/
structure HuffHeader where
  domain  : Nat
  pad     : Nat
  origLen : Nat
  treeLen : Nat
  packLen : Nat
  deriving DecidableEq, Repr

/-- The header of an RLE payload (R101) as `RLED` reads it. -/
structure RleHeader where
  domain   : Nat
  alg      : Nat
  origLen  : Nat
  itemsLen : Nat
  deriving DecidableEq, Repr

/-- The bit-packer's data path (R39, R141): accumulator `BITACC`, count `BITCNT`, and the bytes written so far. -/
structure BitPacker where
  acc : Nat
  cnt : Nat
  out : List Byte
  deriving DecidableEq, Repr

end Sys2Proof.Machine
end

