-- ==== Sys2Proof/Config.lean ====
section
/-!
DEFINITION. The parameters of the block (`00_scope.md` R5): the constants a source fixes, the parameters left open,
and the one free value, the tie-break among equal frequencies (`40_huffman_units.md` R132).
-/

namespace Sys2Proof

open Sys2Proof.Machine

/-- `BYTE_W` of R5: width in bits of a `BYTE` symbol. -/
def Config.byteW : Nat := 8
/-- `CHAR_W` of R5: width in bits of a `CHAR` symbol. -/
def Config.charW : Nat := 16
/-- `SEQ_CAP` of R5: greatest number of symbols in one adaptive `Sequence`. -/
def Config.seqCap : Nat := 255
/-- `RUN_MIN` of R5: least count of an adaptive `Run`. -/
def Config.runMin : Nat := 4
/-- `SHORT_MIN` of R5. -/
def Config.shortMin : Nat := 2
/-- `SHORT_MAX` of R5; `RUN_MIN = SHORT_MAX + 1`, so the classifier's rows leave no gap (R190). -/
def Config.shortMax : Nat := 3
/-- `PAD_MAX` of R5. -/
def Config.padMax : Nat := 7
/-- `REC_RUNS_NUM` of R5. -/
def Config.recRunsNum : Nat := 1
/-- `REC_RUNS_DEN` of R5. -/
def Config.recRunsDen : Nat := 10
/-- `REC_LONGEST` of R5. -/
def Config.recLongest : Nat := 4

/-- The FREE VALUE of the model (R18(a), R132; log 2): which candidate a tie-break that is not `MINSEQ` prefers, a
function of the candidate ids and the node memory. It has no body, so no proof can see what it is; the first argument
lets a claim speak of several tie-breaks at once. -/
opaque Config.tieBreak : Nat → List Nat → List Node → Nat

/-- `TIEBREAK` of R5 as plain data: the default `MINSEQ`, or the `k`-th unknown function of the free value. -/
inductive TieBreak where
  | minSeq
  | other (k : Nat)
  deriving DecidableEq, Repr

/-- The open parameters of R5 (log 1). -/
structure Params where
  ibufSize : Nat
  obufSize : Nat
  hasAnlz  : Bool
  tieBreak : TieBreak
  deriving DecidableEq, Repr

/-- The values of R5 and `95_test_vectors.md`: both buffers 65536 bytes, analyzer present, `MINSEQ`. -/
def Params.default : Params :=
  { ibufSize := 65536, obufSize := 65536, hasAnlz := true, tieBreak := .minSeq }

end Sys2Proof
end

