-- ==== Sys2Proof/Syntax.lean ====
section
/-!
DEFINITION. The command set (`00_scope.md` R2, `30_encoding.md` R91): one constructor per row of
`spec/opcode_table.json`. `DOM` is the only operand a command word carries (R90).
-/

namespace Sys2Proof

/-- The six commands. `HUFD` and `RLED` have no `DOM` field: the payload carries the domain (R92). -/
inductive Instr where
  | hufc (dom : Machine.Domain)
  | hufd
  | rlec (dom : Machine.Domain)
  | arlec (dom : Machine.Domain)
  | rled
  | anlz (dom : Machine.Domain)
  deriving DecidableEq, Repr

end Sys2Proof
end

