-- ==== Sys2Proof/WellFormed.lean ====
section
/-!
DEFINITION. When a parameter set, a command, a tree or an item is one the spec admits.
-/

namespace Sys2Proof

open Sys2Proof.Machine

/-- The bounds of R5: `1 <= size <= 2^32 - 1` for both buffers. -/
def Params.wf (p : Params) : Bool :=
  decide (1 ≤ p.ibufSize ∧ p.ibufSize < 2 ^ 32 ∧ 1 ≤ p.obufSize ∧ p.obufSize < 2 ^ 32)

/-- A command is legal on a block with parameters `p`: `ANLZ` exists only when `HAS_ANLZ = true` (R91, R93). Every
`DOM` value is legal, and the commands that must have `DOM = 0` have no such field. -/
def Instr.wf (hasAnlz : Bool) : Instr → Bool
  | .hufc _ => true
  | .hufd => true
  | .rlec _ => true
  | .arlec _ => true
  | .rled => true
  | .anlz _ => hasAnlz

/-- Number of values of a symbol of domain `d` (R9). -/
def symbolBound : Domain → Nat
  | .byte => 2 ^ Config.byteW
  | .char => 2 ^ Config.charW

/-- A tree whose leaf symbols fit the domain and whose frequencies fit a `u32` field (R95, R99, R145). -/
def nodeFits (d : Domain) : Node → Bool
  | .leaf s f => decide (s < symbolBound d ∧ f < 2 ^ 32)
  | .internal f l r => decide (f < 2 ^ 32) && nodeFits d l && nodeFits d r
  | .wrap f c => decide (f < 2 ^ 32) && nodeFits d c

/-- An item whose fields fit its record (R102): symbol in the domain, `RUN` count a `u32`, `SHORTRUN` count and
`SEQUENCE` length a `u8`. -/
def itemFits (d : Domain) : Item → Bool
  | .single x => decide (x < symbolBound d)
  | .run x c => decide (x < symbolBound d ∧ c < 2 ^ 32)
  | .shortRun x c => decide (x < symbolBound d ∧ c < 2 ^ 8)
  | .sequence q => decide (q.length < 2 ^ 8) && q.all (fun x => decide (x < symbolBound d))

/-- Which item forms a payload of each algorithm may hold (R15, R103). -/
def itemAllowed : Algo → Item → Bool
  | .basic, .single _ => true
  | .basic, .run _ _ => true
  | .basic, .shortRun _ _ => false
  | .basic, .sequence _ => false
  | .adaptive, .single _ => false
  | .adaptive, .run _ _ => true
  | .adaptive, .shortRun _ _ => true
  | .adaptive, .sequence _ => true

end Sys2Proof
end

