-- ==== Sys2Proof/Machine/State.lean ====
section
/-!
DEFINITION. The state of one CDP-CORE instance (`10_state.md` R20 to R31, R43), the host accesses that act on it
(`20_memory.md` R64), and the reasons a step can stop. Plain data throughout.
-/

namespace Sys2Proof.Machine

/-- A buffer (R30, R31): the bytes that have a value, addresses strictly rising. An unlisted address holds NO VALUE:
the byte is unspecified (`20_memory.md` R73, "must not be modelled as zero"). -/
abbrev Memory := List Host.Cell

/-- The flags of `STATUS`, bits 2:0 (R23). -/
structure Status where
  busy : Bool
  done : Bool
  err  : Bool
  deriving DecidableEq, Repr

/-- One access of the host, or a reset (R16). A register access gives its byte offset in `REG` and its width in bytes;
a buffer access its first address and its bytes, "equal to the same bytes accessed one by one" (R64), here in one move
(log 25). -/
inductive HostAccess where
  | regRead (off width : Nat)
  | regWrite (off width : Nat) (value : Word)
  | ibufRead (addr count : Nat)
  | ibufWrite (addr : Nat) (bytes : List Byte)
  | obufRead (addr count : Nat)
  | obufWrite (addr : Nat) (bytes : List Byte)
  /-- `FEEDBACK` of R107. -/
  | feedback
  /-- The reset event (R260). -/
  | reset
  deriving DecidableEq, Repr

/-- An access to come, with the one choice the spec leaves open (R46; log 3): when a command is in flight, `late` says
that the access lands after its completion. -/
structure HostMove where
  access : HostAccess
  late   : Bool
  deriving DecidableEq, Repr

/-- The state. Register names are those of R21; `an` holds the five `AN_*` registers (R28). -/
structure State where
  /-- Parameters of the block (R5); no step changes them. -/
  cfg       : Params
  /-- `CMD` as it reads, that is `CMDR` (R22, R32). -/
  cmdr      : Word
  /-- `STATUS` (R23). -/
  status    : Status
  /-- `ERRCODE`, bits 7:0 (R24). -/
  errcode   : BitVec 8
  /-- `ILEN` (R25). -/
  ilen      : Word
  /-- `OLEN` (R26). -/
  olen      : Word
  /-- `ODOM` (R27). -/
  odom      : Domain
  /-- `AN_RUNCOUNT`, `AN_TOTALRUN`, `AN_LONGEST`, `AN_INLEN`, `AN_RECOMMEND` (R28). -/
  an        : Analysis
  /-- `IBUF` (R30). -/
  ibuf      : Memory
  /-- `OBUF` (R31). -/
  obuf      : Memory
  /-- `ILENR`, the latched `ILEN` (R32, R44). -/
  ilenr     : Word
  /-- A reset has happened since power-on (R260). Model's own. -/
  resetSeen : Bool
  /-- Host accesses to come, oldest first (R68). Model's own. -/
  port      : List HostMove
  /-- What the last host read returned. Model's own. -/
  rdata     : Option Nat
  deriving DecidableEq, Repr

/-- Nothing in the spec halts the block: its six errors are completions (R230, R239), and no access faults (R66, R241).
So there is no fault to name (log 20). -/
inductive Fault : Type
  deriving DecidableEq, Repr

/-- Why the model says nothing about a step. -/
inductive Refusal where
  /-- Raised by `exec` for an instruction without a meaning; safe. No instruction is left without one. -/
  | notModelled (mnemonic : String)
  /-- Raised by a command whose input range holds a byte the host has not written since reset (R73, R262); safe. -/
  | unspecifiedInput
  /-- Raised by a host read of a byte of `IBUF` or `OBUF` that no rule gives a value (R72, R73); safe. -/
  | unspecifiedRead
  /-- Raised by a host access at or beyond a buffer's size (R65, parameter `BUS`); safe. -/
  | outsideBuffer
  /-- Raised by an access to `REG` that is not 32 bits wide at a multiple of 4 within the space (R63, parameter `BUS`);
  safe. -/
  | registerAccessShape
  /-- Raised by a host access before the first reset (R260); safe. -/
  | beforeFirstReset
  deriving DecidableEq, Repr

/-- All five analyzer registers 0 (R43, R44). -/
def Analysis.zero : Analysis :=
  { runCount := 0#32, totalRun := 0#32, longest := 0#32, inLen := 0#32, recommend := false }

/-- `STATUS = 0b000`, idle since reset (R23). -/
def Status.idle : Status := { busy := false, done := false, err := false }

/-- The machine right after reset: the table of R43. The parameters are the defaults of R5 (log 1); `ILENR`, `port`
and `rdata` are the model's choice (log 7, log 22). -/
def State.reset : State :=
  { cfg := Params.default
    cmdr := 0#32
    status := Status.idle
    errcode := 0#8
    ilen := 0#32
    olen := 0#32
    odom := .byte
    an := Analysis.zero
    ibuf := []
    obuf := []
    ilenr := 0#32
    resetSeen := true
    port := []
    rdata := none }

end Sys2Proof.Machine
end

