-- ==== Sys2Proof/Machine/Flags.lean ====
section
/-!
DEFINITION. The block's only flags (`10_state.md` R34): `STATUS.BUSY`, `STATUS.DONE`, `STATUS.ERR` (R23) and
`AN_RECOMMEND` (R28).
-/

namespace Sys2Proof.Machine

/-- One flag as a bit of a register. -/
def flagBit (b : Bool) (k : Nat) : Word := if b then 1#32 <<< k else 0#32

/-- `STATUS` as a host reads it: `BUSY` bit 0, `DONE` bit 1, `ERR` bit 2, bits 31:3 read 0 (R23). -/
def Status.word (f : Status) : Word := flagBit f.busy 0 ||| flagBit f.done 1 ||| flagBit f.err 2

/-- `STATUS` after an accept step, `0b001` (R44). -/
def statusAccepted : Status := { busy := true, done := false, err := false }

/-- `STATUS` after a completion: `0b010`, or `0b110` with an error (R45, R239). -/
def statusCompleted (err : Bool) : Status := { busy := false, done := true, err := err }

/-- `AN_RECOMMEND`: `(REC_RUNS_DEN * runCount > REC_RUNS_NUM * n) or (longest > REC_LONGEST)`, over the naturals
(R215). -/
def recommendFlag (runCount longest n : Nat) : Bool :=
  decide (Config.recRunsDen * runCount > Config.recRunsNum * n) || decide (longest > Config.recLongest)

end Sys2Proof.Machine
end

