-- ==== Sys2Proof/Decode.lean ====
section
/-!
DEFINITION. Command words (`30_encoding.md` R90 to R93) and assembler syntax (R106). `decode` is total on 32-bit words
and rejects by name; `encode` is written from the same table.
-/

namespace Sys2Proof

open Sys2Proof.Machine

/-- Why a word is no command: the five cases of R93, its first two under one name. -/
inductive DecodeError where
  /-- `OP = 0x00` or `OP` in `0x07 .. 0xFF`. -/
  | reservedOp
  /-- `OP = 0x06` on a block without analyzer. -/
  | analyzerAbsent
  /-- One of bits 31:9 is set. -/
  | reservedBits
  /-- `DOM = 1` with `HUFD` or `RLED`. -/
  | domainNotAllowed
  deriving DecidableEq, Repr

/-- The decoder's answer. -/
inductive Decoded where
  | command (i : Instr)
  | illegal (why : DecodeError)
  deriving DecidableEq, Repr

/-- `OP`, bits 7:0 (R90). -/
def opField (w : Word) : Word := w &&& 0xFF#32

/-- `DOM`, bit 8 (R90). -/
def domBit (w : Word) : Bool := w.getLsbD 8

/-- Bits 31:9, which must be 0 (R90). -/
def reservedField (w : Word) : Word := w >>> 9

/-- `d = BYTE` if `DOM = 0`, `CHAR` if `DOM = 1` (R92). -/
def domainOfBit (b : Bool) : Domain := if b then .char else .byte

/-- One row of the table of R91: a word selects the command when `w AND mask = match`. -/
structure OpRow where
  mask    : Word
  pattern : Word
  command : Domain → Instr

/-- The table of R91, in its order. -/
def opTable : List OpRow :=
  [ ⟨0xFFFFFEFF#32, 0x00000001#32, Instr.hufc⟩,
    ⟨0xFFFFFFFF#32, 0x00000002#32, fun _ => Instr.hufd⟩,
    ⟨0xFFFFFEFF#32, 0x00000003#32, Instr.rlec⟩,
    ⟨0xFFFFFEFF#32, 0x00000004#32, Instr.arlec⟩,
    ⟨0xFFFFFFFF#32, 0x00000005#32, fun _ => Instr.rled⟩,
    ⟨0xFFFFFEFF#32, 0x00000006#32, Instr.anlz⟩ ]

/-- Whether a word selects a row (R91). -/
def OpRow.selects (r : OpRow) (w : Word) : Bool := w &&& r.mask == r.pattern

/-- The name under which a word that selects no row is rejected (R93). -/
def illegalReason (w : Word) : DecodeError :=
  if opField w = 0 ∨ 7 ≤ (opField w).toNat then .reservedOp
  else if reservedField w ≠ 0 then .reservedBits
  else .domainNotAllowed

/-- The decoder of a block that has the analyzer when `hasAnlz` (R91, R93). -/
def decode (hasAnlz : Bool) (w : Word) : Decoded :=
  match opTable.find? (fun r => r.selects w) with
  | some r =>
    let i := r.command (domainOfBit (domBit w))
    if i.wf hasAnlz then .command i else .illegal .analyzerAbsent
  | none => .illegal (illegalReason w)

/-- The command word whose low `nbits` bits are those of `w`, every other bit 0. -/
def tableWord (nbits w : Nat) : Word := BitVec.ofNat 32 (w % 2 ^ nbits)

/-- What the decoder reads from the bits of a row of `spec/opcode_table.json`, on a block with the analyzer (R5 gives
`HAS_ANLZ = true`). A command is one 32-bit word (R90), so a wider number is none. -/
def decodeTableWord (nbits w : Nat) : Option Instr :=
  if w % 2 ^ nbits < 2 ^ 32 then
    match decode true (tableWord nbits w) with
    | .command i => some i
    | .illegal _ => none
  else none

/-- `OP` of a command (R91). -/
def Instr.op : Instr → Word
  | .hufc _ => 0x01#32
  | .hufd => 0x02#32
  | .rlec _ => 0x03#32
  | .arlec _ => 0x04#32
  | .rled => 0x05#32
  | .anlz _ => 0x06#32

/-- The `DOM` field of a command; 0 for `HUFD` and `RLED` (R90). -/
def Instr.dom : Instr → Domain
  | .hufc d => d
  | .hufd => .byte
  | .rlec d => d
  | .arlec d => d
  | .rled => .byte
  | .anlz d => d

/-- `DOM` in its place, bit 8. -/
def domField : Domain → Word
  | .byte => 0#32
  | .char => 1#32 <<< 8

/-- The command word of an instruction (R90). -/
def encode (i : Instr) : Word := i.op ||| domField i.dom

/-- The suffix `.B` or `.C` of R106. -/
def domSuffix : Domain → String
  | .byte => ".B"
  | .char => ".C"

/-- Assembler syntax of a command (R106). -/
def Instr.asm : Instr → String
  | .hufc d => "HUFC" ++ domSuffix d
  | .hufd => "HUFD"
  | .rlec d => "RLEC" ++ domSuffix d
  | .arlec d => "ARLEC" ++ domSuffix d
  | .rled => "RLED"
  | .anlz d => "ANLZ" ++ domSuffix d

/-- Every command, `DOM` included: the ten legal words of R91. -/
def allInstrs : List Instr :=
  [.hufc .byte, .hufc .char, .hufd, .rlec .byte, .rlec .char, .arlec .byte, .arlec .char, .rled,
   .anlz .byte, .anlz .char]

/-- The assembler of R106: the suffix is required for the commands with a `DOM` field and forbidden for the others. -/
def assemble (text : String) : Option Instr := allInstrs.find? (fun i => i.asm == text)

end Sys2Proof
end

