-- ==== Sys2Proof/Machine/Operands.lean ====
section
/-!
DEFINITION. Operands: little-endian fields (`20_memory.md` R61, R66; `30_encoding.md` R95), symbols and symbol streams
(R92, R94, R96), and the wire codes of a domain and an algorithm (R10, R101).
-/

namespace Sys2Proof.Machine

/-- `SYMB(d)` of R5: bytes one symbol of domain `d` occupies. -/
def symb : Domain → Nat
  | .byte => 1
  | .char => Config.charW / 8

/-- `d_code`: 0 for `BYTE`, 1 for `CHAR` (R10). -/
def domainCode : Domain → Byte
  | .byte => 0#8
  | .char => 1#8

/-- The domain a `DOMAIN` byte of 0 or 1 names; callers have excluded larger values (R98 (2), R101 (2)). -/
def domainOfCode (n : Nat) : Domain := if n = 0 then .byte else .char

/-- The `ALG` byte (R101). -/
def algoCode : Algo → Byte
  | .basic => 0#8
  | .adaptive => 1#8

/-- The algorithm an `ALG` byte of 0 or 1 names; callers have excluded larger values (R101 (3)). -/
def algoOfCode (n : Nat) : Algo := if n = 0 then .basic else .adaptive

/-- `le(v, n)`: the `n` low-order bytes of `v`, least significant first (R66, R143). -/
def leBytes : Nat → Nat → List Byte
  | 0, _ => []
  | n + 1, v => BitVec.ofNat 8 v :: leBytes n (v / 256)

/-- The natural number bytes hold, least significant first (R66: `sum over k of bytes[k] * 256^k`). -/
def leNat : List Byte → Nat
  | [] => 0
  | b :: bs => b.toNat + 256 * leNat bs

/-- `MemRead(IBUF, off, n)` on the command's input bytes (R66). -/
def field (input : List Byte) (off n : Nat) : Nat := leNat ((input.drop off).take n)

/-- The symbols of a stream of domain `d` (R94, R96). A stream is a whole number of symbols (R236), so the odd byte the
last case drops never occurs. -/
def symbolsOf : Domain → List Byte → List Symbol
  | .byte, bs => bs.map (fun b => b.toNat)
  | .char, lo :: hi :: rest => leNat [lo, hi] :: symbolsOf .char rest
  | .char, _ => []

/-- The bytes of a symbol stream, symbol `i` at offset `i * SYMB(d)` (R96). -/
def streamBytes (d : Domain) (syms : List Symbol) : List Byte := syms.flatMap (leBytes (symb d))

end Sys2Proof.Machine
end

