-- ==== Sys2Proof/Machine/Ops.lean ====
section
/-!
DEFINITION. The shared operations: reading and writing a buffer (`20_memory.md` R66, R73), the accept step
(`10_state.md` R44), publishing a result (R45), taking an error (`60_exceptions.md` R239), and the two command shapes,
a compress or analyze command over a symbol stream and a decompress command over a payload (R238).
-/

namespace Sys2Proof.Machine

/-! ## Buffers -/

/-- Canonical form: addresses strictly rising. An unlisted byte has no value, so every listed entry differs from it. -/
abbrev Memory.wf (m : Memory) : Prop := m.Pairwise (fun a b => a.1 < b.1)

/-- Every listed address lies in a buffer of `size` bytes. -/
abbrev Memory.within (size : Nat) (m : Memory) : Prop := ∀ c ∈ m, c.1 < size

/-- The byte at an address, or none when it is unspecified (R73). -/
def Memory.byteAt : Memory → Nat → Option Byte
  | [], _ => none
  | (b, v) :: rest, a => if b = a then some v else Memory.byteAt rest a

/-- Write one byte, keeping addresses rising. -/
def Memory.setByte : Memory → Nat → Byte → Memory
  | [], a, v => [(a, v)]
  | (b, w) :: rest, a, v =>
    if a < b then (a, v) :: (b, w) :: rest
    else if a = b then (a, v) :: rest
    else (b, w) :: Memory.setByte rest a v

/-- Write bytes one by one in ascending address order (R64, R67). -/
def Memory.setBytes : Memory → Nat → List Byte → Memory
  | m, _, [] => m
  | m, a, v :: vs => Memory.setBytes (Memory.setByte m a v) (a + 1) vs

/-- The `n` bytes from `a` on, or none when one of them is unspecified (R73). -/
def Memory.range (m : Memory) : Nat → Nat → Option (List Byte)
  | _, 0 => some []
  | a, n + 1 =>
    match Memory.byteAt m a with
    | none => none
    | some v =>
      match Memory.range m (a + 1) n with
      | none => none
      | some vs => some (v :: vs)

/-- `MemRead(space, addr, n)` of R66; none when a byte of it is unspecified. -/
def Memory.readLE (m : Memory) (addr n : Nat) : Option Nat := (Memory.range m addr n).map leNat

/-- `MemWrite(space, addr, n, v)` of R66. -/
def Memory.writeLE (m : Memory) (addr n v : Nat) : Memory := Memory.setBytes m addr (leBytes n v)

/-- A buffer in which exactly the bytes from address 0 on have a value. -/
def Memory.ofBytes (a : Nat) : List Byte → Memory
  | [] => []
  | v :: vs => (a, v) :: Memory.ofBytes (a + 1) vs

/-! ## The command's life -/

/-- The accept step (R44): latch the word and `ILEN`, set `BUSY`, clear the previous result; every byte of `OBUF`
becomes unspecified. It is also how an error state is left: there is no return instruction (R240). -/
def acceptCommand (w : Word) (s : State) : State :=
  { s with
    cmdr := w
    ilenr := s.ilen
    status := statusAccepted
    errcode := 0#8
    olen := 0#32
    odom := .byte
    an := Analysis.zero
    obuf := [] }

/-- The error codes of R231. -/
def CmdError.code : CmdError → BitVec 8
  | .emptyInput => 1#8
  | .malformedPayload => 2#8
  | .lengthMismatch => 3#8
  | .unknownItemType => 4#8
  | .illegalCommand => 5#8
  | .resource => 6#8

/-- TAKING AN ERROR (R239): `ERRCODE` holds the code, `STATUS` becomes `0b110`, `OLEN` and `ODOM` are 0, every byte of
`OBUF` is unspecified. Nothing else changes: the `AN_*` registers stay as the accept step left them. -/
def takeError (e : CmdError) (s : State) : State :=
  { s with
    status := statusCompleted true
    errcode := e.code
    olen := 0#32
    odom := .byte
    obuf := [] }

/-- A successful completion (R45): `OBUF[0 .. len-1]` holds the result and every byte above is unspecified (R31);
`AN_*` are written only when the command brings them (R28). -/
def publishOk (out : List Byte) (dom : Domain) (an : Option Analysis) (s : State) : State :=
  { s with
    status := statusCompleted false
    errcode := 0#8
    olen := BitVec.ofNat 32 out.length
    odom := dom
    an := an.getD s.an
    obuf := Memory.ofBytes 0 out }

/-- The effect of the completion step (R45) for a result of `Exec`. -/
def publish (r : CmdResult) (s : State) : State :=
  match r with
  | .ok out dom an => publishOk out dom an s
  | .err e => takeError e s

/-- The command's input `IBUF[0 .. ILENR-1]` (R44), none when a byte of it is unspecified (R73). -/
def inputBytes (s : State) : Option (List Byte) := Memory.range s.ibuf 0 s.ilenr.toNat

/-- Apply the pure function of a command to its input bytes and publish the result. A command whose input range holds
an unspecified byte is refused (R73; log 5). -/
def runOnInput (s : State) (body : List Byte → CmdResult) : Host.Outcome State Fault Refusal :=
  match inputBytes s with
  | none => .refused .unspecifiedInput
  | some input => .next (publish (body input) s)

/-- The shape of `HUFC`, `RLEC`, `ARLEC`, `ANLZ`: checks 2 to 4 of R238, then the body on the symbol stream (R96). -/
def streamCommand (d : Domain) (s : State) (body : List Symbol → CmdResult) : Host.Outcome State Fault Refusal :=
  if s.ilenr.toNat % symb d ≠ 0 then .next (takeError .illegalCommand s)
  else if s.ilenr.toNat > s.cfg.ibufSize then .next (takeError .resource s)
  else if s.ilenr.toNat = 0 then .next (takeError .emptyInput s)
  else runOnInput s (fun input => body (symbolsOf d input))

/-- The shape of `HUFD`, `RLED`: check 3 of R238, then the header-length part of check 5 (R98 (1), R101 (1)), which
reads no byte, then the body on the payload. -/
def payloadCommand (headerLen : Nat) (s : State) (body : List Byte → CmdResult) :
    Host.Outcome State Fault Refusal :=
  if s.ilenr.toNat > s.cfg.ibufSize then .next (takeError .resource s)
  else if s.ilenr.toNat < headerLen then .next (takeError .malformedPayload s)
  else runOnInput s body

/-- The end of a compress command: check 10 of R238 on the whole payload, else `Ok(payload, d)`. -/
def finishEncode (p : Params) (d : Domain) (payload : List Byte) : CmdResult :=
  if payload.length > p.obufSize then .err .resource else .ok payload d none

end Sys2Proof.Machine
end

