-- ==== Sys2Proof/Machine/Rle.lean ====
section
/-!
DEFINITION. Run-length coding: the run scanner (`42_rle_basic.md` R180), the adaptive classifier and sequence
accumulator (`43_rle_adaptive.md` R190, R191), item records and payload (`30_encoding.md` R101 to R104), and the
commands `RLEC` (R181), `ARLEC` (R192) and `RLED` (`44_rle_decode.md` R200).
-/

namespace Sys2Proof.Machine

/-! ## Run scanner, R180 -/

/-- How many symbols at the head of a list equal `x`. -/
def leading (x : Symbol) : List Symbol → Nat
  | [] => 0
  | y :: ys => if y = x then leading x ys + 1 else 0

/-- `RunLen(S, i)` (R180) on the suffix of `S` from `i`: the length of the maximal run that starts there. -/
def runLen : List Symbol → Nat
  | [] => 0
  | x :: xs => 1 + leading x xs

/-- `RunLen(S, i)` with its index (R180). -/
def runLenAt (S : List Symbol) (i : Nat) : Nat := runLen (S.drop i)

/-- The scan `i <- i + RunLen(S, i)` (R180): the maximal runs in order, as symbol and length. The first argument bounds
the number of passes; a pass advances by at least 1 (log 11). -/
def scanRuns : Nat → List Symbol → List (Symbol × Nat)
  | 0, _ => []
  | _ + 1, [] => []
  | k + 1, x :: xs => (x, runLen (x :: xs)) :: scanRuns k ((x :: xs).drop (runLen (x :: xs)))

/-- The maximal runs of a symbol sequence (R180). -/
def maximalRuns (S : List Symbol) : List (Symbol × Nat) := scanRuns S.length S

/-! ## Items, R101 to R104, R201 -/

/-- `Rec(item)`: the record of an item (R102). -/
def itemRecord (d : Domain) : Item → List Byte
  | .single x => 0x00#8 :: leBytes (symb d) x
  | .run x c => 0x01#8 :: (leBytes (symb d) x ++ leBytes 4 c)
  | .shortRun x c => 0x02#8 :: (leBytes (symb d) x ++ leBytes 1 c)
  | .sequence q => 0x03#8 :: BitVec.ofNat 8 q.length :: streamBytes d q

/-- The `ITEMS` region (R101): records back to back. -/
def itemRecords (d : Domain) (items : List Item) : List Byte := items.flatMap (itemRecord d)

/-- `EncRLE(domain, alg, origlen, items)` (R101, R105). -/
def encRle (d : Domain) (alg : Algo) (origLen : Nat) (items : List Item) : List Byte :=
  let body := itemRecords d items
  domainCode d :: algoCode alg :: (leBytes 4 origLen ++ leBytes 4 body.length ++ body)

/-- `Expand(item)` (R201). -/
def expand : Item → List Symbol
  | .single x => [x]
  | .run x c => List.replicate c x
  | .shortRun x c => List.replicate c x
  | .sequence q => q

/-- `ExpandAll(items)` (R201). -/
def expandAll (items : List Item) : List Symbol := items.flatMap expand

/-- Symbols one item expands to (R201). -/
def itemCount : Item → Nat
  | .single _ => 1
  | .run _ c => c
  | .shortRun _ c => c
  | .sequence q => q.length

/-- `NOUT`, the count of expanded symbols, kept without building them: one `RUN` can claim `2^32 - 1` copies (R200). -/
def itemsCount (items : List Item) : Nat := (items.map itemCount).sum

/-! ## RLEC, R181 -/

/-- `Run` for a maximal run of length above 1, else `Single` (R181). -/
def basicItem (r : Symbol × Nat) : Item := if r.2 > 1 then .run r.1 r.2 else .single r.1

/-- The items of `RLEC` (R181). -/
def basicItems (S : List Symbol) : List Item := (maximalRuns S).map basicItem

/-- `Exec` of `RLEC` from `S` on (R181). -/
def rlecBody (p : Params) (d : Domain) (S : List Symbol) : CmdResult :=
  finishEncode p d (encRle d .basic S.length (basicItems S))

/-- `RLEC.d` (R181). -/
def execRlec (d : Domain) (s : State) : Host.Outcome State Fault Refusal :=
  streamCommand d s (rlecBody s.cfg d)

/-! ## ARLEC, R190 to R192 -/

/-- `StartsRun(S, j)` on the suffix from `j` (R191): one symbol of look-ahead. -/
def startsRun : List Symbol → Bool
  | x :: y :: _ => y == x
  | _ => false

/-- The loop of `TakeSequence` (R191) with room for so many more symbols: what it takes, and the suffix after it. -/
def extendSequence : Nat → List Symbol → List Symbol × List Symbol
  | 0, rest => ([], rest)
  | _ + 1, [] => ([], [])
  | k + 1, y :: ys =>
    if startsRun (y :: ys) then ([], y :: ys)
    else
      let more := extendSequence k ys
      (y :: more.1, more.2)

/-- `TakeSequence(S, i)` (R191) on the suffix from `i`, at most `SEQ_CAP` symbols. -/
def takeSequence : List Symbol → List Symbol × List Symbol
  | [] => ([], [])
  | x :: xs =>
    let more := extendSequence (Config.seqCap - 1) xs
    (x :: more.1, more.2)

/-- The loop of `ARLEC` (R192) with the classifier of R190. The first argument bounds the passes (log 11). -/
def scanAdaptive : Nat → List Symbol → List Item
  | 0, _ => []
  | _ + 1, [] => []
  | k + 1, x :: xs =>
    let c := runLen (x :: xs)
    if c ≥ Config.runMin then .run x c :: scanAdaptive k ((x :: xs).drop c)
    else if c ≥ Config.shortMin then .shortRun x c :: scanAdaptive k ((x :: xs).drop c)
    else
      let taken := takeSequence (x :: xs)
      .sequence taken.1 :: scanAdaptive k taken.2

/-- The items of `ARLEC` (R192). -/
def adaptiveItems (S : List Symbol) : List Item := scanAdaptive S.length S

/-- `Exec` of `ARLEC` from `S` on (R192). -/
def arlecBody (p : Params) (d : Domain) (S : List Symbol) : CmdResult :=
  finishEncode p d (encRle d .adaptive S.length (adaptiveItems S))

/-- `ARLEC.d` (R192). -/
def execArlec (d : Domain) (s : State) : Host.Outcome State Fault Refusal :=
  streamCommand d s (arlecBody s.cfg d)

/-! ## RLED, R200 -/

/-- `RLED`'s header length (R101). -/
def rleHeaderLen : Nat := 10

/-- The header fields at their offsets (R101). -/
def rleHeader (input : List Byte) : RleHeader :=
  { domain := field input 0 1
    alg := field input 1 1
    origLen := field input 2 4
    itemsLen := field input 6 4 }

/-- Checks (2) to (4) of R101. -/
def rleHeaderOk (h : RleHeader) (ilen : Nat) : Bool :=
  decide (h.domain ≤ 1) && decide (h.alg ≤ 1) && decide (rleHeaderLen + h.itemsLen = ilen)

/-- `Recognised(ALG, tag)` (R103, R200). -/
def recognised : Algo → Byte → Bool
  | .basic, tag => tag == 0x00#8 || tag == 0x01#8
  | .adaptive, tag => tag == 0x01#8 || tag == 0x02#8 || tag == 0x03#8

/-- The body of a record with a recognised tag (R102, R200): its item and the bytes after it, none when the record
passes the end of the payload (R104). -/
def parseBody (d : Domain) (tag : Byte) (rest : List Byte) : Option (Item × List Byte) :=
  let s := symb d
  if tag = 0x00#8 then
    if rest.length < s then none else some (.single (field rest 0 s), rest.drop s)
  else if tag = 0x01#8 then
    if rest.length < s + 4 then none
    else some (.run (field rest 0 s) (field rest s 4), rest.drop (s + 4))
  else if tag = 0x02#8 then
    if rest.length < s + 1 then none
    else some (.shortRun (field rest 0 s) (field rest s 1), rest.drop (s + 1))
  else
    if rest.length < 1 then none
    else
      let n := field rest 0 1
      if rest.length < 1 + n * s then none
      else some (.sequence (symbolsOf d ((rest.drop 1).take (n * s))), rest.drop (1 + n * s))

/-- The item loop of `RLED` (R200): the tag is examined before the rest of the record (R104), the first defect in item
order is the error. The first argument bounds the items; a record is never empty (log 11). -/
def parseItems (d : Domain) (alg : Algo) : Nat → List Byte → Except CmdError (List Item)
  | _, [] => .ok []
  | 0, _ :: _ => .error .malformedPayload
  | k + 1, tag :: rest =>
    if recognised alg tag then
      match parseBody d tag rest with
      | none => .error .malformedPayload
      | some (item, rest1) =>
        match parseItems d alg k rest1 with
        | .error e => .error e
        | .ok items => .ok (item :: items)
    else .error .unknownItemType

/-- `Exec` of `RLED` from the header checks on (R200): header, output capacity, items, length check. -/
def rledBody (p : Params) (input : List Byte) : CmdResult :=
  let h := rleHeader input
  if rleHeaderOk h input.length then
    let d := domainOfCode h.domain
    if h.origLen * symb d > p.obufSize then .err .resource
    else
      match parseItems d (algoOfCode h.alg) input.length (input.drop rleHeaderLen) with
      | .error e => .err e
      | .ok items =>
        if itemsCount items ≠ h.origLen then .err .lengthMismatch
        else .ok (streamBytes d (expandAll items)) d none
  else .err .malformedPayload

/-- `RLED` (R200). -/
def execRled (s : State) : Host.Outcome State Fault Refusal :=
  payloadCommand rleHeaderLen s (rledBody s.cfg)

end Sys2Proof.Machine
end

