-- ==== Sys2Proof/Machine/Analyze.lean ====
section
/-!
DEFINITION. The effectiveness analyzer: command `ANLZ` (`45_analyze.md` R215) and the two ratios the host computes from
its registers (R216).
-/

namespace Sys2Proof.Machine

/-- The runs `ANLZ` counts: those of length above 1 (R215). -/
def countedRuns (S : List Symbol) : List Nat := ((maximalRuns S).map (fun r => r.2)).filter (fun c => decide (c > 1))

/-- `longest`: the greatest counted length, 0 when there is none (R215 (b)). -/
def longestRun (cs : List Nat) : Nat := cs.foldl max 0

/-- The five values of R215. -/
def analyze (S : List Symbol) : Analysis :=
  let cs := countedRuns S
  { runCount := BitVec.ofNat 32 cs.length
    totalRun := BitVec.ofNat 32 cs.sum
    longest := BitVec.ofNat 32 (longestRun cs)
    inLen := BitVec.ofNat 32 S.length
    recommend := recommendFlag cs.length (longestRun cs) S.length }

/-- `Exec` of `ANLZ` from `S` on (R215): no output bytes, the five values. -/
def anlzBody (d : Domain) (S : List Symbol) : CmdResult := .ok [] d (some (analyze S))

/-- `ANLZ.d` (R215). On a block without the unit its word is illegal (R93), so check 1 of R238 stands first. -/
def execAnlz (d : Domain) (s : State) : Host.Outcome State Fault Refusal :=
  if s.cfg.hasAnlz then streamCommand d s (anlzBody d)
  else .next (takeError .illegalCommand s)

/-- `compressionPotential = AN_TOTALRUN / AN_INLEN` (R216), computed by the host. -/
def compressionPotential (a : Analysis) : Rat := (a.totalRun.toNat : Rat) / (a.inLen.toNat : Rat)

/-- `averageRunLength = AN_TOTALRUN / AN_RUNCOUNT`, 0 when there is no run (R216), computed by the host. -/
def averageRunLength (a : Analysis) : Rat :=
  if a.runCount.toNat = 0 then 0 else (a.totalRun.toNat : Rat) / (a.runCount.toNat : Rat)

end Sys2Proof.Machine
end

