-- ==== Sys2Proof/Machine/Huffman.lean ====
section
/-!
DEFINITION. The Huffman units (`40_huffman_units.md` R130 to R148), the Huffman payload (`30_encoding.md` R97 to R100)
and the commands `HUFC` and `HUFD` (`41_huffman_commands.md` R160, R161).
-/

namespace Sys2Proof.Machine

/-! ## Frequency counter, R130 -/

/-- Count one more occurrence of `x` in a table sorted by ascending symbol that lists the non-zero counts (R35). -/
def bump (x : Symbol) : List (Symbol × Nat) → List (Symbol × Nat)
  | [] => [(x, 1)]
  | (y, c) :: rest =>
    if x < y then (x, 1) :: (y, c) :: rest
    else if x = y then (y, c + 1) :: rest
    else (y, c) :: bump x rest

/-- `Freq(S)` (R130). -/
def freq (S : List Symbol) : List (Symbol × Nat) := S.foldl (fun F x => bump x F) []

/-- `F[s]`, 0 for a symbol the table does not list. -/
def freqAt (F : List (Symbol × Nat)) (s : Symbol) : Nat :=
  match F.find? (fun e => e.1 == s) with
  | some e => e.2
  | none => 0

/-! ## Tree builder, R131 to R135 -/

/-- The frequency a node carries (R12). -/
def Node.freq : Node → Nat
  | .leaf _ f => f
  | .internal f _ _ => f
  | .wrap f _ => f

/-- `NODE[i]` (R36); the ids the builder uses are always in range. -/
def nodeAt (nodes : List Node) (i : Nat) : Node := nodes.getD i (.leaf 0 0)

/-- A tie-break (R132): from the candidate ids and the node memory, the id to yield. -/
abbrev Picker := List Nat → List Node → Nat

/-- R132: "must be a member of `C`". -/
def Picker.valid (pick : Picker) : Prop := ∀ C nodes, C ≠ [] → pick C nodes ∈ C

/-- The least of a list of ids. -/
def leastId : List Nat → Nat
  | [] => 0
  | [i] => i
  | i :: j :: rest => min i (leastId (j :: rest))

/-- The picker a `TIEBREAK` parameter stands for: `MINSEQ` yields the candidate with the smallest sequence number (which
is its id, R131); any other yields the candidate the free value points at (log 2). -/
def pickerOf : TieBreak → Picker
  | .minSeq => fun C _ => leastId C
  | .other k => fun C nodes => C.getD (Config.tieBreak k C nodes % C.length) (leastId C)

/-- `m` of R132: the least frequency of a queue. -/
def minFreq (nodes : List Node) : List Nat → Nat
  | [] => 0
  | [i] => (nodeAt nodes i).freq
  | i :: j :: rest => min (nodeAt nodes i).freq (minFreq nodes (j :: rest))

/-- `C` of R132: the queued nodes of least frequency. -/
def candidates (nodes : List Node) (pq : List Nat) : List Nat :=
  pq.filter (fun i => (nodeAt nodes i).freq == minFreq nodes pq)

/-- `ExtractMin` (R132): the yielded id and the queue without it. -/
def extractMin (pick : Picker) (nodes : List Node) (pq : List Nat) : Nat × List Nat :=
  let i := pick (candidates nodes pq) nodes
  (i, pq.erase i)

/-- The merge step (R133): the first extracted node becomes the left child, the second the right. -/
def mergeStep (pick : Picker) (st : List Node × List Nat) : List Node × List Nat :=
  let first := extractMin pick st.1 st.2
  let second := extractMin pick st.1 first.2
  let a := nodeAt st.1 first.1
  let b := nodeAt st.1 second.1
  (st.1 ++ [.internal (a.freq + b.freq) a b], second.2 ++ [st.1.length])

/-- `k` merge steps (R134). -/
def mergeAll (pick : Picker) : Nat → List Node × List Nat → List Node × List Nat
  | 0, st => st
  | k + 1, st => mergeAll pick k (mergeStep pick st)

/-- Leaf creation (R131): leaves in ascending order of symbol, node ids and queue `0 .. K-1`. -/
def leafNodes (F : List (Symbol × Nat)) : List Node := F.map (fun e => .leaf e.1 e.2)

/-- `Build(F)`: the wrapper for one distinct symbol (R135), `K - 1` merges for more (R134). An empty table has no tree
(R130: the counter is only applied to `n >= 1`). -/
def build (pick : Picker) (F : List (Symbol × Nat)) : Option Node :=
  match F with
  | [] => none
  | [(s, c)] => some (.wrap c (.leaf s c))
  | F =>
    let st := mergeAll pick (F.length - 1) (leafNodes F, List.range F.length)
    some (nodeAt st.1 (st.2.headD 0))

/-! ## Code generator, R137, R138 -/

/-- `Walk(node, path)` (R137), with the leaf-root case of R138. -/
def codesFrom : Node → Bits → List (Symbol × Bits)
  | .leaf s _, path => [(s, if path = [] then [false] else path)]
  | .internal _ l r, path => codesFrom l (path ++ [false]) ++ codesFrom r (path ++ [true])
  | .wrap _ c, path => codesFrom c (path ++ [false])

/-- `Codes(T)` (R137). -/
def codes (T : Node) : List (Symbol × Bits) := codesFrom T []

/-- `CODE[s]` (R38). -/
def codeOf (table : List (Symbol × Bits)) (s : Symbol) : Bits :=
  match table.find? (fun e => e.1 == s) with
  | some e => e.2
  | none => []

/-! ## Bit-packer and bit-expander, R141, R146 -/

/-- The number a bit-string spells, first bit most significant (R62). -/
def bitsToNat : Bits → Nat
  | [] => 0
  | b :: bs => b.toNat * 2 ^ bs.length + bitsToNat bs

/-- `P` packed bytes, eight bits each, first bit in bit 7 (R141). -/
def packBytes : Nat → Bits → List Byte
  | 0, _ => []
  | P + 1, bits => BitVec.ofNat 8 (bitsToNat (bits.take 8)) :: packBytes P (bits.drop 8)

/-- `P = ceil(B / 8)` (R141). -/
def packLength (B : Nat) : Nat := (B + 7) / 8

/-- `pad = 8 * P - B` (R141). -/
def padCount (B : Nat) : Nat := 8 * packLength B - B

/-- `Pack(bits)` (R141). -/
def pack (bits : Bits) : List Byte × Nat :=
  (packBytes (packLength bits.length) (bits ++ List.replicate (padCount bits.length) false), padCount bits.length)

/-- The data path of R141: one bit into `BITACC`; a full byte is written. -/
def BitPacker.push (b : Bool) (p : BitPacker) : BitPacker :=
  let acc := p.acc + b.toNat * 2 ^ (7 - p.cnt)
  if p.cnt + 1 = 8 then { acc := 0, cnt := 0, out := p.out ++ [BitVec.ofNat 8 acc] }
  else { p with acc := acc, cnt := p.cnt + 1 }

/-- The end of the data path (R141): the last byte as it stands, and `pad`. -/
def BitPacker.flush (p : BitPacker) : List Byte × Nat :=
  if p.cnt > 0 then (p.out ++ [BitVec.ofNat 8 p.acc], 8 - p.cnt) else (p.out, 0)

/-- The bit-packer run over a bit sequence, `BITACC` and `BITCNT` starting at 0 (R39, R42). -/
def packerRun (bits : Bits) : List Byte × Nat :=
  BitPacker.flush (bits.foldl (fun p b => BitPacker.push b p) { acc := 0, cnt := 0, out := [] })

/-- The eight bits of a byte, bit 7 first (R146). -/
def byteBits (b : Byte) : Bits := (List.range 8).map (fun k => b.toNat / 2 ^ (7 - k) % 2 == 1)

/-- `Unpack(packed, pad)` (R146). -/
def unpack (packed : List Byte) (pad : Nat) : Bits :=
  (packed.flatMap byteBits).take (8 * packed.length - pad)

/-! ## Serializer and deserializer, R143, R144 -/

/-- `Serialize(T, d)` (R143), records of R99. -/
def serialize (d : Domain) : Node → List Byte
  | .leaf s f => 0x00#8 :: (leBytes (symb d) s ++ leBytes 4 f)
  | .internal f l r => 0x01#8 :: (leBytes 4 f ++ (serialize d l ++ serialize d r))
  | .wrap f c => 0x02#8 :: (leBytes 4 f ++ serialize d c)

/-- `Parse(R, o, d)` (R144) on the bytes left in the region; none is `MalformedPayloadError`. The first argument bounds
the depth, and a record is never empty, so the region's length is bound enough (log 11). -/
def parseTree (d : Domain) : Nat → List Byte → Option (Node × List Byte)
  | 0, _ => none
  | _ + 1, [] => none
  | k + 1, tag :: rest =>
    if tag = 0x00#8 then
      if rest.length < symb d + 4 then none
      else some (.leaf (field rest 0 (symb d)) (field rest (symb d) 4), rest.drop (symb d + 4))
    else if tag = 0x01#8 then
      if rest.length < 4 then none
      else
        match parseTree d k (rest.drop 4) with
        | none => none
        | some (l, rest1) =>
          match parseTree d k rest1 with
          | none => none
          | some (r, rest2) => some (.internal (field rest 0 4) l r, rest2)
    else if tag = 0x02#8 then
      if rest.length < 4 then none
      else
        match parseTree d k (rest.drop 4) with
        | none => none
        | some (c, rest1) => some (.wrap (field rest 0 4) c, rest1)
    else none

/-- `Deserialize(bytes, d)` (R144): one complete tree and nothing after it; none is `MalformedPayloadError`. -/
def deserialize (d : Domain) (region : List Byte) : Option Node :=
  match parseTree d (region.length + 1) region with
  | some (T, []) => some T
  | some (_, _ :: _) => none
  | none => none

/-! ## Tree walker, R147, R148 -/

/-- The child a bit leads to; none at the absent right child of a `Wrap` (R147 (a)). A leaf has no children: the walker
never stands at one. -/
def childAt (b : Bool) : Node → Option Node
  | .leaf _ _ => none
  | .internal _ l r => some (if b then r else l)
  | .wrap _ c => if b then none else some c

/-- The loop of `WalkBits` (R147) from the node `cur`, resetting to `root` at a leaf; bits that end below the root emit
nothing (R147 (b)). -/
def walkFrom (root : Node) : Node → Bits → Option (List Symbol)
  | _, [] => some []
  | cur, b :: bs =>
    match childAt b cur with
    | none => none
    | some (.leaf s _) => (walkFrom root root bs).map (fun out => s :: out)
    | some (.internal f l r) => walkFrom root (.internal f l r) bs
    | some (.wrap f c) => walkFrom root (.wrap f c) bs

/-- `WalkBits(T, bits)`: every bit is the symbol when the root is a leaf (R148), else the walk of R147; none is
`MalformedPayloadError`. -/
def walkBits (T : Node) (bits : Bits) : Option (List Symbol) :=
  match T with
  | .leaf s _ => some (List.replicate bits.length s)
  | .internal f l r => walkFrom (.internal f l r) (.internal f l r) bits
  | .wrap f c => walkFrom (.wrap f c) (.wrap f c) bits

/-! ## The payload, R97, R98, R105 -/

/-- `EncHuff(domain, pad, origlen, tree, packed)` (R97, R105). -/
def encHuff (d : Domain) (pad origLen : Nat) (T : Node) (packed : List Byte) : List Byte :=
  let tree := serialize d T
  domainCode d :: BitVec.ofNat 8 pad ::
    (leBytes 4 origLen ++ leBytes 4 tree.length ++ leBytes 4 packed.length ++ tree ++ packed)

/-- `HUFD`'s header length (R97). -/
def huffHeaderLen : Nat := 14

/-- The header fields at their offsets (R97). -/
def huffHeader (input : List Byte) : HuffHeader :=
  { domain := field input 0 1
    pad := field input 1 1
    origLen := field input 2 4
    treeLen := field input 6 4
    packLen := field input 10 4 }

/-- Checks (2) to (5) of R98. -/
def huffHeaderOk (h : HuffHeader) (ilen : Nat) : Bool :=
  decide (h.domain ≤ 1) && decide (h.pad ≤ Config.padMax)
    && decide (huffHeaderLen + h.treeLen + h.packLen = ilen)
    && !(decide (h.packLen = 0) && decide (h.pad ≠ 0))

/-! ## HUFC, R160 -/

/-- The code bits of an input (R142): the codes of its symbols in order. -/
def codeBits (table : List (Symbol × Bits)) (S : List Symbol) : Bits := S.flatMap (codeOf table)

/-- The payload `HUFC` makes of a tree and the symbols it was built from (R160). -/
def hufcPayload (d : Domain) (T : Node) (S : List Symbol) : List Byte :=
  let packed := pack (codeBits (codes T) S)
  encHuff d packed.2 S.length T packed.1

/-- `Exec` of `HUFC` from `S` on (R160). An empty stream was excluded; the frequency counter fails on it with
`EmptyInputError` (R130). -/
def hufcBody (p : Params) (d : Domain) (S : List Symbol) : CmdResult :=
  match build (pickerOf p.tieBreak) (freq S) with
  | none => .err .emptyInput
  | some T => finishEncode p d (hufcPayload d T S)

/-- `HUFC.d` (R160). -/
def execHufc (d : Domain) (s : State) : Host.Outcome State Fault Refusal :=
  streamCommand d s (hufcBody s.cfg d)

/-! ## HUFD, R161 -/

/-- The part of `HUFD` after the tree is known (R161): output capacity, bits, walk, length check, in that order. -/
def hufdDecode (p : Params) (h : HuffHeader) (T : Node) (packed : List Byte) : CmdResult :=
  let d := domainOfCode h.domain
  if h.origLen * symb d > p.obufSize then .err .resource
  else
    match walkBits T (unpack packed h.pad) with
    | none => .err .malformedPayload
    | some syms =>
      if syms.length ≠ h.origLen then .err .lengthMismatch
      else .ok (streamBytes d syms) d none

/-- `Exec` of `HUFD` from the header checks on (R161). -/
def hufdBody (p : Params) (input : List Byte) : CmdResult :=
  let h := huffHeader input
  if huffHeaderOk h input.length then
    match deserialize (domainOfCode h.domain) ((input.drop huffHeaderLen).take h.treeLen) with
    | none => .err .malformedPayload
    | some T => hufdDecode p h T (input.drop (huffHeaderLen + h.treeLen))
  else .err .malformedPayload

/-- `HUFD` (R161). -/
def execHufd (s : State) : Host.Outcome State Fault Refusal :=
  payloadCommand huffHeaderLen s (hufdBody s.cfg)

end Sys2Proof.Machine
end

