-- ==== Sys2Proof/Machine/Dispatch.lean ====
section
/-!
DEFINITION. The completion step of each command (`10_state.md` R45), one arm per command of R91.
-/

namespace Sys2Proof.Machine

def exec (i : Instr) (s : State) : Host.Outcome State Fault Refusal :=
  match i with
  | .hufc d => Sys2Proof.Machine.execHufc d s
  | .hufd => Sys2Proof.Machine.execHufd s
  | .rlec d => Sys2Proof.Machine.execRlec d s
  | .arlec d => Sys2Proof.Machine.execArlec d s
  | .rled => Sys2Proof.Machine.execRled s
  | .anlz d => Sys2Proof.Machine.execAnlz d s

end Sys2Proof.Machine
end

