-- ==== Sys2Proof/Machine/HostPort.lean ====
section
/-!
DEFINITION. The host's moves (`00_scope.md` R16): register and buffer accesses (`10_state.md` R21 to R31,
`20_memory.md` R64, R65, R72, R73), `FEEDBACK` (`30_encoding.md` R107), and reset (`70_reset_and_hazards.md` R260).
-/

namespace Sys2Proof.Machine

/-! ## Registers -/

/-- An access to `REG` the spec defines: 32 bits wide at a multiple of 4 from `0x00` to `0xFC` (R21, R63). -/
def regAccessOk (off width : Nat) : Bool := decide (width = 4 ∧ off % 4 = 0 ∧ off < 256)

/-- A one-bit register as it reads. -/
def oneBit (b : Bool) : Word := if b then 1#32 else 0#32

/-- What a host read of `REG` returns (R21 to R29); a reserved offset reads 0, and so do the `AN_*` offsets on a block
without the analyzer (R29). -/
def regValue (s : State) (off : Nat) : Word :=
  if off = 0x00 then s.cmdr
  else if off = 0x04 then s.status.word
  else if off = 0x08 then s.errcode.setWidth 32
  else if off = 0x0C then s.ilen
  else if off = 0x10 then s.olen
  else if off = 0x14 then oneBit (s.odom == .char)
  else if s.cfg.hasAnlz then
    if off = 0x20 then s.an.runCount
    else if off = 0x24 then s.an.totalRun
    else if off = 0x28 then s.an.longest
    else if off = 0x2C then s.an.inLen
    else if off = 0x30 then oneBit s.an.recommend
    else 0#32
  else 0#32

/-- A host read of `REG`; it changes nothing (R64). -/
def hostRegRead (off width : Nat) (s : State) : Host.Outcome State Fault Refusal :=
  if regAccessOk off width then .next { s with rdata := some (regValue s off).toNat }
  else .refused .registerAccessShape

/-- The effect of a host write of `REG` (R21): `CMD` starts a command and `ILEN` is written, both only while
`BUSY = 0` (R22, R25); any other write is ignored (R29). -/
def regWriteEffect (off : Nat) (w : Word) (s : State) : State :=
  if s.status.busy then s
  else if off = 0x00 then acceptCommand w s
  else if off = 0x0C then { s with ilen := w }
  else s

/-- A host write of `REG`. -/
def hostRegWrite (off width : Nat) (w : Word) (s : State) : Host.Outcome State Fault Refusal :=
  if regAccessOk off width then .next (regWriteEffect off w s)
  else .refused .registerAccessShape

/-! ## Buffers -/

/-- A host read of `n` bytes of a buffer: refused outside it (R65) or where a byte is unspecified (R73). R64 makes it
equal to `n` reads of one byte; that these are one move, with nothing between them, is the model's choice (log 25). -/
def hostBufferRead (buffer : Memory) (size addr n : Nat) (s : State) : Host.Outcome State Fault Refusal :=
  if addr + n > size then .refused .outsideBuffer
  else
    match Memory.readLE buffer addr n with
    | none => .refused .unspecifiedRead
    | some v => .next { s with rdata := some v }

/-- A host read of `IBUF`, also while a command is in flight (R72). -/
def hostIbufRead (addr n : Nat) (s : State) : Host.Outcome State Fault Refusal :=
  hostBufferRead s.ibuf s.cfg.ibufSize addr n s

/-- A host read of `OBUF`: every byte is unspecified while `BUSY = 1` (R72). -/
def hostObufRead (addr n : Nat) (s : State) : Host.Outcome State Fault Refusal :=
  hostBufferRead (if s.status.busy then [] else s.obuf) s.cfg.obufSize addr n s

/-- A host write of `IBUF`: ignored while `BUSY = 1` (R30, R72), refused outside the buffer (R65). R64 makes a write of
several bytes equal to writes of one byte in ascending order; that these are one move, so that no completion and no reset
falls between them, is the model's choice (log 25). -/
def hostIbufWrite (addr : Nat) (bytes : List Byte) (s : State) : Host.Outcome State Fault Refusal :=
  if addr + bytes.length > s.cfg.ibufSize then .refused .outsideBuffer
  else if s.status.busy then .next s
  else .next { s with ibuf := Memory.setBytes s.ibuf addr bytes }

/-- A host write of `OBUF`: ignored (R31), refused outside the buffer (R65). -/
def hostObufWrite (addr : Nat) (bytes : List Byte) (s : State) : Host.Outcome State Fault Refusal :=
  if addr + bytes.length > s.cfg.obufSize then .refused .outsideBuffer
  else .next s

/-- `FEEDBACK` (R107): the host copies `OBUF[0 .. OLEN-1]` to `IBUF[0 .. OLEN-1]` and writes `OLEN` to `ILEN`. While a
command is in flight `OLEN` reads 0 and both writes are dropped (R72), so nothing happens. More bytes than `IBUF` holds
is refused (R263 HZ7). -/
def hostFeedback (s : State) : Host.Outcome State Fault Refusal :=
  if s.status.busy then .next s
  else
    match Memory.range s.obuf 0 s.olen.toNat with
    | none => .refused .unspecifiedRead
    | some bytes =>
      match hostIbufWrite 0 bytes s with
      | .next t => .next (regWriteEffect 0x0C s.olen t)
      | .fault f => .fault f
      | .refused r => .refused r

/-! ## Reset and dispatch -/

/-- The reset event (R260, R261): the table of R43 whatever the block was doing; a command in flight is abandoned. The
parameters are the build's (R5) and the accesses to come are the host's, so both stay. -/
def hostReset (s : State) : State := { State.reset with cfg := s.cfg, port := s.port }

/-- One host move. Before the first reset every access is refused (R260). -/
def hostAccess (a : HostAccess) (s : State) : Host.Outcome State Fault Refusal :=
  match a with
  | .reset => .next (hostReset s)
  | .regRead off width => if s.resetSeen then hostRegRead off width s else .refused .beforeFirstReset
  | .regWrite off width w => if s.resetSeen then hostRegWrite off width w s else .refused .beforeFirstReset
  | .ibufRead addr n => if s.resetSeen then hostIbufRead addr n s else .refused .beforeFirstReset
  | .ibufWrite addr bytes => if s.resetSeen then hostIbufWrite addr bytes s else .refused .beforeFirstReset
  | .obufRead addr n => if s.resetSeen then hostObufRead addr n s else .refused .beforeFirstReset
  | .obufWrite addr bytes => if s.resetSeen then hostObufWrite addr bytes s else .refused .beforeFirstReset
  | .feedback => if s.resetSeen then hostFeedback s else .refused .beforeFirstReset

end Sys2Proof.Machine
end

