-- ==== Sys2Proof/Machine/Lifecycle.lean ====
section
/-!
DEFINITION. How the two agents take turns (`10_state.md` R44 to R46, `20_memory.md` R68): the completion step of the
core and the next move of the host.
-/

namespace Sys2Proof.Machine

/-- The completion step (R45): `Exec` of the latched word, `Err(IllegalCommandError)` when it is illegal (R93). -/
def completionStep (s : State) : Host.Outcome State Fault Refusal :=
  match decode s.cfg.hasAnlz s.cmdr with
  | .command i => exec i s
  | .illegal _ => .next (takeError .illegalCommand s)

/-- Whether the core moves next: a command is in flight, and the next host access, if there is one, lands after its
completion (R46; log 3). -/
def coreTurn (s : State) : Bool :=
  match s.port with
  | [] => s.status.busy
  | m :: _ => s.status.busy && m.late

/-- The host's next move; with none to come an idle block stays as it is (R245: "it is idle when `BUSY = 0` and that is
all"). -/
def hostTurn (s : State) : Host.Outcome State Fault Refusal :=
  match s.port with
  | [] => .next s
  | m :: rest => hostAccess m.access { s with port := rest }

/-- One move of the block: the core's or the host's. -/
def move (s : State) : Host.Outcome State Fault Refusal := if coreTurn s then completionStep s else hostTurn s

/-- Let every access to come land after the completion of the command in flight. -/
def deferPort : List HostMove → List HostMove
  | [] => []
  | m :: rest => { m with late := true } :: rest

end Sys2Proof.Machine
end

