-- ==== Sys2Proof/Machine/HostProgram.lean ====
section
/-!
DEFINITION. The host program notation (`30_encoding.md` R108) and the contracts as pseudo-instructions (R107), expanded
to host accesses.
-/

namespace Sys2Proof.Machine

/-- The steps of R108. `wait` gives the number of polls of `STATUS` that read `DONE = 0`; `expect` is a list of reads. -/
inductive HostStep where
  | load (bytes : List Byte)
  | setLen (n : Word)
  | command (i : Instr)
  | wait (polls : Nat)
  | feedback
  | expect (reads : List HostAccess)
  deriving DecidableEq, Repr

/-- `LOAD`'s byte writes: `bk` to `IBUF[k]` (R108). -/
def loadWrites (late : Bool) : Nat → List Byte → List HostMove
  | _, [] => []
  | k, b :: bs => { access := .ibufWrite k [b], late := late } :: loadWrites late (k + 1) bs

/-- The accesses of a step (R108). `late` says whether they land after the completion of a command in flight; the last
poll of `WAIT` always does, the polls before it never do. -/
def HostStep.accesses (late : Bool) : HostStep → List HostMove
  | .load bytes =>
    loadWrites late 0 bytes ++ [{ access := .regWrite 0x0C 4 (BitVec.ofNat 32 bytes.length), late := late }]
  | .setLen n => [{ access := .regWrite 0x0C 4 n, late := late }]
  | .command i => [{ access := .regWrite 0x00 4 (encode i), late := late }]
  | .wait polls =>
    List.replicate polls { access := .regRead 0x04 4, late := false } ++ [{ access := .regRead 0x04 4, late := true }]
  | .feedback => [{ access := .feedback, late := late }]
  | .expect reads => reads.map (fun a => { access := a, late := late })

/-- The contracts of R107. -/
inductive Contract where
  | huffmanCompress (input : List Byte) (d : Domain)
  | huffmanDecompress (payload : List Byte)
  | rleCompress (input : List Byte) (d : Domain) (alg : Algo)
  | rleDecompress (payload : List Byte)
  | analyze (input : List Byte) (d : Domain)
  deriving DecidableEq, Repr

/-- The command a contract issues (R107). -/
def Contract.command : Contract → Instr
  | .huffmanCompress _ d => .hufc d
  | .huffmanDecompress _ => .hufd
  | .rleCompress _ d .basic => .rlec d
  | .rleCompress _ d .adaptive => .arlec d
  | .rleDecompress _ => .rled
  | .analyze _ d => .anlz d

/-- The bytes a contract loads (R107). -/
def Contract.input : Contract → List Byte
  | .huffmanCompress input _ => input
  | .huffmanDecompress payload => payload
  | .rleCompress input _ _ => input
  | .rleDecompress payload => payload
  | .analyze input _ => input

/-- `LOAD input ; command ; WAIT` (R107). -/
def Contract.steps (polls : Nat) (c : Contract) : List HostStep := [.load c.input, .command c.command, .wait polls]

/-- What a contract gives after `WAIT` (R107): the error code, or `OBUF[0 .. OLEN-1]` with `ODOM`; none before `DONE`. -/
def contractResult (s : State) : Option (Except (BitVec 8) (List Byte × Domain)) :=
  if s.status.done then
    if s.status.err then some (.error s.errcode)
    else (Memory.range s.obuf 0 s.olen.toNat).map (fun out => .ok (out, s.odom))
  else none

end Sys2Proof.Machine
end

