-- ==== Sys2Proof/Machine/Step.lean ====
section
/-!
DEFINITION. The step function and how the host of the pipeline places one instruction.
-/

namespace Sys2Proof.Machine

/-- One step of the machine. -/
def step (s : State) : Host.Outcome State Fault Refusal := move s

/-- `s` with the command word just accepted, so that the next step is its completion (log 4, log 17). -/
def State.withFetchWord (s : State) (nbits w : Nat) : State :=
  { acceptCommand (tableWord nbits w) s with port := deferPort s.port }

end Sys2Proof.Machine
end

