-- ==== Sys2Proof/Safety.lean ====
section
/-!
DEFINITION. The terms claims use: the invariant of the block, what a completion leaves, and declarative readings of the
data model (`00_scope.md` R12, R13, R15) that do not mention the algorithms.
-/

namespace Sys2Proof.Machine

/-! ## The invariant -/

/-- What holds of the block between any two moves. -/
structure Inv (s : State) : Prop where
  /-- The bounds of R5. -/
  cfgWf : s.cfg.wf = true
  /-- `BUSY` and `DONE` are never both 1 (R23). -/
  busyOrDone : ¬ (s.status.busy = true ∧ s.status.done = true)
  /-- `STATUS.ERR = 1` exactly when `DONE = 1` and `ERRCODE != 0` (R24). -/
  errIff : s.status.err = true ↔ (s.status.done = true ∧ s.errcode ≠ 0#8)
  /-- `ERRCODE` ranges over 0 to 6 (R231). -/
  errcodeRange : s.errcode.toNat ≤ 6
  /-- `OLEN <= OBUF_SIZE` always (R26). -/
  olenFits : s.olen.toNat ≤ s.cfg.obufSize
  /-- Canonical form of `IBUF`, addresses within it (R30). -/
  ibufWf : Memory.wf s.ibuf
  ibufWithin : Memory.within s.cfg.ibufSize s.ibuf
  /-- Canonical form of `OBUF`. -/
  obufWf : Memory.wf s.obuf
  /-- Exactly `OBUF[0 .. OLEN-1]` has a value (R31). -/
  obufExact : ∀ a, (Memory.byteAt s.obuf a).isSome = true ↔ a < s.olen.toNat
  /-- Before the first completion, and while a command is in flight, no result is visible (R43, R44). -/
  noResult : s.status.done = false → s.errcode = 0#8 ∧ s.olen = 0#32 ∧ s.odom = .byte ∧ s.an = Analysis.zero
  /-- After an error no result is visible (R45, R239). -/
  noResultOnError : s.errcode ≠ 0#8 → s.olen = 0#32 ∧ s.odom = .byte ∧ s.an = Analysis.zero
  /-- `ILEN` cannot change under a command in flight (R25, R44). -/
  latched : s.status.busy = true → s.ilenr = s.ilen
  /-- Idle since reset, no word was latched (R22, R23). -/
  idleWord : s.status.busy = false → s.status.done = false → s.cmdr = 0#32
  /-- Only a successful `ANLZ` leaves the `AN_*` registers non-zero, and it leaves `OLEN = 0` (R26, R28). -/
  analyzed : s.an ≠ Analysis.zero → (∃ d, decode s.cfg.hasAnlz s.cmdr = .command (.anlz d)) ∧
    s.cfg.hasAnlz = true ∧ s.status.done = true ∧ s.errcode = 0#8 ∧ s.olen = 0#32

/-! ## What a completion leaves -/

/-- What no completion changes (R30, R25, R45): parameters, command word, lengths, `IBUF`, and the host's side. -/
structure CoreFrame (s t : State) : Prop where
  cfg : t.cfg = s.cfg
  cmdr : t.cmdr = s.cmdr
  ilen : t.ilen = s.ilen
  ilenr : t.ilenr = s.ilenr
  ibuf : t.ibuf = s.ibuf
  resetSeen : t.resetSeen = s.resetSeen
  port : t.port = s.port
  rdata : t.rdata = s.rdata

/-- A successful completion with result `out` in domain `d` (R45): `STATUS = 0b010`, `ERRCODE = 0`, `OLEN` and `ODOM`,
`OBUF[0 .. OLEN-1]` the result, every byte above unspecified (R31). -/
structure Success (s t : State) (d : Domain) (out : List Byte) : Prop where
  status : t.status.busy = false ∧ t.status.done = true ∧ t.status.err = false
  errcode : t.errcode = 0#8
  olen : t.olen.toNat = out.length
  odom : t.odom = d
  obuf : ∀ a, Memory.byteAt t.obuf a = out[a]?
  frame : CoreFrame s t

/-- A completion with the error of code `code` (R239): `STATUS = 0b110`, no result, every byte of `OBUF` unspecified. -/
structure Failure (s t : State) (code : Nat) : Prop where
  status : t.status.busy = false ∧ t.status.done = true ∧ t.status.err = true
  errcode : t.errcode.toNat = code
  olen : t.olen = 0#32
  odom : t.odom = .byte
  obuf : ∀ a, Memory.byteAt t.obuf a = none
  an : t.an = s.an
  frame : CoreFrame s t

/-- The command in flight has exactly the input bytes `bs` (R44): they fit `IBUF` and each has been written. -/
structure InputIs (s : State) (bs : List Byte) : Prop where
  length : s.ilenr.toNat = bs.length
  fits : bs.length ≤ s.cfg.ibufSize
  bytes : ∀ k, k < bs.length → Memory.byteAt s.ibuf k = bs[k]?

/-- Two states whose latched command has the same input, on blocks that agree but for the tie-break (R163). -/
structure SameInput (s t : State) : Prop where
  ibufSize : t.cfg.ibufSize = s.cfg.ibufSize
  obufSize : t.cfg.obufSize = s.cfg.obufSize
  hasAnlz : t.cfg.hasAnlz = s.cfg.hasAnlz
  ilenr : t.ilenr = s.ilenr
  bytes : ∀ k, k < s.ilenr.toNat → Memory.byteAt t.ibuf k = Memory.byteAt s.ibuf k

/-- Two states that show a host the same result (R26 to R31). -/
structure SameResult (s t : State) : Prop where
  status : t.status = s.status
  errcode : t.errcode = s.errcode
  olen : t.olen = s.olen
  odom : t.odom = s.odom
  an : t.an = s.an
  obuf : t.obuf = s.obuf

/-- The core moves next: a command is in flight and no host access lands before its completion (R46). -/
def CoreMovesNext (s : State) : Prop :=
  s.status.busy = true ∧ (s.port = [] ∨ ∃ a rest, s.port = { access := a, late := true } :: rest)

/-- So many steps, stopping where one stops. -/
def runSteps : Nat → State → Host.Outcome State Fault Refusal
  | 0, s => .next s
  | k + 1, s =>
    match step s with
    | .next t => runSteps k t
    | .fault f => .fault f
    | .refused r => .refused r

/-- The domain of a command whose input is a symbol stream; `HUFD` and `RLED` read a payload (R92). -/
def streamDomain : Instr → Option Domain
  | .hufc d => some d
  | .hufd => none
  | .rlec d => some d
  | .arlec d => some d
  | .rled => none
  | .anlz d => some d

/-- Every byte of the latched input range has been written (R73). -/
def InputWritten (s : State) : Prop := ∀ k, k < s.ilenr.toNat → (Memory.byteAt s.ibuf k).isSome = true

/-- What a completion with error `code` of a state answers. -/
def FailsWith (i : Instr) (s : State) (code : Nat) : Prop := ∃ t, exec i s = .next t ∧ Failure s t code

/-- The command succeeds with result `out` in domain `d` and leaves the `AN_*` registers alone. -/
def SucceedsWith (i : Instr) (s : State) (d : Domain) (out : List Byte) : Prop :=
  ∃ t, exec i s = .next t ∧ Success s t d out ∧ t.an = s.an

/-! ## Declarative readings of the data model -/

/-- The leaves of a tree with their frequencies, left to right. -/
def leavesOf : Node → List (Symbol × Nat)
  | .leaf s f => [(s, f)]
  | .internal _ l r => leavesOf l ++ leavesOf r
  | .wrap _ c => leavesOf c

/-- R12, R136 (a): every internal node's frequency is the sum of its children's, a wrapper's is its child's. -/
def sumsHold : Node → Prop
  | .leaf _ _ => True
  | .internal f l r => f = l.freq + r.freq ∧ sumsHold l ∧ sumsHold r
  | .wrap f c => f = c.freq ∧ sumsHold c

/-- No wrapper occurs: every internal node has two children (R12). -/
def binary : Node → Prop
  | .leaf _ _ => True
  | .internal _ l r => binary l ∧ binary r
  | .wrap _ _ => False

/-- The node a bit path leads to from a node: 0 left, 1 right, and no right child below a wrapper (R12, R137, R147). -/
def nodeOn : Node → Bits → Option Node
  | T, [] => some T
  | .leaf _ _, _ :: _ => none
  | .internal _ l r, b :: bs => nodeOn (if b then r else l) bs
  | .wrap _ c, b :: bs => if b then none else nodeOn c bs

/-- A code for the symbols of `S`: no codeword is empty (R140), and the word of no symbol is a prefix of the word of
another (R139). -/
def prefixCode (S : List Symbol) (c : Symbol → Bits) : Prop :=
  (∀ x ∈ S, c x ≠ []) ∧ ∀ x ∈ S, ∀ y ∈ S, x ≠ y → ¬ c x <+: c y

/-- The root has a child (R147). -/
def rootHasChild : Node → Prop
  | .leaf _ _ => False
  | .internal _ _ _ => True
  | .wrap _ _ => True

/-- Neighbours of a list never stand in the relation of equality (R180: runs are maximal; R191). -/
def neighboursDiffer (xs : List Symbol) : Prop := xs.IsChain (fun x y => x ≠ y)

/-- A list of symbols and lengths that is the sequence of maximal runs of some symbol sequence (R180). -/
def isRunList (rs : List (Symbol × Nat)) : Prop :=
  (∀ r ∈ rs, 1 ≤ r.2) ∧ neighboursDiffer (rs.map (fun r => r.1))

/-- The symbol sequence a list of runs spells. -/
def spell (rs : List (Symbol × Nat)) : List Symbol := rs.flatMap (fun r => List.replicate r.2 r.1)

/-- R182 (a): what items `RLEC` emits. -/
def basicShape : Item → Prop
  | .single _ => True
  | .run _ c => 1 < c
  | .shortRun _ _ => False
  | .sequence _ => False

/-- R193 (a): what items `ARLEC` emits. -/
def adaptiveShape : Item → Prop
  | .single _ => False
  | .run _ c => 4 ≤ c
  | .shortRun _ c => c = 2 ∨ c = 3
  | .sequence q => 1 ≤ q.length ∧ q.length ≤ 255 ∧ neighboursDiffer q

/-- Two items whose expansions meet in different symbols, so that no run continues from one into the other. -/
def meetApart (a b : Item) : Prop := ∀ x ∈ (expand a).getLast?, ∀ y ∈ (expand b).head?, x ≠ y

/-- R193 (b): two consecutive `Sequence` items only when the first is full. -/
def sequenceFull : Item → Item → Prop
  | .sequence q, .sequence _ => q.length = 255
  | _, _ => True

end Sys2Proof.Machine
end

