-- ==== Sys2Proof/Certificates/Slice0/Obligations.lean ====
section
/-!
DEFINITION. The statements for the provers, file by file of `spec/`. Each docstring names the rules it formalises.
-/

open Sys2Proof Sys2Proof.Machine

/-! ## Encoding, `30_encoding.md` -/

/-- R90, R91: a word decodes to a command exactly when it is that command's word, on a block with or without the
analyzer. So decode and encode agree in both directions and each word has one meaning. -/
def Obligations.CommandWordsDecodeAndEncodeAgree : Prop :=
  ∀ (h : Bool) (w : Word) (i : Instr), decode h w = .command i ↔ (i.wf h = true ∧ encode i = w)

/-- R91: the ten legal words, written out. -/
def Obligations.LegalWordsDecode : Prop :=
  decode true 0x00000001#32 = .command (.hufc .byte) ∧ decode true 0x00000101#32 = .command (.hufc .char) ∧
  decode true 0x00000002#32 = .command .hufd ∧
  decode true 0x00000003#32 = .command (.rlec .byte) ∧ decode true 0x00000103#32 = .command (.rlec .char) ∧
  decode true 0x00000004#32 = .command (.arlec .byte) ∧ decode true 0x00000104#32 = .command (.arlec .char) ∧
  decode true 0x00000005#32 = .command .rled ∧
  decode true 0x00000006#32 = .command (.anlz .byte) ∧ decode true 0x00000106#32 = .command (.anlz .char)

/-- R93: which words are illegal; an illegal word is accepted like any other; its completion is
`IllegalCommandError`, code 5, whatever `ILEN` and `IBUF` hold. -/
def Obligations.IllegalWordsEndWithIllegalCommandError : Prop :=
  (∀ (h : Bool) (w : Word), (∃ why, decode h w = .illegal why) ↔
    (w.toNat % 256 = 0x00 ∨ 0x07 ≤ w.toNat % 256 ∨ (w.toNat % 256 = 0x06 ∧ h = false) ∨ w.toNat / 512 ≠ 0 ∨
      (w.toNat / 256 % 2 = 1 ∧ (w.toNat % 256 = 0x02 ∨ w.toNat % 256 = 0x05)))) ∧
  (∀ (s : State) (w : Word) (late : Bool) (rest : List HostMove),
    s.status.busy = false → s.resetSeen = true →
    s.port = { access := .regWrite 0x00 4 w, late := late } :: rest →
    ∃ t, step s = .next t ∧ t.cmdr = w ∧ t.status.busy = true) ∧
  (∀ (s : State) (why : DecodeError),
    CoreMovesNext s → decode s.cfg.hasAnlz s.cmdr = .illegal why → ∃ t, step s = .next t ∧ Failure s t 5)

/-- R106: the assembler reads back what it writes. -/
def Obligations.AssemblerRoundTrip : Prop := ∀ i : Instr, assemble i.asm = some i

/-- R105: parsing an encoded payload yields its fields, with the lengths of its regions; so the encodings are
injective. -/
def Obligations.PayloadEncodingsAreInverted : Prop :=
  (∀ (d : Domain) (pad origLen : Nat) (T : Node) (packed : List Byte),
    pad < 2 ^ 8 → origLen < 2 ^ 32 → nodeFits d T = true →
    (serialize d T).length < 2 ^ 32 → packed.length < 2 ^ 32 →
    let bytes := encHuff d pad origLen T packed
    huffHeader bytes =
      { domain := (domainCode d).toNat, pad := pad, origLen := origLen, treeLen := (serialize d T).length,
        packLen := packed.length } ∧
    deserialize d ((bytes.drop 14).take (serialize d T).length) = some T ∧
    bytes.drop (14 + (serialize d T).length) = packed) ∧
  (∀ (d : Domain) (alg : Algo) (origLen : Nat) (items : List Item),
    origLen < 2 ^ 32 → (∀ i ∈ items, itemFits d i = true ∧ itemAllowed alg i = true) →
    (itemRecords d items).length < 2 ^ 32 →
    let bytes := encRle d alg origLen items
    rleHeader bytes =
      { domain := (domainCode d).toNat, alg := (algoCode alg).toNat, origLen := origLen,
        itemsLen := (itemRecords d items).length } ∧
    parseItems d alg bytes.length (bytes.drop 10) = .ok items) ∧
  (∀ (d d' : Domain) (pad pad' origLen origLen' : Nat) (T T' : Node) (packed packed' : List Byte),
    pad < 2 ^ 8 → pad' < 2 ^ 8 → origLen < 2 ^ 32 → origLen' < 2 ^ 32 →
    nodeFits d T = true → nodeFits d' T' = true →
    (serialize d T).length < 2 ^ 32 → (serialize d' T').length < 2 ^ 32 →
    packed.length < 2 ^ 32 → packed'.length < 2 ^ 32 →
    encHuff d pad origLen T packed = encHuff d' pad' origLen' T' packed' →
    d = d' ∧ pad = pad' ∧ origLen = origLen' ∧ T = T' ∧ packed = packed') ∧
  (∀ (d d' : Domain) (alg alg' : Algo) (origLen origLen' : Nat) (items items' : List Item),
    origLen < 2 ^ 32 → origLen' < 2 ^ 32 →
    (∀ i ∈ items, itemFits d i = true ∧ itemAllowed alg i = true) →
    (∀ i ∈ items', itemFits d' i = true ∧ itemAllowed alg' i = true) →
    (itemRecords d items).length < 2 ^ 32 → (itemRecords d' items').length < 2 ^ 32 →
    encRle d alg origLen items = encRle d' alg' origLen' items' →
    d = d' ∧ alg = alg' ∧ origLen = origLen' ∧ items = items')

/-- R109: the sizes that follow from the layouts, `K` the number of distinct symbols and `B` the number of code bits. -/
def Obligations.PayloadSizes : Prop :=
  (∀ (pick : Picker) (d : Domain) (S : List Symbol) (T : Node),
    pick.valid → S ≠ [] → build pick (freq S) = some T →
    let K := S.dedup.length
    let B := (codeBits (codes T) S).length
    (2 ≤ K → (serialize d T).length = K * (5 + symb d) + (K - 1) * 5) ∧
    (K = 1 → (serialize d T).length = 5 + (5 + symb d)) ∧
    (pack (codeBits (codes T) S)).1.length = (B + 7) / 8 ∧
    (hufcPayload d T S).length = 14 + (serialize d T).length + (B + 7) / 8) ∧
  (∀ (d : Domain) (x : Symbol) (c : Nat) (q : List Symbol),
    (itemRecord d (.single x)).length = 1 + symb d ∧ (itemRecord d (.run x c)).length = 5 + symb d ∧
    (itemRecord d (.shortRun x c)).length = 2 + symb d ∧
    (itemRecord d (.sequence q)).length = 2 + q.length * symb d) ∧
  (∀ (d : Domain) (alg : Algo) (origLen : Nat) (items : List Item),
    (encRle d alg origLen items).length = 10 + (itemRecords d items).length) ∧
  (∀ (d : Domain) (S : List Symbol), (streamBytes d S).length = S.length * symb d)

/-! ## State and the command's life, `10_state.md` -/

/-- R43, R260, R261: a reset, whatever the block is doing, leaves every register of `REG` reading 0, every byte of
`IBUF` and `OBUF` unspecified and no command in flight. That the parameters and the accesses to come stay is the
model's choice (log 1, log 7). -/
def Obligations.ResetGivesTheResetTable : Prop :=
  ∀ (s : State) (late : Bool) (rest : List HostMove),
    s.port = { access := .reset, late := late } :: rest → ¬ CoreMovesNext s →
    ∃ t, step s = .next t ∧ (∀ off, regValue t off = 0#32) ∧
      t.status.busy = false ∧ t.status.done = false ∧ t.status.err = false ∧
      (∀ a, Memory.byteAt t.ibuf a = none) ∧ (∀ a, Memory.byteAt t.obuf a = none) ∧
      t.resetSeen = true ∧ t.cfg = s.cfg ∧ t.port = rest

/-- The state right after reset meets the invariant. -/
def Obligations.ResetMeetsInvariant : Prop := Inv State.reset

/-- R44: the accept step. -/
def Obligations.AcceptStepLatchesAndClears : Prop :=
  ∀ (s : State) (w : Word) (late : Bool) (rest : List HostMove),
    s.status.busy = false → s.resetSeen = true →
    s.port = { access := .regWrite 0x00 4 w, late := late } :: rest →
    ∃ t, step s = .next t ∧
      t.cmdr = w ∧ t.ilenr = s.ilen ∧
      t.status.busy = true ∧ t.status.done = false ∧ t.status.err = false ∧
      t.errcode = 0#8 ∧ t.olen = 0#32 ∧ t.odom = .byte ∧
      t.an.runCount = 0#32 ∧ t.an.totalRun = 0#32 ∧ t.an.longest = 0#32 ∧ t.an.inLen = 0#32 ∧
      t.an.recommend = false ∧
      (∀ a, Memory.byteAt t.obuf a = none) ∧
      t.ibuf = s.ibuf ∧ t.ilen = s.ilen ∧ t.cfg = s.cfg ∧ t.resetSeen = s.resetSeen ∧ t.rdata = s.rdata ∧
      t.port = rest

/-- R45: when the core moves, a step is the completion of the latched command; a word placed by `withFetchWord` is run
by the very next step (that placing is the model's own, log 4, log 17). -/
def Obligations.StepRunsTheLatchedCommand : Prop :=
  (∀ (s : State) (i : Instr), CoreMovesNext s → decode s.cfg.hasAnlz s.cmdr = .command i → step s = exec i s) ∧
  (∀ (s : State) (nbits w : Nat) (i : Instr),
    decodeTableWord nbits w = some i → i.wf s.cfg.hasAnlz = true →
    step (s.withFetchWord nbits w) = exec i (s.withFetchWord nbits w) ∧
    (s.withFetchWord nbits w).ilenr = s.ilen ∧ (s.withFetchWord nbits w).ibuf = s.ibuf)

/-- An idle block with no access to come stays as it is (R245; the model's choice, log 4). -/
def Obligations.IdleBlockStays : Prop :=
  ∀ s : State, s.status.busy = false → s.port = [] → step s = .next s

/-- The invariant of the block is kept by every step, from every state that meets it (R23, R24, R26, R28, R31, R42). -/
def Obligations.StepKeepsInvariant : Prop := ∀ s t : State, Inv s → step s = .next t → Inv t

/-- R30, R25, R31, R45: what no completion changes, for all six commands: `IBUF`, `ILEN`, `CMD`, the latched length,
the host's side; the `AN_*` registers unless the command is `ANLZ`; and no byte of `OBUF` at `OLEN` or above has a
value. -/
def Obligations.CompletionFrame : Prop :=
  ∀ (i : Instr) (s t : State), s.cfg.wf = true → exec i s = .next t →
    CoreFrame s t ∧ (∀ a, Memory.byteAt t.ibuf a = Memory.byteAt s.ibuf a) ∧
    ((∀ d, i ≠ .anlz d) → t.an = s.an) ∧
    (∀ a, t.olen.toNat ≤ a → Memory.byteAt t.obuf a = none) ∧
    (∀ a, a < t.olen.toNat → (Memory.byteAt t.obuf a).isSome = true)

/-- R46: every command terminates. When its input has been written it completes, with success or one of the six
errors. -/
def Obligations.EveryCommandCompletes : Prop :=
  ∀ (i : Instr) (s : State), InputWritten s →
    ∃ t, exec i s = .next t ∧ t.status.busy = false ∧ t.status.done = true ∧
      (t.status.err = true ↔ t.errcode ≠ 0#8) ∧ t.errcode.toNat ≤ 6

/-- R46: an accepted command does not stay in flight for ever: among the states a run passes within one step more than
there are accesses to come, one is not busy, unless the run stops at a refusal. That the accesses to come are a finite
list is the model's choice (log 3). -/
def Obligations.AcceptedCommandLeavesBusy : Prop :=
  ∀ s : State, s.status.busy = true →
    ∃ k, k ≤ s.port.length + 1 ∧
      ((∃ t, runSteps k s = .next t ∧ t.status.busy = false) ∨ ∃ r, runSteps k s = .refused r)

/-- R42, R163, R182 (f), R193 (f): the result of a command in flight depends on the word, `ILENR`, the input bytes, the
sizes of the buffers and `HAS_ANLZ` alone, and for `HUFC` on the tie-break. -/
def Obligations.ResultDependsOnInputAlone : Prop :=
  ∀ (i : Instr) (s t s' : State), Inv s → Inv t → s.status.busy = true → t.status.busy = true → SameInput s t →
    (∀ d, i = .hufc d → t.cfg.tieBreak = s.cfg.tieBreak) → exec i s = .next s' →
    ∃ t', exec i t = .next t' ∧ SameResult s' t'

/-! ## Memory and the host's accesses, `20_memory.md` -/

/-- R66: `MemWrite` then `MemRead` gives the value back, byte `k` is `floor(v / 256^k) mod 256`, and every byte outside
the field is as before. -/
def Obligations.MemWriteThenMemRead : Prop :=
  ∀ (m : Memory) (addr n v : Nat), Memory.wf m → v < 256 ^ n →
    Memory.readLE (Memory.writeLE m addr n v) addr n = some v ∧
    (∀ k, k < n → (Memory.byteAt (Memory.writeLE m addr n v) (addr + k)).map (fun b => b.toNat) =
      some (v / 256 ^ k % 256)) ∧
    (∀ a, a < addr ∨ addr + n ≤ a → Memory.byteAt (Memory.writeLE m addr n v) a = Memory.byteAt m a)

/-- R21 to R28: what each register reads as. -/
def Obligations.RegisterMapReads : Prop :=
  ∀ (s : State) (off v : Nat), s.resetSeen = true →
    (off, v) ∈ [(0x00, s.cmdr.toNat),
      (0x04, s.status.busy.toNat + 2 * s.status.done.toNat + 4 * s.status.err.toNat),
      (0x08, s.errcode.toNat), (0x0C, s.ilen.toNat), (0x10, s.olen.toNat),
      (0x14, if s.odom = .char then 1 else 0)] ∨
    (s.cfg.hasAnlz = true ∧ (off, v) ∈ [(0x20, s.an.runCount.toNat), (0x24, s.an.totalRun.toNat),
      (0x28, s.an.longest.toNat), (0x2C, s.an.inLen.toNat), (0x30, s.an.recommend.toNat)]) →
    hostAccess (.regRead off 4) s = .next { s with rdata := some v }

/-- R29, R21: a reserved offset reads 0 and ignores writes; a read-only register ignores writes; no access to `REG`
fails. -/
def Obligations.ReservedOffsetsReadZero : Prop :=
  ∀ (s : State) (off : Nat) (w : Word), s.resetSeen = true → off % 4 = 0 → off < 0x100 →
    (off = 0x18 ∨ off = 0x1C ∨ 0x34 ≤ off ∨ (0x20 ≤ off ∧ off ≤ 0x30 ∧ s.cfg.hasAnlz = false) →
      hostAccess (.regRead off 4) s = .next { s with rdata := some 0 } ∧
      hostAccess (.regWrite off 4 w) s = .next s) ∧
    (off ≠ 0x00 → off ≠ 0x0C → hostAccess (.regWrite off 4 w) s = .next s) ∧
    (∃ t, hostAccess (.regRead off 4) s = .next t) ∧ (∃ t, hostAccess (.regWrite off 4 w) s = .next t)

/-- R64, R69 (b), R72, R264: no read has a side effect, and a read of a buffer returns its bytes, little-endian; a read
of valued bytes within the buffer does answer, of `IBUF` also while a command is in flight, of `OBUF` with `BUSY = 0`.
That a read of several bytes is one move is the model's (log 25). -/
def Obligations.HostReadsChangeNothing : Prop :=
  (∀ (s t : State) (off width : Nat), hostAccess (.regRead off width) s = .next t → t = { s with rdata := t.rdata }) ∧
  (∀ (s t : State) (addr n : Nat), hostAccess (.ibufRead addr n) s = .next t →
    t = { s with rdata := t.rdata } ∧ ∃ bs, bs.length = n ∧ t.rdata = some (leNat bs) ∧
      ∀ k, k < n → Memory.byteAt s.ibuf (addr + k) = bs[k]?) ∧
  (∀ (s t : State) (addr n : Nat), hostAccess (.obufRead addr n) s = .next t →
    t = { s with rdata := t.rdata } ∧ ∃ bs, bs.length = n ∧ t.rdata = some (leNat bs) ∧
      ∀ k, k < n → Memory.byteAt s.obuf (addr + k) = bs[k]?) ∧
  (∀ (s : State) (addr : Nat) (bs : List Byte), s.resetSeen = true → addr + bs.length ≤ s.cfg.ibufSize →
    (∀ k, k < bs.length → Memory.byteAt s.ibuf (addr + k) = bs[k]?) →
    hostAccess (.ibufRead addr bs.length) s = .next { s with rdata := some (leNat bs) }) ∧
  (∀ (s : State) (addr : Nat) (bs : List Byte), s.resetSeen = true → s.status.busy = false →
    addr + bs.length ≤ s.cfg.obufSize →
    (∀ k, k < bs.length → Memory.byteAt s.obuf (addr + k) = bs[k]?) →
    hostAccess (.obufRead addr bs.length) s = .next { s with rdata := some (leNat bs) })

/-- R30, R25, R264: with `BUSY = 0` a host write of `IBUF` and of `ILEN` takes effect at once and changes nothing
else. R31, R60: a host write of `OBUF` is ignored, whatever `BUSY` is. That a write of several bytes is one move is the
model's (log 25). -/
def Obligations.IdleHostWritesTakeEffect : Prop :=
  (∀ (s : State) (addr : Nat) (bytes : List Byte),
    s.resetSeen = true → s.status.busy = false → addr + bytes.length ≤ s.cfg.ibufSize → Memory.wf s.ibuf →
    ∃ t, hostAccess (.ibufWrite addr bytes) s = .next t ∧ t = { s with ibuf := t.ibuf } ∧
      (∀ k, k < bytes.length → Memory.byteAt t.ibuf (addr + k) = bytes[k]?) ∧
      (∀ a, a < addr ∨ addr + bytes.length ≤ a → Memory.byteAt t.ibuf a = Memory.byteAt s.ibuf a)) ∧
  (∀ (s : State) (w : Word), s.resetSeen = true → s.status.busy = false →
    hostAccess (.regWrite 0x0C 4 w) s = .next { s with ilen := w }) ∧
  (∀ (s : State) (addr : Nat) (bytes : List Byte), s.resetSeen = true → addr + bytes.length ≤ s.cfg.obufSize →
    hostAccess (.obufWrite addr bytes) s = .next s)

/-- R72, R22, R25, R30, R31: while a command is in flight every host write that lands before its completion is dropped,
and so is a `FEEDBACK`, one move in this model (log 14), as is a write of several bytes (log 25). -/
def Obligations.BusyHostWritesAreDropped : Prop :=
  ∀ (s : State) (a : HostAccess) (rest : List HostMove),
    s.status.busy = true → s.resetSeen = true → s.port = { access := a, late := false } :: rest →
    ((∃ off w, off % 4 = 0 ∧ off < 0x100 ∧ a = .regWrite off 4 w) ∨
      (∃ addr bytes, addr + bytes.length ≤ s.cfg.ibufSize ∧ a = .ibufWrite addr bytes) ∨
      (∃ addr bytes, addr + bytes.length ≤ s.cfg.obufSize ∧ a = .obufWrite addr bytes) ∨ a = .feedback) →
    step s = .next { s with port := rest }

/-- R73, R72, R262: a host read of a byte without a value is refused, any byte of `OBUF` while a command is in flight
among them; a command is refused exactly when its input range holds such a byte and the checks on `ILEN`, which read
no byte, have passed (the place of the refusal among the checks is the model's, log 5). -/
def Obligations.UnspecifiedBytesAreRefused : Prop :=
  (∀ (s : State) (addr n k : Nat), s.resetSeen = true → addr + n ≤ s.cfg.ibufSize → k < n →
    Memory.byteAt s.ibuf (addr + k) = none → hostAccess (.ibufRead addr n) s = .refused .unspecifiedRead) ∧
  (∀ (s : State) (addr n k : Nat), s.resetSeen = true → addr + n ≤ s.cfg.obufSize → k < n →
    (s.status.busy = true ∨ Memory.byteAt s.obuf (addr + k) = none) →
    hostAccess (.obufRead addr n) s = .refused .unspecifiedRead) ∧
  (∀ (i : Instr) (s : State) (r : Refusal), exec i s = .refused r →
    r = .unspecifiedInput ∧ ∃ k, k < s.ilenr.toNat ∧ Memory.byteAt s.ibuf k = none) ∧
  (∀ (i : Instr) (s : State) (k : Nat), k < s.ilenr.toNat → Memory.byteAt s.ibuf k = none →
    s.ilenr.toNat ≤ s.cfg.ibufSize → i.wf s.cfg.hasAnlz = true →
    (∀ d, streamDomain i = some d → s.ilenr.toNat % symb d = 0) →
    (i = .hufd → 14 ≤ s.ilenr.toNat) → (i = .rled → 10 ≤ s.ilenr.toNat) →
    exec i s = .refused .unspecifiedInput)

/-- R63, R65, R260: the accesses only the platform could define are refused (the shapes refused are the model's reading,
log 8, log 9). -/
def Obligations.PlatformAccessesAreRefused : Prop :=
  (∀ (s : State) (off width : Nat) (w : Word), s.resetSeen = true → (width ≠ 4 ∨ off % 4 ≠ 0 ∨ 0x100 ≤ off) →
    hostAccess (.regRead off width) s = .refused .registerAccessShape ∧
    hostAccess (.regWrite off width w) s = .refused .registerAccessShape) ∧
  (∀ (s : State) (addr n : Nat) (bytes : List Byte), s.resetSeen = true →
    (s.cfg.ibufSize < addr + n → hostAccess (.ibufRead addr n) s = .refused .outsideBuffer) ∧
    (s.cfg.ibufSize < addr + bytes.length → hostAccess (.ibufWrite addr bytes) s = .refused .outsideBuffer) ∧
    (s.cfg.obufSize < addr + n → hostAccess (.obufRead addr n) s = .refused .outsideBuffer) ∧
    (s.cfg.obufSize < addr + bytes.length → hostAccess (.obufWrite addr bytes) s = .refused .outsideBuffer)) ∧
  (∀ (s : State) (a : HostAccess), s.resetSeen = false → a ≠ .reset →
    hostAccess a s = .refused .beforeFirstReset)

/-- R107: `FEEDBACK` copies `OBUF[0 .. OLEN-1]` to `IBUF` and writes `OLEN` to `ILEN`, and changes nothing else; one move
in this model (log 14). -/
def Obligations.FeedbackCopiesTheResult : Prop :=
  ∀ s : State, s.resetSeen = true → s.status.busy = false → s.olen.toNat ≤ s.cfg.ibufSize → Memory.wf s.ibuf →
    (∀ k, k < s.olen.toNat → (Memory.byteAt s.obuf k).isSome = true) →
    ∃ t, hostAccess .feedback s = .next t ∧ t = { s with ibuf := t.ibuf, ilen := s.olen } ∧
      (∀ k, k < s.olen.toNat → Memory.byteAt t.ibuf k = Memory.byteAt s.obuf k) ∧
      (∀ a, s.olen.toNat ≤ a → Memory.byteAt t.ibuf a = Memory.byteAt s.ibuf a)

/-- R22, R263 HZ1, program P7: a `CMD` write with no `WAIT` before it has two outcomes: it lands while the first command
is in flight and is dropped, or after its completion and is accepted. How a run says which is the model's (log 3). -/
def Obligations.CommandWithoutWaitHasTwoOutcomes : Prop :=
  ∀ (s : State) (w1 w2 : Word) (late : Bool) (rest : List HostMove),
    s.status.busy = false → s.resetSeen = true →
    (s.port = { access := .regWrite 0x00 4 w1, late := late } ::
        { access := .regWrite 0x00 4 w2, late := false } :: rest →
      ∃ t, runSteps 2 s = .next t ∧ t.cmdr = w1 ∧ t.status.busy = true ∧ t.port = rest) ∧
    (s.port = { access := .regWrite 0x00 4 w1, late := late } ::
        { access := .regWrite 0x00 4 w2, late := true } :: rest →
      (∀ k, k < s.ilen.toNat → (Memory.byteAt s.ibuf k).isSome = true) →
      ∃ t, runSteps 3 s = .next t ∧ t.cmdr = w2 ∧ t.status.busy = true ∧ t.port = rest)

/-- R107, R108, R265 (a): a contract run as its host program, `LOAD` ; command ; `WAIT`, on an idle block with no other
access to come: after its accesses and the one completion the block is idle again with the result `exec` gives the
command on the loaded input, and the contract returns it, or fails with its error code. How the polls of `WAIT` fall is
the model's (log 3, log 14). -/
def Obligations.ContractReturnsItsResult : Prop :=
  ∀ (s : State) (c : Contract) (polls : Nat),
    s.cfg.wf = true → s.resetSeen = true → s.status.busy = false → Memory.wf s.ibuf →
    c.input.length ≤ s.cfg.ibufSize → c.command.wf s.cfg.hasAnlz = true →
    s.port = (c.steps polls).flatMap (HostStep.accesses false) →
    ∃ u v t, u.cfg = s.cfg ∧ u.cmdr = encode c.command ∧ u.an = Analysis.zero ∧ InputIs u c.input ∧
      exec c.command u = .next v ∧
      runSteps (c.input.length + polls + 4) s = .next t ∧ SameResult v t ∧ t.port = [] ∧
      t.status.busy = false ∧
      ((t.status.err = true ∧ contractResult t = some (.error v.errcode)) ∨
        (t.status.err = false ∧ ∃ out, out.length = v.olen.toNat ∧
          (∀ k, k < out.length → Memory.byteAt v.obuf k = out[k]?) ∧
          contractResult t = some (.ok (out, v.odom))))

/-! ## Huffman units, `40_huffman_units.md` -/

/-- R130: the frequency table counts occurrences, and its counts sum to `n`. That the table is a list of the symbols with
a non-zero count, each once, is the model's form of R35's `FREQ` (log 10); it is in the ascending order R131 creates the
leaves in. -/
def Obligations.FrequencyTableCounts : Prop :=
  ∀ S : List Symbol,
    (∀ x, freqAt (freq S) x = S.count x) ∧ (freq S).Pairwise (fun a b => a.1 < b.1) ∧
    (∀ e ∈ freq S, 1 ≤ e.2) ∧ ((freq S).map (fun e => e.2)).sum = S.length

/-- R132: for every tie-break extract-min yields a queued node of least frequency and removes it; under `MINSEQ` the one
with the smallest sequence number. R133: a merge takes the two least queued nodes, the first as left child, so the left
frequency is at most the right. R134, R135, R136 (a) to (d): the built tree's frequencies are sums, the root's is `n`, its
leaves are the frequency table, and it has a wrapper only for one distinct symbol. R136 (e): no prefix code for `S` spells
it in fewer bits (Huffman's theorem, which the spec marks as from general knowledge, G1). -/
def Obligations.BuiltTreeInvariants : Prop :=
  (∀ (pick : Picker) (nodes : List Node) (pq : List Nat), pick.valid → pq ≠ [] →
    ∃ i ∈ pq, extractMin pick nodes pq = (i, pq.erase i) ∧ ∀ k ∈ pq, (nodeAt nodes i).freq ≤ (nodeAt nodes k).freq) ∧
  (∀ (nodes : List Node) (pq : List Nat) (k : Nat), k ∈ pq →
    (∀ j ∈ pq, (nodeAt nodes k).freq ≤ (nodeAt nodes j).freq) → (extractMin (pickerOf .minSeq) nodes pq).1 ≤ k) ∧
  (∀ (pick : Picker) (nodes : List Node) (pq : List Nat), pick.valid → 2 ≤ pq.length →
    ∃ i ∈ pq, ∃ j ∈ pq.erase i,
      (nodeAt nodes i).freq ≤ (nodeAt nodes j).freq ∧
      (∀ k ∈ (pq.erase i).erase j, (nodeAt nodes j).freq ≤ (nodeAt nodes k).freq) ∧
      mergeStep pick (nodes, pq) =
        (nodes ++ [.internal ((nodeAt nodes i).freq + (nodeAt nodes j).freq) (nodeAt nodes i) (nodeAt nodes j)],
          (pq.erase i).erase j ++ [nodes.length])) ∧
  (∀ (pick : Picker) (S : List Symbol), pick.valid → S ≠ [] →
    ∃ T, build pick (freq S) = some T ∧ sumsHold T ∧ T.freq = S.length ∧ (leavesOf T).Perm (freq S) ∧
      ((freq S).length = 1 → ∃ x, T = .wrap S.length (.leaf x S.length)) ∧
      (2 ≤ (freq S).length → binary T) ∧
      ∀ c : Symbol → Bits, prefixCode S c → (codeBits (codes T) S).length ≤ (S.flatMap c).length)

/-- R139: for every tie-break, the code table of an input is prefix-free, and every symbol of it has exactly one
code. -/
def Obligations.CodeTableIsPrefixFree : Prop :=
  ∀ (pick : Picker) (S : List Symbol) (T : Node), pick.valid → S ≠ [] → build pick (freq S) = some T →
    (∀ x ∈ S, ((codes T).filter (fun e => e.1 == x)).length = 1) ∧
    (∀ e ∈ codes T, e.1 ∈ S ∧ e.2 = codeOf (codes T) e.1) ∧
    (∀ x ∈ S, ∀ y ∈ S, x ≠ y → ¬ codeOf (codes T) x <+: codeOf (codes T) y)

/-- R140: code lengths and the total number of code bits. -/
def Obligations.CodeLengthBounds : Prop :=
  ∀ (pick : Picker) (S : List Symbol) (T : Node), pick.valid → S ≠ [] → build pick (freq S) = some T →
    let most := max 1 ((freq S).length - 1)
    (∀ x ∈ S, 1 ≤ (codeOf (codes T) x).length ∧ (codeOf (codes T) x).length ≤ most) ∧
    S.length ≤ (codeBits (codes T) S).length ∧ (codeBits (codes T) S).length ≤ S.length * most

/-- R141, R142, R62, R146: what `Pack` produces and that `Unpack` inverts it. Bit `k` lies in byte `floor(k / 8)` at bit
position `7 - (k mod 8)`, and the pad bits are zero. -/
def Obligations.PackPlacesBitsAndUnpackInverts : Prop :=
  ∀ bits : Bits,
    (pack bits).1.length = (bits.length + 7) / 8 ∧
    (pack bits).2 = (8 - bits.length % 8) % 8 ∧
    (∀ k, k < bits.length → ((pack bits).1[k / 8]?).map (fun b => b.getLsbD (7 - k % 8)) = bits[k]?) ∧
    (∀ b ∈ (pack bits).1.getLast?, ∀ j, j < (pack bits).2 → b.getLsbD j = false) ∧
    unpack (pack bits).1 (pack bits).2 = bits

/-- R141, R39: the packer's data path, `BITACC` and `BITCNT`, computes `Pack`. -/
def Obligations.PackerDataPathComputesPack : Prop := ∀ bits : Bits, packerRun bits = pack bits

/-- R145: deserializing a serialized tree gives the tree, every field included. -/
def Obligations.DeserializeInvertsSerialize : Prop :=
  ∀ (d : Domain) (T : Node), nodeFits d T = true → deserialize d (serialize d T) = some T

/-- R147: the walker decodes any sequence of root-to-leaf paths of a tree whose root is no leaf, and an unfinished path
after them emits nothing. -/
def Obligations.WalkerDecodesPaths : Prop :=
  ∀ (T : Node) (es : List (Symbol × Bits)) (e : Symbol × Bits) (q : Bits),
    rootHasChild T → (∀ x ∈ es, x ∈ codes T) → e ∈ codes T → q <+: e.2 → q ≠ e.2 →
    walkBits T (es.flatMap (fun x => x.2) ++ q) = some (es.map (fun x => x.1))

/-- R147 (a): a `1` bit at a wrapper, wherever it stands in the tree and whatever was decoded before, asks for a child
that does not exist. On the tree of one symbol every other bit sequence decodes. -/
def Obligations.WrapperHasNoRightChild : Prop :=
  (∀ (T c : Node) (f : Nat) (es : List (Symbol × Bits)) (path rest : Bits),
    (∀ e ∈ es, e ∈ codes T) → nodeOn T path = some (.wrap f c) →
    walkBits T (es.flatMap (fun e => e.2) ++ (path ++ true :: rest)) = none) ∧
  (∀ (x : Symbol) (f g : Nat) (bits : Bits),
    walkBits (.wrap f (.leaf x g)) bits =
      if true ∈ bits then none else some (List.replicate bits.length x))

/-! ## Huffman commands, `41_huffman_commands.md` -/

/-- R160: `HUFC` on a non-empty symbol stream: the payload of R97 made of the built tree and the packed codes, or
`ResourceError` when it does not fit `OBUF`. -/
def Obligations.HufcWritesThePayload : Prop :=
  ∀ (d : Domain) (s : State) (S : List Symbol),
    s.cfg.wf = true → S ≠ [] → (∀ x ∈ S, x < symbolBound d) → InputIs s (streamBytes d S) →
    ∃ T, build (pickerOf s.cfg.tieBreak) (freq S) = some T ∧
      let packed := pack (S.flatMap (codeOf (codes T)))
      let tree := serialize d T
      let out := [domainCode d, BitVec.ofNat 8 packed.2] ++ leBytes 4 S.length ++ leBytes 4 tree.length ++
        leBytes 4 packed.1.length ++ tree ++ packed.1
      (out.length ≤ s.cfg.obufSize → SucceedsWith (.hufc d) s d out) ∧
      (s.cfg.obufSize < out.length → FailsWith (.hufc d) s 6)

/-- R160 corner cases (a), (b), R135: one distinct symbol, `n` copies: wrapper and leaf of frequency `n`, `n` zero
bits. -/
def Obligations.HufcOfOneRepeatedSymbol : Prop :=
  ∀ (d : Domain) (s : State) (x : Symbol) (n : Nat),
    s.cfg.wf = true → 1 ≤ n → x < symbolBound d → InputIs s (streamBytes d (List.replicate n x)) →
    24 + symb d + (n + 7) / 8 ≤ s.cfg.obufSize →
    SucceedsWith (.hufc d) s d
      ([domainCode d, BitVec.ofNat 8 ((8 - n % 8) % 8)] ++ leBytes 4 n ++ leBytes 4 (10 + symb d) ++
        leBytes 4 ((n + 7) / 8) ++ (0x02#8 :: leBytes 4 n) ++ (0x00#8 :: leBytes (symb d) x) ++ leBytes 4 n ++
        List.replicate ((n + 7) / 8) 0x00#8)

/-- R160 corner case (f), R230: status, error, `OLEN`, `ODOM` and the 14 header bytes of `HUFC`'s payload (so `PAD`,
`TREELEN`, `PACKLEN`) are the same for every `TIEBREAK`. R160 (f) rests on Huffman's theorem, R136 (e), which the spec
marks as from general knowledge (G1). -/
def Obligations.HufcSizesIndependentOfTieBreak : Prop :=
  ∀ (d : Domain) (s t t' : State) (k : TieBreak),
    exec (.hufc d) s = .next t → exec (.hufc d) { s with cfg := { s.cfg with tieBreak := k } } = .next t' →
    t'.status = t.status ∧ t'.errcode = t.errcode ∧ t'.olen = t.olen ∧ t'.odom = t.odom ∧ t'.an = t.an ∧
    ∀ a, a < 14 → Memory.byteAt t'.obuf a = Memory.byteAt t.obuf a

/-- R161: `HUFD` on a payload with a well-formed header and tree: output capacity, walk and length check decide, in that
order. -/
def Obligations.HufdDecodesAPayload : Prop :=
  ∀ (s : State) (d : Domain) (pad origLen : Nat) (T : Node) (packed : List Byte),
    s.cfg.wf = true → pad ≤ 7 → (packed ≠ [] ∨ pad = 0) → origLen < 2 ^ 32 → nodeFits d T = true →
    InputIs s (encHuff d pad origLen T packed) →
    (s.cfg.obufSize < origLen * symb d → FailsWith .hufd s 6) ∧
    (origLen * symb d ≤ s.cfg.obufSize →
      (walkBits T (unpack packed pad) = none → FailsWith .hufd s 2) ∧
      (∀ syms, walkBits T (unpack packed pad) = some syms →
        (syms.length ≠ origLen → FailsWith .hufd s 3) ∧
        (syms.length = origLen → SucceedsWith .hufd s d (streamBytes d syms))))

/-- R148: when the root of the payload's tree is a leaf, every meaningful bit decodes to its symbol, whatever the
bits. -/
def Obligations.HufdOfALeafRoot : Prop :=
  ∀ (s : State) (d : Domain) (pad : Nat) (x : Symbol) (f : Nat) (packed : List Byte),
    s.cfg.wf = true → pad ≤ 7 → (packed ≠ [] ∨ pad = 0) → x < symbolBound d → f < 2 ^ 32 →
    InputIs s (encHuff d pad (8 * packed.length - pad) (.leaf x f) packed) →
    (8 * packed.length - pad) * symb d ≤ s.cfg.obufSize →
    SucceedsWith .hufd s d (streamBytes d (List.replicate (8 * packed.length - pad) x))

/-- R162: what `HUFC` compressed, `HUFD` restores, for every domain and tie-break, or it ends with `ResourceError` when a
buffer is too small: at the level of the two commands, and for every choice function of R132. -/
def Obligations.HuffmanRoundTrip : Prop :=
  (∀ (d : Domain) (s t u : State),
    s.cfg.wf = true → exec (.hufc d) s = .next t → t.errcode = 0#8 →
    u.ilenr = t.olen → (∀ k, k < t.olen.toNat → Memory.byteAt u.ibuf k = Memory.byteAt t.obuf k) →
    (u.cfg.ibufSize < t.olen.toNat → FailsWith .hufd u 6) ∧
    (t.olen.toNat ≤ u.cfg.ibufSize → u.cfg.obufSize < s.ilenr.toNat → FailsWith .hufd u 6) ∧
    (t.olen.toNat ≤ u.cfg.ibufSize → s.ilenr.toNat ≤ u.cfg.obufSize →
      ∃ v, exec .hufd u = .next v ∧ v.status.err = false ∧ v.errcode = 0#8 ∧ v.odom = d ∧
        v.olen = s.ilenr ∧ ∀ k, k < s.ilenr.toNat → Memory.byteAt v.obuf k = Memory.byteAt s.ibuf k)) ∧
  (∀ (pick : Picker) (d : Domain) (S : List Symbol) (T : Node) (p : Params),
    pick.valid → S ≠ [] → S.length < 2 ^ 32 → (∀ x ∈ S, x < symbolBound d) → build pick (freq S) = some T →
    (hufcPayload d T S).length < 2 ^ 32 → S.length * symb d ≤ p.obufSize →
    hufdBody p (hufcPayload d T S) = .ok (streamBytes d S) d none)

/-! ## Run-length coding, `42_rle_basic.md`, `43_rle_adaptive.md`, `44_rle_decode.md` -/

/-- R180: the scan finds the maximal runs: they spell the input, neighbours differ, and no other list of runs does so.
The run that starts at an index has the length `RunLen` gives. -/
def Obligations.RunScannerFindsMaximalRuns : Prop :=
  (∀ S : List Symbol, spell (maximalRuns S) = S ∧ isRunList (maximalRuns S)) ∧
  (∀ rs, isRunList rs → maximalRuns (spell rs) = rs) ∧
  (∀ (S : List Symbol) (i : Nat) (x : Symbol), S[i]? = some x →
    1 ≤ runLenAt S i ∧ (∀ k, k < runLenAt S i → S[i + k]? = some x) ∧ S[i + runLenAt S i]? ≠ some x)

/-- R181, R182: `RLEC` writes the payload of items that spell the input, `Run`s of count above 1 and `Single`s, no run
going on from one item into the next; or `ResourceError` when it does not fit. -/
def Obligations.RlecWritesMaximalRuns : Prop :=
  ∀ (d : Domain) (s : State) (S : List Symbol),
    s.cfg.wf = true → S ≠ [] → (∀ x ∈ S, x < symbolBound d) → InputIs s (streamBytes d S) →
    ∃ items : List Item, expandAll items = S ∧ (∀ i ∈ items, basicShape i) ∧ items.IsChain meetApart ∧
      items.length = (maximalRuns S).length ∧ 1 ≤ items.length ∧ items.length ≤ S.length ∧
      (10 + (itemRecords d items).length ≤ s.cfg.obufSize →
        SucceedsWith (.rlec d) s d (encRle d .basic S.length items)) ∧
      (s.cfg.obufSize < 10 + (itemRecords d items).length → FailsWith (.rlec d) s 6)

/-- R190 to R193: `ARLEC` writes the payload of items that spell the input, with the counts and lengths of the
classifier, no run going on from one item into the next, and two `Sequence`s in a row only after a full one; or
`ResourceError` when it does not fit. -/
def Obligations.ArlecWritesClassifiedRuns : Prop :=
  ∀ (d : Domain) (s : State) (S : List Symbol),
    s.cfg.wf = true → S ≠ [] → (∀ x ∈ S, x < symbolBound d) → InputIs s (streamBytes d S) →
    ∃ items : List Item, expandAll items = S ∧ (∀ i ∈ items, adaptiveShape i) ∧ items.IsChain meetApart ∧
      items.IsChain sequenceFull ∧
      (10 + (itemRecords d items).length ≤ s.cfg.obufSize →
        SucceedsWith (.arlec d) s d (encRle d .adaptive S.length items)) ∧
      (s.cfg.obufSize < 10 + (itemRecords d items).length → FailsWith (.arlec d) s 6)

/-- R193 (e), R191: 255 symbols without equal neighbours and a 256th split into two `Sequence` items, the first of
length 255. -/
def Obligations.LongSequenceSplitsAt255 : Prop :=
  ∀ S : List Symbol, S.length = 256 → neighboursDiffer S →
    adaptiveItems S = [.sequence (S.take 255), .sequence (S.drop 255)]

/-- R201: item expansion and its length. -/
def Obligations.ItemExpansion : Prop :=
  (∀ x, expand (.single x) = [x]) ∧ (∀ x c, expand (.run x c) = List.replicate c x) ∧
  (∀ x c, expand (.shortRun x c) = List.replicate c x) ∧ (∀ q, expand (.sequence q) = q) ∧
  (∀ items items', expandAll (items ++ items') = expandAll items ++ expandAll items') ∧
  (∀ i, expandAll [i] = expand i) ∧ expandAll [] = [] ∧
  (∀ items : List Item, (expandAll items).length =
    (items.map (fun i => match i with
      | .single _ => 1
      | .run _ c => c
      | .shortRun _ c => c
      | .sequence q => q.length)).sum)

/-- R200: `RLED` on a payload of items its algorithm recognises expands them in order when their count is `ORIGLEN`. -/
def Obligations.RledExpandsItems : Prop :=
  ∀ (s : State) (d : Domain) (alg : Algo) (origLen : Nat) (items : List Item),
    s.cfg.wf = true → origLen < 2 ^ 32 → (∀ i ∈ items, itemFits d i = true ∧ itemAllowed alg i = true) →
    InputIs s (encRle d alg origLen items) →
    (s.cfg.obufSize < origLen * symb d → FailsWith .rled s 6) ∧
    (origLen * symb d ≤ s.cfg.obufSize →
      ((expandAll items).length ≠ origLen → FailsWith .rled s 3) ∧
      ((expandAll items).length = origLen → SucceedsWith .rled s d (streamBytes d (expandAll items))))

/-- R103, R235, R202, R104: the first item whose tag the payload's algorithm does not recognise ends `RLED` with
`UnknownItemTypeError`, whatever follows the tag and whatever `ORIGLEN` says. -/
def Obligations.RledUnknownTag : Prop :=
  ∀ (s : State) (d : Domain) (alg : Algo) (origLen : Nat) (items : List Item) (tag : Byte) (rest : List Byte),
    origLen < 2 ^ 32 → origLen * symb d ≤ s.cfg.obufSize →
    (∀ i ∈ items, itemFits d i = true ∧ itemAllowed alg i = true) →
    (alg = .basic → 2 ≤ tag.toNat) → (alg = .adaptive → tag.toNat = 0 ∨ 4 ≤ tag.toNat) →
    InputIs s ([domainCode d, algoCode alg] ++ leBytes 4 origLen ++
      leBytes 4 ((itemRecords d items).length + 1 + rest.length) ++ itemRecords d items ++ tag :: rest) →
    FailsWith .rled s 4

/-- R104, R233: a record with a recognised tag that passes the end of the payload ends `RLED` with
`MalformedPayloadError`. -/
def Obligations.RledTruncatedRecord : Prop :=
  ∀ (s : State) (d : Domain) (alg : Algo) (origLen : Nat) (items : List Item) (tag : Byte) (rest : List Byte),
    origLen < 2 ^ 32 → origLen * symb d ≤ s.cfg.obufSize →
    (∀ i ∈ items, itemFits d i = true ∧ itemAllowed alg i = true) →
    ((alg = .basic ∧ tag.toNat = 0 ∧ rest.length < symb d) ∨
      (tag.toNat = 1 ∧ rest.length < symb d + 4) ∨
      (alg = .adaptive ∧ tag.toNat = 2 ∧ rest.length < symb d + 1) ∨
      (alg = .adaptive ∧ tag.toNat = 3 ∧ ∀ n ∈ rest.head?, rest.length < 1 + n.toNat * symb d)) →
    InputIs s ([domainCode d, algoCode alg] ++ leBytes 4 origLen ++
      leBytes 4 ((itemRecords d items).length + 1 + rest.length) ++ itemRecords d items ++ tag :: rest) →
    FailsWith .rled s 2

/-- R203: what `RLEC` or `ARLEC` compressed, `RLED` restores, for every domain, or it ends with `ResourceError` when a
buffer is too small. -/
def Obligations.RleRoundTrip : Prop :=
  ∀ (i : Instr) (d : Domain) (s t u : State), i = .rlec d ∨ i = .arlec d →
    s.cfg.wf = true → exec i s = .next t → t.errcode = 0#8 →
    u.ilenr = t.olen → (∀ k, k < t.olen.toNat → Memory.byteAt u.ibuf k = Memory.byteAt t.obuf k) →
    (u.cfg.ibufSize < t.olen.toNat → FailsWith .rled u 6) ∧
    (t.olen.toNat ≤ u.cfg.ibufSize → u.cfg.obufSize < s.ilenr.toNat → FailsWith .rled u 6) ∧
    (t.olen.toNat ≤ u.cfg.ibufSize → s.ilenr.toNat ≤ u.cfg.obufSize →
      ∃ v, exec .rled u = .next v ∧ v.status.err = false ∧ v.errcode = 0#8 ∧ v.odom = d ∧
        v.olen = s.ilenr ∧ ∀ k, k < s.ilenr.toNat → Memory.byteAt v.obuf k = Memory.byteAt s.ibuf k)

/-! ## Analyzer, `45_analyze.md` -/

/-- R215: `ANLZ` reports the runs of length above 1: how many, their total length, the longest, the input length, and
the recommendation. -/
def Obligations.AnlzReportsRuns : Prop :=
  ∀ (d : Domain) (s : State) (rs : List (Symbol × Nat)),
    s.cfg.hasAnlz = true → isRunList rs → rs ≠ [] → (∀ r ∈ rs, r.1 < symbolBound d) →
    InputIs s (streamBytes d (spell rs)) →
    let cs := (rs.map (fun r => r.2)).filter (fun c => decide (1 < c))
    ∃ t, exec (.anlz d) s = .next t ∧ Success s t d [] ∧
      t.an.runCount.toNat = cs.length ∧ t.an.totalRun.toNat = cs.sum ∧
      (∀ c ∈ cs, c ≤ t.an.longest.toNat) ∧ (t.an.longest.toNat ∈ cs ∨ (cs = [] ∧ t.an.longest.toNat = 0)) ∧
      t.an.inLen.toNat = (spell rs).length ∧
      (t.an.recommend = true ↔ (10 * cs.length > (spell rs).length ∨ ∃ c ∈ cs, 4 < c))

/-- R216: after a successful `ANLZ`, `compressionPotential` is in 0 to 1, and the average run length, when there is a
run, is at least 2 and at most the longest. -/
def Obligations.AnalyzerRatiosAreBounded : Prop :=
  ∀ (d : Domain) (s t : State), exec (.anlz d) s = .next t → t.errcode = 0#8 →
    1 ≤ t.an.inLen.toNat ∧ 0 ≤ compressionPotential t.an ∧ compressionPotential t.an ≤ 1 ∧
    (0 < t.an.runCount.toNat →
      2 ≤ averageRunLength t.an ∧ averageRunLength t.an ≤ (t.an.longest.toNat : Rat)) ∧
    (t.an.runCount.toNat = 0 → averageRunLength t.an = 0 ∧ compressionPotential t.an = 0)

/-- R93, R236: without the analyzer `ANLZ` is an illegal command (that the command itself says so too, log 12). -/
def Obligations.AnlzAbsentIsIllegal : Prop :=
  ∀ (d : Domain) (s : State), s.cfg.hasAnlz = false → FailsWith (.anlz d) s 5

/-! ## Errors, `60_exceptions.md` -/

/-- R238 steps 2 to 4, R232, R236 (b), R237 (a): the checks on `ILEN` of the commands over a symbol stream, in order.
That they come before the refusal R73 asks for where an input byte is unwritten is the model's choice (log 5). -/
def Obligations.StreamCommandLengthErrors : Prop :=
  ∀ (i : Instr) (d : Domain) (s : State), streamDomain i = some d → i.wf s.cfg.hasAnlz = true →
    (s.ilenr.toNat % symb d ≠ 0 → FailsWith i s 5) ∧
    (s.ilenr.toNat % symb d = 0 → s.cfg.ibufSize < s.ilenr.toNat → FailsWith i s 6) ∧
    (s.ilenr.toNat = 0 → FailsWith i s 1)

/-- R98, R101, R233, R237 (a), R238 steps 3 and 5: the length and header checks of the decoders, in order. That the
checks on `ILEN` alone come before the refusal R73 asks for where an input byte is unwritten is the model's choice
(log 5). -/
def Obligations.DecoderHeaderErrors : Prop :=
  (∀ s : State, s.cfg.ibufSize < s.ilenr.toNat → FailsWith .hufd s 6 ∧ FailsWith .rled s 6) ∧
  (∀ s : State, s.ilenr.toNat ≤ s.cfg.ibufSize →
    (s.ilenr.toNat < 14 → FailsWith .hufd s 2) ∧ (s.ilenr.toNat < 10 → FailsWith .rled s 2)) ∧
  (∀ (s : State) (bs : List Byte), InputIs s bs → 14 ≤ bs.length →
    (1 < field bs 0 1 ∨ 7 < field bs 1 1 ∨ 14 + field bs 6 4 + field bs 10 4 ≠ bs.length ∨
      (field bs 10 4 = 0 ∧ field bs 1 1 ≠ 0)) → FailsWith .hufd s 2) ∧
  (∀ (s : State) (bs : List Byte), InputIs s bs → 10 ≤ bs.length →
    (1 < field bs 0 1 ∨ 1 < field bs 1 1 ∨ 10 + field bs 6 4 ≠ bs.length) → FailsWith .rled s 2)

/-- R144, R233: a tree region that is not one complete tree ends `HUFD` with `MalformedPayloadError`, before the output
capacity is looked at. -/
def Obligations.HufdMalformedTree : Prop :=
  ∀ (s : State) (d : Domain) (pad origLen : Nat) (region packed : List Byte),
    pad ≤ 7 → (packed ≠ [] ∨ pad = 0) → origLen < 2 ^ 32 →
    (∀ T, nodeFits d T = true → serialize d T ≠ region) →
    InputIs s ([domainCode d, BitVec.ofNat 8 pad] ++ leBytes 4 origLen ++ leBytes 4 region.length ++
      leBytes 4 packed.length ++ region ++ packed) →
    FailsWith .hufd s 2

/-- R239, R230, R231: a command that ends with an error publishes nothing but its code, 1 to 6. -/
def Obligations.FailedCommandPublishesNothing : Prop :=
  ∀ (i : Instr) (s t : State), exec i s = .next t → t.errcode ≠ 0#8 →
    Failure s t t.errcode.toNat ∧ 1 ≤ t.errcode.toNat ∧ t.errcode.toNat ≤ 6

/-- R240, R69 (b): once a command has completed, its result or error stays until the next accept step or reset: no other
host access changes it. -/
def Obligations.ResultStaysUntilAcceptOrReset : Prop :=
  ∀ (s t : State) (a : HostAccess), s.status.busy = false → a ≠ .reset →
    (∀ width w, a ≠ .regWrite 0x00 width w) → hostAccess a s = .next t →
    t.cmdr = s.cmdr ∧ t.status = s.status ∧ t.errcode = s.errcode ∧ t.olen = s.olen ∧ t.odom = s.odom ∧
    t.an = s.an ∧ t.obuf = s.obuf

/-- R5, R17: the parameters of the block are not state of the spec; the model holds them in `cfg`, and no step changes
them (log 1). -/
def Obligations.ParametersNeverChange : Prop := ∀ s t : State, step s = .next t → t.cfg = s.cfg
end

