-- ==== Sys2Proof/Laws/HuffmanCost.lean ====
section
/-!
SUPPORT. The arithmetic behind Huffman's theorem (`40_huffman_units.md` R136 (e)), over bags of weights only: the cost of
merging the two least weights until one is left does not depend on how ties fall, and is at most the weighted length of
any list of code lengths that satisfies Kraft's inequality.
-/

namespace Sys2Proof.Laws

/-- `Merges W c`: merging the two least weights of `W` into their sum, until one is left, costs `c`, each merge costing
its sum (R133, R134). -/
inductive Merges : Multiset Nat → Nat → Prop where
  | one (w : Nat) : Merges {w} 0
  | merge (a b c : Nat) (s : Multiset Nat) : a ≤ b → (∀ x ∈ s, b ≤ x) → Merges ((a + b) ::ₘ s) c →
      Merges (a ::ₘ b ::ₘ s) (c + (a + b))

/-- The least element of a bag, and what is left without it, are determined. -/
theorem least_unique {a a' : Nat} {s s' : Multiset Nat} (h : a ::ₘ s = a' ::ₘ s') (ha : ∀ x ∈ s, a ≤ x)
    (ha' : ∀ x ∈ s', a' ≤ x) : a = a' ∧ s = s' := by
  have h1 : a ∈ a' ::ₘ s' := h ▸ Multiset.mem_cons_self a s
  have h2 : a' ∈ a ::ₘ s := h ▸ Multiset.mem_cons_self a' s'
  have e : a = a' := by
    rcases Multiset.mem_cons.mp h1 with h1 | h1
    · exact h1
    · rcases Multiset.mem_cons.mp h2 with h2 | h2
      · exact h2.symm
      · exact le_antisymm (ha _ h2) (ha' _ h1)
  subst e
  exact ⟨rfl, Multiset.cons_inj_right a |>.mp h⟩

/-- The cost does not depend on how ties fall. -/
theorem merges_unique {W : Multiset Nat} {c c' : Nat} (h : Merges W c) : Merges W c' → c = c' := by
  intro h'
  induction h generalizing c' with
  | one w =>
    generalize e : ({w} : Multiset Nat) = W at h'
    cases h' with
    | one => rfl
    | merge a b c s _ _ _ => have := congrArg Multiset.card e; simp at this
  | merge a b c s hab hs _ ih =>
    generalize e : a ::ₘ b ::ₘ s = W at h'
    cases h' with
    | one w => have := congrArg Multiset.card e; simp at this
    | merge a' b' d s' hab' hs' h' =>
      have hmin : ∀ x ∈ b ::ₘ s, a ≤ x := fun x hx => by
        rcases Multiset.mem_cons.mp hx with rfl | hx
        · exact hab
        · exact hab.trans (hs x hx)
      have hmin' : ∀ x ∈ b' ::ₘ s', a' ≤ x := fun x hx => by
        rcases Multiset.mem_cons.mp hx with rfl | hx
        · exact hab'
        · exact hab'.trans (hs' x hx)
      obtain ⟨rfl, e'⟩ := least_unique e hmin hmin'
      obtain ⟨rfl, rfl⟩ := least_unique e' hs hs'
      rw [ih h']

/-- The sum of `2 ^ (D - l)` over weights with code lengths `l`: Kraft's inequality says that it is at most `2 ^ D`. -/
def kraftSum (D : Nat) (wl : Multiset (Nat × Nat)) : Nat := (wl.map (fun e => 2 ^ (D - e.2))).sum

/-- The sum of weight times code length. -/
def weightedLength (wl : Multiset (Nat × Nat)) : Nat := (wl.map (fun e => e.1 * e.2)).sum

@[simp] theorem kraftSum_cons (D : Nat) (e : Nat × Nat) (wl) : kraftSum D (e ::ₘ wl) = 2 ^ (D - e.2) + kraftSum D wl := by
  simp [kraftSum]

@[simp] theorem weightedLength_cons (e : Nat × Nat) (wl) : weightedLength (e ::ₘ wl) = e.1 * e.2 + weightedLength wl := by
  simp [weightedLength]

theorem dvd_kraftSum (D m : Nat) (wl : Multiset (Nat × Nat)) (h : ∀ e ∈ wl, e.2 ≤ m) : 2 ^ (D - m) ∣ kraftSum D wl := by
  refine Multiset.dvd_sum fun x hx => ?_
  obtain ⟨e, he, rfl⟩ := Multiset.mem_map.mp hx
  exact pow_dvd_pow 2 (by have := h e he; omega)

/-- Giving the longer code to the smaller weight costs no more. -/
theorem swap_le (a w la l : Nat) (h1 : a ≤ w) (h2 : la ≤ l) : a * l + w * la ≤ a * la + w * l := by
  obtain ⟨p, rfl⟩ := Nat.exists_eq_add_of_le h1
  obtain ⟨q, rfl⟩ := Nat.exists_eq_add_of_le h2
  nlinarith [Nat.zero_le (p * q)]

/-- One code longer than all the others can lose a bit: the rest of Kraft's sum is a multiple of twice its term. -/
theorem kraft_shorten (D l : Nat) (hl : 0 < l) (hD : l ≤ D) (K : Nat) (hd : 2 ^ (D - (l - 1)) ∣ K) (h : 2 ^ (D - l) + K ≤ 2 ^ D) :
   2 ^ (D - (l - 1)) + K ≤ 2 ^ D := by
  obtain ⟨q, rfl⟩ := hd
  have e : 2 ^ (D - (l - 1)) = 2 * 2 ^ (D - l) := by
    rw [show D - (l - 1) = D - l + 1 by omega, pow_succ, mul_comm]
  obtain ⟨Q, hQ⟩ : 2 ^ (D - (l - 1)) ∣ 2 ^ D := pow_dvd_pow 2 (by omega)
  rw [hQ] at h ⊢
  have hx : 0 < 2 ^ (D - l) := by positivity
  have : q < Q := by
    by_contra hq
    have : 2 ^ (D - (l-1)) * Q ≤ 2 ^ (D - (l-1)) * q := Nat.mul_le_mul_left _ (by omega)
    omega
  calc _ = 2 ^ (D - (l - 1)) * (q + 1) := by ring
    _ ≤ _ := Nat.mul_le_mul_left _ this

/-- The induction step: if the bound holds with the two least weights merged, it holds of the bag. Lengths are exchanged
until the two least weights have the greatest, then shortened until these are equal, then merged. -/
theorem two_least (c a b : Nat) (s : Multiset Nat) (D : Nat) (hab : a ≤ b) (hs : ∀ x ∈ s, b ≤ x)
    (ih : ∀ wl : Multiset (Nat × Nat), wl.map Prod.fst = (a + b) ::ₘ s → (∀ e ∈ wl, e.2 ≤ D) →
      kraftSum D wl ≤ 2 ^ D → c ≤ weightedLength wl) :
    ∀ (n la lb : Nat) (rest : Multiset (Nat × Nat)), la + lb + 2 * (rest.map Prod.snd).sum ≤ n → rest.map Prod.fst = s →
      la ≤ D → lb ≤ D → (∀ e ∈ rest, e.2 ≤ D) →
      2 ^ (D - la) + (2 ^ (D - lb) + kraftSum D rest) ≤ 2 ^ D →
      c + (a + b) ≤ a * la + (b * lb + weightedLength rest) := by
  intro n
  induction n with
  | zero =>
    intro la lb rest hn _ _ _ _ hk
    obtain ⟨rfl, rfl⟩ : la = 0 ∧ lb = 0 := by omega
    have : 0 < 2 ^ D := by positivity
    rw [Nat.sub_zero] at hk; omega
  | succ n ihn =>
    intro la lb rest hn hr hla hlb hle hk
    by_cases hA : ∃ e ∈ rest, la < e.2
    · obtain ⟨⟨w, l⟩, he, hl⟩ := hA
      obtain ⟨rest, rfl⟩ := Multiset.exists_cons_of_mem he
      simp only at hl
      have hw : b ≤ w := hs w (by rw [← hr]; simp)
      have := ihn l lb ((w, la) ::ₘ rest) (by simp at hn ⊢; omega) (by simpa using hr) (hle _ he) hlb
        (by intro e h; rcases Multiset.mem_cons.mp h with rfl | h; exacts [hla, hle e (Multiset.mem_cons_of_mem h)])
        (by simp at hk ⊢; omega)
      have h2 := swap_le a w la l (hab.trans hw) hl.le
      simp at this ⊢; omega
    · by_cases hB : ∃ e ∈ rest, lb < e.2
      · obtain ⟨⟨w, l⟩, he, hl⟩ := hB
        obtain ⟨rest, rfl⟩ := Multiset.exists_cons_of_mem he
        simp only at hl
        have hw : b ≤ w := hs w (by rw [← hr]; simp)
        have := ihn la l ((w, lb) ::ₘ rest) (by simp at hn ⊢; omega) (by simpa using hr) hla (hle _ he)
          (by intro e h; rcases Multiset.mem_cons.mp h with rfl | h; exacts [hlb, hle e (Multiset.mem_cons_of_mem h)])
          (by simp at hk ⊢; omega)
        have h2 := swap_le b w lb l hw hl.le
        simp at this ⊢; omega
      · push Not at hA hB
        rcases lt_trichotomy la lb with h | rfl | h
        · have hd : 2 ^ (D - (lb - 1)) ∣ 2 ^ (D - la) + kraftSum D rest :=
            dvd_add (pow_dvd_pow 2 (by omega)) (dvd_kraftSum D (lb - 1) rest (fun e he => by have := hA e he; omega))
          have hk' := kraft_shorten D lb (by omega) hlb _ hd (by omega)
          have := ihn la (lb - 1) rest (by omega) hr hla (by omega) hle (by omega)
          have h2 : b * (lb - 1) ≤ b * lb := Nat.mul_le_mul_left b (by omega)
          omega
        · have h0 : 0 < la := by
            rcases Nat.eq_zero_or_pos la with rfl | h
            · have : 0 < 2 ^ D := by positivity
              rw [Nat.sub_zero] at hk; omega
            · exact h
          have e : 2 ^ (D - (la - 1)) = 2 * 2 ^ (D - la) := by
            rw [show D - (la - 1) = D - la + 1 by omega, pow_succ, mul_comm]
          have := ih ((a + b, la - 1) ::ₘ rest) (by simp [hr])
            (by intro x h; rcases Multiset.mem_cons.mp h with rfl | h; exacts [by show la - 1 ≤ D; omega, hle x h])
            (by simp; omega)
          obtain ⟨m, rfl⟩ : ∃ m, la = m + 1 := ⟨la - 1, by omega⟩
          simp at this ⊢
          nlinarith
        · have hd : 2 ^ (D - (la - 1)) ∣ 2 ^ (D - lb) + kraftSum D rest :=
            dvd_add (pow_dvd_pow 2 (by omega)) (dvd_kraftSum D (la - 1) rest (fun e he => by have := hB e he; omega))
          have hk' := kraft_shorten D la (by omega) hla _ hd (by omega)
          have := ihn (la - 1) lb rest (by omega) hr (by omega) hlb hle (by omega)
          have h2 : a * (la - 1) ≤ a * la := Nat.mul_le_mul_left a (by omega)
          omega

/-- No code lengths that satisfy Kraft's inequality beat the cost of the greedy merges. -/
theorem merges_le_weightedLength {W : Multiset Nat} {c : Nat} (h : Merges W c) (D : Nat) :
    ∀ wl : Multiset (Nat × Nat), wl.map Prod.fst = W → (∀ e ∈ wl, e.2 ≤ D) → kraftSum D wl ≤ 2 ^ D →
      c ≤ weightedLength wl := by
  induction h with
  | one w => intro wl _ _ _; exact Nat.zero_le _
  | merge a b c s hab hs _ ih =>
    intro wl hw hle hk
    obtain ⟨⟨a', la⟩, ha, wl', rfl, hwl⟩ : ∃ x : Nat × Nat, x.1 = a ∧ ∃ wl', wl = x ::ₘ wl' ∧ wl'.map Prod.fst = b ::ₘ s := by
      have : a ∈ wl.map Prod.fst := hw ▸ Multiset.mem_cons_self _ _
      obtain ⟨x, hx, rfl⟩ := Multiset.mem_map.mp this
      obtain ⟨wl', rfl⟩ := Multiset.exists_cons_of_mem hx
      exact ⟨x, rfl, wl', rfl, by simpa using hw⟩
    simp only at ha; subst ha
    obtain ⟨⟨b', lb⟩, hb, rest, rfl, hr⟩ : ∃ x : Nat × Nat, x.1 = b ∧ ∃ wl, wl' = x ::ₘ wl ∧ wl.map Prod.fst = s := by
      have : b ∈ wl'.map Prod.fst := hwl ▸ Multiset.mem_cons_self _ _
      obtain ⟨x, hx, rfl⟩ := Multiset.mem_map.mp this
      obtain ⟨wl, rfl⟩ := Multiset.exists_cons_of_mem hx
      exact ⟨x, rfl, wl, rfl, by simpa using hwl⟩
    simp only at hb; subst hb
    have := two_least c _ _ s D hab hs ih _ la lb rest (le_refl _) hr (hle _ (Multiset.mem_cons_self _ _))
      (hle _ (Multiset.mem_cons_of_mem (Multiset.mem_cons_self _ _)))
      (fun e he => hle e (by simp [he])) (by simpa using hk)
    simpa using this

end Sys2Proof.Laws
end

