-- ==== Sys2Proof/Laws/Memory.lean ====
section
/-!
SUPPORT. Buffers: reads after writes, canonical form, and ranges (`20_memory.md` R66, R73).
-/

namespace Sys2Proof.Laws

open Sys2Proof.Machine

@[simp] theorem byteAt_nil (a : Nat) : Memory.byteAt [] a = none := rfl

/-! ## One byte -/

theorem byteAt_setByte (m : Memory) (a b : Nat) (v : Byte) :
    Memory.wf m → Memory.byteAt (Memory.setByte m a v) b = if a = b then some v else Memory.byteAt m b := by
  induction m with
  | nil => intro _; simp [Memory.setByte, Memory.byteAt]
  | cons c rest ih =>
    obtain ⟨k, w⟩ := c
    intro h
    have hrest := ih (List.Pairwise.of_cons h)
    rcases lt_trichotomy a k with h1 | h1 | h1
    · simp only [Memory.setByte, if_pos h1, Memory.byteAt]
    · subst h1
      simp only [Memory.setByte, lt_irrefl, if_false, if_true, Memory.byteAt]
      by_cases h2 : a = b <;> simp [h2]
    · simp only [Memory.setByte, if_neg (show ¬ a < k by omega), if_neg (show ¬ a = k by omega), Memory.byteAt,
        hrest]
      by_cases h2 : a = b
      · rw [if_neg (show ¬ k = b by omega), if_pos h2, if_pos h2]
      · rw [if_neg h2, if_neg h2]

/-- Addresses a write can list: the address written and those listed before. -/
theorem mem_setByte (m : Memory) (a : Nat) (v : Byte) (c : Host.Cell) :
    c ∈ Memory.setByte m a v → c = (a, v) ∨ c ∈ m := by
  induction m with
  | nil => simp [Memory.setByte]
  | cons d rest ih =>
    obtain ⟨k, w⟩ := d
    simp only [Memory.setByte]
    split_ifs
    · simp
    · intro h; simp at h ⊢; tauto
    · intro h; simp at h ⊢; tauto

theorem setByte_wf (m : Memory) (a : Nat) (v : Byte) : Memory.wf m → Memory.wf (Memory.setByte m a v) := by
  induction m with
  | nil => intro _; simp [Memory.setByte, Memory.wf]
  | cons d rest ih =>
    obtain ⟨k, w⟩ := d
    intro h
    obtain ⟨hk, hrest⟩ := List.pairwise_cons.mp h
    simp only [Memory.setByte]
    split_ifs with h1 h2
    · refine List.pairwise_cons.mpr ⟨?_, h⟩
      intro c hc
      rcases List.mem_cons.mp hc with rfl | hc
      · exact h1
      · exact lt_trans h1 (hk c hc)
    · subst h2; exact List.pairwise_cons.mpr ⟨hk, hrest⟩
    · refine List.pairwise_cons.mpr ⟨?_, ih hrest⟩
      intro c hc
      rcases mem_setByte rest a v c hc with rfl | hc
      · show k < a; omega
      · exact hk c hc

theorem setByte_within {size : Nat} (m : Memory) (a : Nat) (v : Byte) (ha : a < size)
    (h : Memory.within size m) : Memory.within size (Memory.setByte m a v) := by
  intro c hc
  rcases mem_setByte m a v c hc with rfl | hc
  · exact ha
  · exact h c hc

/-! ## Several bytes -/

theorem setBytes_wf (m : Memory) (a : Nat) (vs : List Byte) :
    Memory.wf m → Memory.wf (Memory.setBytes m a vs) := by
  induction vs generalizing m a with
  | nil => exact id
  | cons v vs ih => exact fun h => ih _ _ (setByte_wf m a v h)

theorem setBytes_within {size : Nat} (m : Memory) (a : Nat) (vs : List Byte)
    (ha : a + vs.length ≤ size) (h : Memory.within size m) :
    Memory.within size (Memory.setBytes m a vs) := by
  induction vs generalizing m a with
  | nil => exact h
  | cons v vs ih =>
    simp only [List.length_cons] at ha
    exact ih _ _ (by omega) (setByte_within m a v (by omega) h)

/-- What a write of several bytes leaves at every address: the byte written there, else the byte from before. -/
theorem byteAt_setBytes (m : Memory) (a : Nat) (vs : List Byte) (b : Nat) (h : Memory.wf m) :
    Memory.byteAt (Memory.setBytes m a vs) b =
      if a ≤ b ∧ b < a + vs.length then vs[b - a]? else Memory.byteAt m b := by
  induction vs generalizing m a with
  | nil =>
    rw [if_neg (by simp)]
    rfl
  | cons v vs ih =>
    simp only [Memory.setBytes, ih _ _ (setByte_wf m a v h), byteAt_setByte m a b v h, List.length_cons]
    by_cases h1 : a = b
    · subst h1
      rw [if_neg (by omega), if_pos rfl, if_pos (by omega)]
      simp
    · by_cases h2 : a + 1 ≤ b ∧ b < a + 1 + vs.length
      · rw [if_pos h2, if_pos (by omega), show b - a = (b - (a + 1)) + 1 by omega, List.getElem?_cons_succ]
      · rw [if_neg h2, if_neg h1, if_neg (by omega)]

/-! ## A result buffer -/

theorem byteAt_ofBytes_below (a b : Nat) (vs : List Byte) (h : b < a) :
    Memory.byteAt (Memory.ofBytes a vs) b = none := by
  induction vs generalizing a with
  | nil => rfl
  | cons v vs ih =>
    simp only [Memory.ofBytes, Memory.byteAt]
    rw [if_neg (by omega)]
    exact ih (a + 1) (by omega)

theorem byteAt_ofBytes (a b : Nat) (vs : List Byte) :
    Memory.byteAt (Memory.ofBytes a vs) b = if a ≤ b then vs[b - a]? else none := by
  induction vs generalizing a with
  | nil => simp [Memory.ofBytes]
  | cons v vs ih =>
    simp only [Memory.ofBytes, Memory.byteAt, ih]
    by_cases h1 : a = b
    · subst h1; simp
    · rw [if_neg h1]
      by_cases h2 : a + 1 ≤ b
      · rw [if_pos h2, if_pos (by omega), show b - a = (b - (a + 1)) + 1 by omega, List.getElem?_cons_succ]
      · rw [if_neg h2, if_neg (by omega)]

/-- The result buffer of a successful command (R31), read at one address. -/
@[simp] theorem byteAt_ofBytes_zero (b : Nat) (vs : List Byte) :
    Memory.byteAt (Memory.ofBytes 0 vs) b = vs[b]? := by
  simp [byteAt_ofBytes]

theorem ofBytes_lower (a : Nat) (vs : List Byte) : ∀ c ∈ Memory.ofBytes a vs, a ≤ c.1 := by
  induction vs generalizing a with
  | nil => simp [Memory.ofBytes]
  | cons v vs ih =>
    intro c hc
    rcases List.mem_cons.mp hc with rfl | hc
    · exact le_refl a
    · exact le_trans (by omega) (ih (a + 1) c hc)

theorem ofBytes_within {size : Nat} (a : Nat) (vs : List Byte) (h : a + vs.length ≤ size) :
    Memory.within size (Memory.ofBytes a vs) := by
  induction vs generalizing a with
  | nil => simp [Memory.ofBytes, Memory.within]
  | cons v vs ih =>
    simp only [List.length_cons] at h
    exact List.forall_mem_cons.mpr ⟨show a < size by omega, ih (a + 1) (by omega)⟩

theorem ofBytes_wf (a : Nat) (vs : List Byte) : Memory.wf (Memory.ofBytes a vs) := by
  induction vs generalizing a with
  | nil => simp [Memory.ofBytes, Memory.wf]
  | cons v vs ih =>
    exact List.pairwise_cons.mpr
      ⟨fun c hc => Nat.lt_of_succ_le (ofBytes_lower (a + 1) vs c hc), ih (a + 1)⟩

/-- Reset's buffers are in canonical form. -/
theorem reset_buffers_wf : Memory.wf State.reset.ibuf ∧ Memory.wf State.reset.obuf := by
  constructor <;> exact List.Pairwise.nil

/-! ## Ranges -/

/-- Everything a range read can answer: exactly the bytes at its addresses. -/
theorem range_eq_some (m : Memory) (a n : Nat) (bs : List Byte) :
    Memory.range m a n = some bs ↔
      bs.length = n ∧ ∀ k, k < n → Memory.byteAt m (a + k) = bs[k]? := by
  induction n generalizing a bs with
  | zero =>
    cases bs with
    | nil => simp [Memory.range]
    | cons b bs => simp [Memory.range]
  | succ n ih =>
    constructor
    · intro h
      simp only [Memory.range] at h
      split at h
      · cases h
      · rename_i v hv
        split at h
        · cases h
        · rename_i vs hvs
          injection h with h
          subst h
          obtain ⟨hl, hk⟩ := (ih (a + 1) vs).mp hvs
          refine ⟨by simp [hl], fun k hkn => ?_⟩
          cases k with
          | zero => simpa using hv
          | succ k =>
            rw [show a + (k + 1) = a + 1 + k by omega, hk k (by omega), List.getElem?_cons_succ]
    · rintro ⟨hl, hk⟩
      cases bs with
      | nil => simp at hl
      | cons v vs =>
        have h0 : Memory.byteAt m a = some v := by simpa using hk 0 (by omega)
        have hvs : Memory.range m (a + 1) n = some vs := (ih (a + 1) vs).mpr
          ⟨by simpa using hl, fun k hkn => by
            have := hk (k + 1) (by omega)
            rw [List.getElem?_cons_succ] at this
            rw [← this]; congr 1; omega⟩
        simp [Memory.range, h0, hvs]

/-- A range read gives nothing exactly when one of its bytes is unspecified (R73). -/
theorem range_eq_none (m : Memory) (a n : Nat) :
    Memory.range m a n = none ↔ ∃ k, k < n ∧ Memory.byteAt m (a + k) = none := by
  induction n generalizing a with
  | zero => simp [Memory.range]
  | succ n ih =>
    simp only [Memory.range]
    cases h0 : Memory.byteAt m a with
    | none => simp only [true_iff]; exact ⟨0, by omega, by simpa using h0⟩
    | some v =>
      cases h1 : Memory.range m (a + 1) n with
      | none =>
        simp only [true_iff]
        obtain ⟨k, hk, hb⟩ := (ih (a + 1)).mp h1
        exact ⟨k + 1, by omega, by rw [← hb]; congr 1; omega⟩
      | some vs =>
        simp only [reduceCtorEq, false_iff, not_exists, not_and]
        intro k hk hb
        cases k with
        | zero => simp [h0] at hb
        | succ k =>
          have : Memory.range m (a + 1) n = none :=
            (ih (a + 1)).mpr ⟨k, by omega, by rw [← hb]; congr 1; omega⟩
          simp [h1] at this

/-- A range read depends on the bytes of its range alone. -/
theorem range_congr (m m' : Memory) (a n : Nat)
    (h : ∀ k, k < n → Memory.byteAt m' (a + k) = Memory.byteAt m (a + k)) :
    Memory.range m' a n = Memory.range m a n := by
  induction n generalizing a with
  | zero => rfl
  | succ n ih =>
    have h0 : Memory.byteAt m' a = Memory.byteAt m a := by simpa using h 0 (by omega)
    have h1 : Memory.range m' (a + 1) n = Memory.range m (a + 1) n := ih (a + 1) (fun k hk => by
      have := h (k + 1) (by omega)
      rwa [show a + (k + 1) = a + 1 + k by omega] at this)
    simp only [Memory.range, h0, h1]

/-- The whole result buffer reads back. -/
theorem range_ofBytes (vs : List Byte) : Memory.range (Memory.ofBytes 0 vs) 0 vs.length = some vs :=
  (range_eq_some _ _ _ _).mpr ⟨rfl, fun k _ => by simp⟩

end Sys2Proof.Laws
end

