-- ==== Sys2Proof/Laws/Operands.lean ====
section
/-!
SUPPORT. Little-endian fields and symbol streams (`20_memory.md` R61, `30_encoding.md` R94 to R96).
-/

namespace Sys2Proof.Laws

open Sys2Proof.Machine

/-! ## Little-endian numbers -/

@[simp] theorem length_leBytes (n v : Nat) : (leBytes n v).length = n := by
  induction n generalizing v with
  | zero => rfl
  | succ n ih => simp [leBytes, ih]

/-- A number that fits `n` bytes reads back. -/
theorem leNat_leBytes (n v : Nat) (h : v < 256 ^ n) : leNat (leBytes n v) = v := by
  induction n generalizing v with
  | zero => simp at h; simp [leBytes, leNat, h]
  | succ n ih =>
    have hdiv : v / 256 < 256 ^ n := by
      rw [Nat.div_lt_iff_lt_mul (by norm_num)]; rwa [pow_succ] at h
    simp only [leBytes, leNat, ih _ hdiv, BitVec.toNat_ofNat]
    omega

/-- Bytes are the little-endian form of the number they hold. -/
theorem leBytes_leNat (bs : List Byte) : leBytes bs.length (leNat bs) = bs := by
  induction bs with
  | nil => rfl
  | cons b bs ih =>
    have hb : b.toNat < 256 := b.isLt
    have hdiv : (b.toNat + 256 * leNat bs) / 256 = leNat bs := by omega
    simp only [List.length_cons, leBytes, leNat, hdiv, ih, List.cons.injEq, and_true]
    apply BitVec.eq_of_toNat_eq
    simp only [BitVec.toNat_ofNat]
    omega

theorem leNat_lt (bs : List Byte) : leNat bs < 256 ^ bs.length := by
  induction bs with
  | nil => simp [leNat]
  | cons b bs ih =>
    have hb : b.toNat < 256 := b.isLt
    simp only [leNat, List.length_cons, pow_succ]
    omega

/-- A field that lies in the first of two parts. -/
theorem field_append_left (xs ys : List Byte) (off n : Nat) (h : off + n ≤ xs.length) :
    field (xs ++ ys) off n = field xs off n := by
  unfold field
  congr 1
  rw [List.drop_append_of_le_length (by omega), List.take_append_of_le_length (by simp; omega)]

/-- A field that lies in the second of two parts. -/
theorem field_append_right (xs ys : List Byte) (off n : Nat) :
    field (xs ++ ys) (xs.length + off) n = field ys off n := by
  unfold field
  rw [List.drop_append, List.drop_eq_nil_of_le (by omega), List.nil_append]
  congr 3; omega

/-- A little-endian number at the head of a byte list. -/
theorem field_leBytes (n v : Nat) (ys : List Byte) (h : v < 256 ^ n) :
    field (leBytes n v ++ ys) 0 n = v := by
  unfold field
  rw [List.drop_zero, List.take_left' (length_leBytes n v), leNat_leBytes n v h]

/-! ## Symbols -/

theorem symb_pos (d : Domain) : 0 < symb d := by cases d <;> decide

/-- A symbol field is exactly as wide as the domain (R94). -/
theorem symbolBound_eq (d : Domain) : symbolBound d = 256 ^ symb d := by cases d <;> decide

@[simp] theorem streamBytes_nil (d : Domain) : streamBytes d [] = [] := rfl

@[simp] theorem streamBytes_cons (d : Domain) (x : Symbol) (xs : List Symbol) :
    streamBytes d (x :: xs) = leBytes (symb d) x ++ streamBytes d xs := rfl

theorem streamBytes_append (d : Domain) (xs ys : List Symbol) :
    streamBytes d (xs ++ ys) = streamBytes d xs ++ streamBytes d ys := by
  simp [streamBytes]

/-- `n * SYMB(d)` bytes (R96). -/
@[simp] theorem length_streamBytes (d : Domain) (xs : List Symbol) :
    (streamBytes d xs).length = xs.length * symb d := by
  induction xs with
  | nil => simp
  | cons x xs ih => simp [ih, Nat.add_mul, Nat.add_comm]

/-- One symbol at the head of a stream. -/
theorem symbolsOf_leBytes_append (d : Domain) (x : Symbol) (ys : List Byte) (h : x < symbolBound d) :
    symbolsOf d (leBytes (symb d) x ++ ys) = x :: symbolsOf d ys := by
  cases d with
  | byte =>
    have hx : x < 256 := h
    simp [symb, leBytes, symbolsOf, hx]
  | char =>
    have hx : leNat [BitVec.ofNat 8 x, BitVec.ofNat 8 (x / 256)] = x := leNat_leBytes 2 x h
    show leNat [BitVec.ofNat 8 x, BitVec.ofNat 8 (x / 256)] :: symbolsOf .char ys = x :: symbolsOf .char ys
    rw [hx]

/-- A stream of symbols of the domain reads back (R94, R96). -/
theorem symbolsOf_streamBytes (d : Domain) (xs : List Symbol) (h : ∀ x ∈ xs, x < symbolBound d) :
    symbolsOf d (streamBytes d xs) = xs := by
  induction xs with
  | nil => cases d <;> rfl
  | cons x xs ih =>
    rw [streamBytes_cons, symbolsOf_leBytes_append d x _ (h x (by simp)), ih (fun y hy => h y (by simp [hy]))]

theorem streamBytes_symbolsOf_char :
    ∀ bs : List Byte, bs.length % 2 = 0 → streamBytes .char (symbolsOf .char bs) = bs
  | [], _ => rfl
  | [b], h => by simp at h
  | lo :: hi :: rest, h => by
    have hrest := streamBytes_symbolsOf_char rest (by simp at h; omega)
    have hpair : leBytes (symb .char) (leNat [lo, hi]) = [lo, hi] := leBytes_leNat [lo, hi]
    simp [symbolsOf, hrest, hpair]

/-- A byte list of a whole number of symbols is the stream of its symbols. -/
theorem streamBytes_symbolsOf (d : Domain) (bs : List Byte) (h : bs.length % symb d = 0) :
    streamBytes d (symbolsOf d bs) = bs := by
  cases d with
  | byte =>
    simp only [symbolsOf, streamBytes, List.flatMap_map]
    have hone : ∀ b : Byte, leBytes (symb .byte) b.toNat = [b] := fun b => by simp [symb, leBytes]
    simp [hone]
  | char => exact streamBytes_symbolsOf_char bs h

end Sys2Proof.Laws
end

