-- ==== Sys2Proof/Laws/State.lean ====
section
/-!
SUPPORT. One lemma per field per update of the state, each true by `rfl`, so that no later proof unfolds a record
update.
-/

namespace Sys2Proof.Laws

open Sys2Proof.Machine

/-! ## The accept step, R44 -/

@[simp] theorem acceptCommand_cfg (w : Word) (s : State) : (acceptCommand w s).cfg = s.cfg := rfl
@[simp] theorem acceptCommand_cmdr (w : Word) (s : State) : (acceptCommand w s).cmdr = w := rfl
@[simp] theorem acceptCommand_status (w : Word) (s : State) : (acceptCommand w s).status = statusAccepted := rfl
@[simp] theorem acceptCommand_errcode (w : Word) (s : State) : (acceptCommand w s).errcode = 0#8 := rfl
@[simp] theorem acceptCommand_ilen (w : Word) (s : State) : (acceptCommand w s).ilen = s.ilen := rfl
@[simp] theorem acceptCommand_olen (w : Word) (s : State) : (acceptCommand w s).olen = 0#32 := rfl
@[simp] theorem acceptCommand_odom (w : Word) (s : State) : (acceptCommand w s).odom = .byte := rfl
@[simp] theorem acceptCommand_an (w : Word) (s : State) : (acceptCommand w s).an = Analysis.zero := rfl
@[simp] theorem acceptCommand_ibuf (w : Word) (s : State) : (acceptCommand w s).ibuf = s.ibuf := rfl
@[simp] theorem acceptCommand_obuf (w : Word) (s : State) : (acceptCommand w s).obuf = [] := rfl
@[simp] theorem acceptCommand_ilenr (w : Word) (s : State) : (acceptCommand w s).ilenr = s.ilen := rfl
@[simp] theorem acceptCommand_resetSeen (w : Word) (s : State) : (acceptCommand w s).resetSeen = s.resetSeen := rfl
@[simp] theorem acceptCommand_port (w : Word) (s : State) : (acceptCommand w s).port = s.port := rfl
@[simp] theorem acceptCommand_rdata (w : Word) (s : State) : (acceptCommand w s).rdata = s.rdata := rfl

/-! ## Taking an error, R239 -/

@[simp] theorem takeError_cfg (e : CmdError) (s : State) : (takeError e s).cfg = s.cfg := rfl
@[simp] theorem takeError_cmdr (e : CmdError) (s : State) : (takeError e s).cmdr = s.cmdr := rfl
@[simp] theorem takeError_status (e : CmdError) (s : State) : (takeError e s).status = statusCompleted true := rfl
@[simp] theorem takeError_errcode (e : CmdError) (s : State) : (takeError e s).errcode = e.code := rfl
@[simp] theorem takeError_ilen (e : CmdError) (s : State) : (takeError e s).ilen = s.ilen := rfl
@[simp] theorem takeError_olen (e : CmdError) (s : State) : (takeError e s).olen = 0#32 := rfl
@[simp] theorem takeError_odom (e : CmdError) (s : State) : (takeError e s).odom = .byte := rfl
@[simp] theorem takeError_an (e : CmdError) (s : State) : (takeError e s).an = s.an := rfl
@[simp] theorem takeError_ibuf (e : CmdError) (s : State) : (takeError e s).ibuf = s.ibuf := rfl
@[simp] theorem takeError_obuf (e : CmdError) (s : State) : (takeError e s).obuf = [] := rfl
@[simp] theorem takeError_ilenr (e : CmdError) (s : State) : (takeError e s).ilenr = s.ilenr := rfl
@[simp] theorem takeError_resetSeen (e : CmdError) (s : State) : (takeError e s).resetSeen = s.resetSeen := rfl
@[simp] theorem takeError_port (e : CmdError) (s : State) : (takeError e s).port = s.port := rfl
@[simp] theorem takeError_rdata (e : CmdError) (s : State) : (takeError e s).rdata = s.rdata := rfl

/-! ## Publishing a result, R45 -/

@[simp] theorem publishOk_cfg (out : List Byte) (d : Domain) (an : Option Analysis) (s : State) : (publishOk out d an s).cfg = s.cfg := rfl
@[simp] theorem publishOk_cmdr (out : List Byte) (d : Domain) (an : Option Analysis) (s : State) : (publishOk out d an s).cmdr = s.cmdr := rfl
@[simp] theorem publishOk_status (out : List Byte) (d : Domain) (an : Option Analysis) (s : State) : (publishOk out d an s).status = statusCompleted false := rfl
@[simp] theorem publishOk_errcode (out : List Byte) (d : Domain) (an : Option Analysis) (s : State) : (publishOk out d an s).errcode = 0#8 := rfl
@[simp] theorem publishOk_ilen (out : List Byte) (d : Domain) (an : Option Analysis) (s : State) : (publishOk out d an s).ilen = s.ilen := rfl
@[simp] theorem publishOk_olen (out : List Byte) (d : Domain) (an : Option Analysis) (s : State) : (publishOk out d an s).olen = BitVec.ofNat 32 out.length := rfl
@[simp] theorem publishOk_odom (out : List Byte) (d : Domain) (an : Option Analysis) (s : State) : (publishOk out d an s).odom = d := rfl
@[simp] theorem publishOk_an (out : List Byte) (d : Domain) (an : Option Analysis) (s : State) : (publishOk out d an s).an = an.getD s.an := rfl
@[simp] theorem publishOk_ibuf (out : List Byte) (d : Domain) (an : Option Analysis) (s : State) : (publishOk out d an s).ibuf = s.ibuf := rfl
@[simp] theorem publishOk_obuf (out : List Byte) (d : Domain) (an : Option Analysis) (s : State) : (publishOk out d an s).obuf = Memory.ofBytes 0 out := rfl
@[simp] theorem publishOk_ilenr (out : List Byte) (d : Domain) (an : Option Analysis) (s : State) : (publishOk out d an s).ilenr = s.ilenr := rfl
@[simp] theorem publishOk_resetSeen (out : List Byte) (d : Domain) (an : Option Analysis) (s : State) : (publishOk out d an s).resetSeen = s.resetSeen := rfl
@[simp] theorem publishOk_port (out : List Byte) (d : Domain) (an : Option Analysis) (s : State) : (publishOk out d an s).port = s.port := rfl
@[simp] theorem publishOk_rdata (out : List Byte) (d : Domain) (an : Option Analysis) (s : State) : (publishOk out d an s).rdata = s.rdata := rfl

@[simp] theorem publish_ok (out : List Byte) (d : Domain) (an : Option Analysis) (s : State) :
    publish (.ok out d an) s = publishOk out d an s := rfl

@[simp] theorem publish_err (e : CmdError) (s : State) : publish (.err e) s = takeError e s := rfl

/-! ## Reset, R43 -/

@[simp] theorem hostReset_cfg (s : State) : (hostReset s).cfg = s.cfg := rfl
@[simp] theorem hostReset_cmdr (s : State) : (hostReset s).cmdr = 0#32 := rfl
@[simp] theorem hostReset_status (s : State) : (hostReset s).status = Status.idle := rfl
@[simp] theorem hostReset_errcode (s : State) : (hostReset s).errcode = 0#8 := rfl
@[simp] theorem hostReset_ilen (s : State) : (hostReset s).ilen = 0#32 := rfl
@[simp] theorem hostReset_olen (s : State) : (hostReset s).olen = 0#32 := rfl
@[simp] theorem hostReset_odom (s : State) : (hostReset s).odom = .byte := rfl
@[simp] theorem hostReset_an (s : State) : (hostReset s).an = Analysis.zero := rfl
@[simp] theorem hostReset_ibuf (s : State) : (hostReset s).ibuf = [] := rfl
@[simp] theorem hostReset_obuf (s : State) : (hostReset s).obuf = [] := rfl
@[simp] theorem hostReset_ilenr (s : State) : (hostReset s).ilenr = 0#32 := rfl
@[simp] theorem hostReset_resetSeen (s : State) : (hostReset s).resetSeen = true := rfl
@[simp] theorem hostReset_port (s : State) : (hostReset s).port = s.port := rfl
@[simp] theorem hostReset_rdata (s : State) : (hostReset s).rdata = none := rfl

/-! ## Placing a command word -/

@[simp] theorem withFetchWord_cfg (s : State) (nbits w : Nat) : (s.withFetchWord nbits w).cfg = s.cfg := rfl
@[simp] theorem withFetchWord_cmdr (s : State) (nbits w : Nat) : (s.withFetchWord nbits w).cmdr = tableWord nbits w := rfl
@[simp] theorem withFetchWord_status (s : State) (nbits w : Nat) : (s.withFetchWord nbits w).status = statusAccepted := rfl
@[simp] theorem withFetchWord_errcode (s : State) (nbits w : Nat) : (s.withFetchWord nbits w).errcode = 0#8 := rfl
@[simp] theorem withFetchWord_ilen (s : State) (nbits w : Nat) : (s.withFetchWord nbits w).ilen = s.ilen := rfl
@[simp] theorem withFetchWord_olen (s : State) (nbits w : Nat) : (s.withFetchWord nbits w).olen = 0#32 := rfl
@[simp] theorem withFetchWord_odom (s : State) (nbits w : Nat) : (s.withFetchWord nbits w).odom = .byte := rfl
@[simp] theorem withFetchWord_an (s : State) (nbits w : Nat) : (s.withFetchWord nbits w).an = Analysis.zero := rfl
@[simp] theorem withFetchWord_ibuf (s : State) (nbits w : Nat) : (s.withFetchWord nbits w).ibuf = s.ibuf := rfl
@[simp] theorem withFetchWord_obuf (s : State) (nbits w : Nat) : (s.withFetchWord nbits w).obuf = [] := rfl
@[simp] theorem withFetchWord_ilenr (s : State) (nbits w : Nat) : (s.withFetchWord nbits w).ilenr = s.ilen := rfl
@[simp] theorem withFetchWord_resetSeen (s : State) (nbits w : Nat) : (s.withFetchWord nbits w).resetSeen = s.resetSeen := rfl
@[simp] theorem withFetchWord_port (s : State) (nbits w : Nat) : (s.withFetchWord nbits w).port = deferPort s.port := rfl
@[simp] theorem withFetchWord_rdata (s : State) (nbits w : Nat) : (s.withFetchWord nbits w).rdata = s.rdata := rfl

/-! ## Flags, R23 -/

@[simp] theorem statusAccepted_busy : statusAccepted.busy = true := rfl
@[simp] theorem statusAccepted_done : statusAccepted.done = false := rfl
@[simp] theorem statusAccepted_err : statusAccepted.err = false := rfl
@[simp] theorem statusCompleted_busy (e : Bool) : (statusCompleted e).busy = false := rfl
@[simp] theorem statusCompleted_done (e : Bool) : (statusCompleted e).done = true := rfl
@[simp] theorem statusCompleted_err (e : Bool) : (statusCompleted e).err = e := rfl
@[simp] theorem statusIdle_busy : Status.idle.busy = false := rfl
@[simp] theorem statusIdle_done : Status.idle.done = false := rfl
@[simp] theorem statusIdle_err : Status.idle.err = false := rfl

/-- `STATUS` as a number: `BUSY`, twice `DONE`, four times `ERR`, bits 31:3 zero. -/
theorem status_word_toNat (f : Status) :
    f.word.toNat = f.busy.toNat + 2 * f.done.toNat + 4 * f.err.toNat := by
  obtain ⟨b, d, e⟩ := f
  cases b <;> cases d <;> cases e <;> decide

end Sys2Proof.Laws
end

