-- ==== Sys2Proof/Laws/Ops.lean ====
section
/-!
SUPPORT. One lemma per shared operation, saying once what it can do: publishing a result, the two command shapes, and
the host's accesses. Later proofs cite these and do not unfold the operations.
-/

namespace Sys2Proof.Laws

open Sys2Proof.Machine

/-! ## Publishing -/

/-- A completion changes nothing outside the result registers and `OBUF` (R45, R239). -/
theorem publish_frame (r : CmdResult) (s : State) : CoreFrame s (publish r s) := by
  cases r <;> exact ⟨rfl, rfl, rfl, rfl, rfl, rfl, rfl, rfl⟩

/-- A completion ends the command (R45). -/
theorem publish_done (r : CmdResult) (s : State) :
    (publish r s).status.busy = false ∧ (publish r s).status.done = true := by
  cases r <;> exact ⟨rfl, rfl⟩

/-- Taking an error is the failure R239 describes. -/
theorem takeError_failure (e : CmdError) (s : State) : Failure s (takeError e s) e.code.toNat :=
  ⟨⟨rfl, rfl, rfl⟩, rfl, rfl, rfl, fun _ => rfl, rfl, publish_frame (.err e) s⟩

/-- Publishing a result that fits a length register is the success R45 describes. -/
theorem publishOk_success (out : List Byte) (d : Domain) (an : Option Analysis) (s : State)
    (h : out.length < 2 ^ 32) : Success s (publishOk out d an s) d out :=
  ⟨⟨rfl, rfl, rfl⟩, rfl, by simpa using h, rfl, fun a => byteAt_ofBytes_zero a out,
    publish_frame (.ok out d an) s⟩

/-- The codes of R231 are 1 to 6, so an error is never mistaken for success. -/
theorem code_range (e : CmdError) : 1 ≤ e.code.toNat ∧ e.code.toNat ≤ 6 := by
  cases e <;> decide

theorem code_ne_zero (e : CmdError) : e.code ≠ 0#8 := by
  cases e <;> decide

/-! ## The input of a command -/

theorem InputIs.inputBytes_eq {s : State} {bs : List Byte} (h : InputIs s bs) : inputBytes s = some bs := by
  unfold inputBytes
  rw [h.length]
  exact (range_eq_some _ _ _ _).mpr ⟨rfl, fun k hk => by simpa using h.bytes k hk⟩

/-- The input bytes a command reads are an input in the declarative sense. -/
theorem inputIs_of_inputBytes {s : State} {bs : List Byte} (h : inputBytes s = some bs)
    (hfits : s.ilenr.toNat ≤ s.cfg.ibufSize) : InputIs s bs := by
  obtain ⟨hl, hk⟩ := (range_eq_some _ _ _ _).mp h
  exact ⟨hl.symm, by omega, fun k hk' => by simpa using hk k (by omega)⟩

theorem inputBytes_length {s : State} {bs : List Byte} (h : inputBytes s = some bs) :
    bs.length = s.ilenr.toNat := ((range_eq_some _ _ _ _).mp h).1

/-- `inputBytes` gives nothing exactly when a byte of the input range is unspecified (R73). -/
theorem inputBytes_eq_none (s : State) :
    inputBytes s = none ↔ ∃ k, k < s.ilenr.toNat ∧ Memory.byteAt s.ibuf k = none := by
  simpa [inputBytes] using range_eq_none s.ibuf 0 s.ilenr.toNat

/-- All that `runOnInput` can do. -/
theorem runOnInput_cases (s : State) (body : List Byte → CmdResult) :
    (inputBytes s = none ∧ runOnInput s body = .refused .unspecifiedInput) ∨
    (∃ input, inputBytes s = some input ∧ input.length = s.ilenr.toNat ∧
      runOnInput s body = .next (publish (body input) s)) := by
  unfold runOnInput
  cases h : inputBytes s with
  | none => exact .inl ⟨rfl, rfl⟩
  | some input => exact .inr ⟨input, rfl, inputBytes_length h, rfl⟩

/-! ## The two command shapes, R238 -/

/-- All that a command over a symbol stream can do, checks 2 to 4 of R238 in order. -/
theorem streamCommand_cases (d : Domain) (s : State) (body : List Symbol → CmdResult) :
    (s.ilenr.toNat % symb d ≠ 0 ∧ streamCommand d s body = .next (takeError .illegalCommand s)) ∨
    (s.ilenr.toNat % symb d = 0 ∧ s.ilenr.toNat > s.cfg.ibufSize ∧
      streamCommand d s body = .next (takeError .resource s)) ∨
    (s.ilenr.toNat = 0 ∧ s.ilenr.toNat ≤ s.cfg.ibufSize ∧
      streamCommand d s body = .next (takeError .emptyInput s)) ∨
    (s.ilenr.toNat % symb d = 0 ∧ 0 < s.ilenr.toNat ∧ s.ilenr.toNat ≤ s.cfg.ibufSize ∧ inputBytes s = none ∧
      streamCommand d s body = .refused .unspecifiedInput) ∨
    (s.ilenr.toNat % symb d = 0 ∧ 0 < s.ilenr.toNat ∧ s.ilenr.toNat ≤ s.cfg.ibufSize ∧
      ∃ input, inputBytes s = some input ∧ input.length = s.ilenr.toNat ∧
        streamCommand d s body = .next (publish (body (symbolsOf d input)) s)) := by
  by_cases h1 : s.ilenr.toNat % symb d ≠ 0
  · exact .inl ⟨h1, by simp only [streamCommand, if_pos h1]⟩
  · have h1' : s.ilenr.toNat % symb d = 0 := not_not.mp h1
    by_cases h2 : s.ilenr.toNat > s.cfg.ibufSize
    · exact .inr (.inl ⟨h1', h2, by simp only [streamCommand, if_neg h1, if_pos h2]⟩)
    · by_cases h3 : s.ilenr.toNat = 0
      · exact .inr (.inr (.inl ⟨h3, by omega, by simp only [streamCommand, if_neg h1, if_neg h2, if_pos h3]⟩))
      · have hrun : streamCommand d s body = runOnInput s (fun input => body (symbolsOf d input)) := by
          simp only [streamCommand, if_neg h1, if_neg h2, if_neg h3]
        rcases runOnInput_cases s (fun input => body (symbolsOf d input)) with ⟨hn, hr⟩ | ⟨input, hi, hl, hr⟩
        · exact .inr (.inr (.inr (.inl ⟨h1', by omega, by omega, hn, hrun.trans hr⟩)))
        · exact .inr (.inr (.inr (.inr ⟨h1', by omega, by omega, input, hi, hl, hrun.trans hr⟩)))

/-- A command over the stream of a non-empty symbol sequence runs its body on that sequence (R96). -/
theorem streamCommand_of_stream (d : Domain) (s : State) (body : List Symbol → CmdResult) (S : List Symbol)
    (hne : S ≠ []) (hS : ∀ x ∈ S, x < symbolBound d) (hin : InputIs s (streamBytes d S)) :
    streamCommand d s body = .next (publish (body S) s) := by
  have hlen : s.ilenr.toNat = S.length * symb d := by rw [hin.length, length_streamBytes]
  have hpos : 0 < S.length * symb d := Nat.mul_pos (List.length_pos_iff.mpr hne) (symb_pos d)
  have hfit : s.ilenr.toNat ≤ s.cfg.ibufSize := by rw [hin.length]; exact hin.fits
  have hmod : s.ilenr.toNat % symb d = 0 := by rw [hlen, Nat.mul_mod_left]
  rcases streamCommand_cases d s body with ⟨h, _⟩ | ⟨_, h, _⟩ | ⟨h, _⟩ | ⟨_, _, _, h, _⟩ | ⟨_, _, _, input, hi, _, hr⟩
  · exact absurd hmod h
  · omega
  · omega
  · rw [InputIs.inputBytes_eq hin] at h; cases h
  · rw [InputIs.inputBytes_eq hin] at hi
    injection hi with hi
    rw [hr, ← hi, symbolsOf_streamBytes d S hS]

/-- All that a command over a payload can do, checks 3 and 5 of R238 in order. -/
theorem payloadCommand_cases (headerLen : Nat) (s : State) (body : List Byte → CmdResult) :
    (s.ilenr.toNat > s.cfg.ibufSize ∧ payloadCommand headerLen s body = .next (takeError .resource s)) ∨
    (s.ilenr.toNat ≤ s.cfg.ibufSize ∧ s.ilenr.toNat < headerLen ∧
      payloadCommand headerLen s body = .next (takeError .malformedPayload s)) ∨
    (s.ilenr.toNat ≤ s.cfg.ibufSize ∧ headerLen ≤ s.ilenr.toNat ∧ inputBytes s = none ∧
      payloadCommand headerLen s body = .refused .unspecifiedInput) ∨
    (s.ilenr.toNat ≤ s.cfg.ibufSize ∧ headerLen ≤ s.ilenr.toNat ∧
      ∃ input, inputBytes s = some input ∧ input.length = s.ilenr.toNat ∧
        payloadCommand headerLen s body = .next (publish (body input) s)) := by
  by_cases h1 : s.ilenr.toNat > s.cfg.ibufSize
  · exact .inl ⟨h1, by simp only [payloadCommand, if_pos h1]⟩
  · by_cases h2 : s.ilenr.toNat < headerLen
    · exact .inr (.inl ⟨by omega, h2, by simp only [payloadCommand, if_neg h1, if_pos h2]⟩)
    · have hrun : payloadCommand headerLen s body = runOnInput s body := by
        simp only [payloadCommand, if_neg h1, if_neg h2]
      rcases runOnInput_cases s body with ⟨hn, hr⟩ | ⟨input, hi, hl, hr⟩
      · exact .inr (.inr (.inl ⟨by omega, by omega, hn, hrun.trans hr⟩))
      · exact .inr (.inr (.inr ⟨by omega, by omega, input, hi, hl, hrun.trans hr⟩))

/-- A command over a payload of at least a header's length runs its body on it. -/
theorem payloadCommand_of_input (headerLen : Nat) (s : State) (body : List Byte → CmdResult) (bs : List Byte)
    (hhdr : headerLen ≤ bs.length) (hin : InputIs s bs) :
    payloadCommand headerLen s body = .next (publish (body bs) s) := by
  have hl := hin.length
  have hf := hin.fits
  rcases payloadCommand_cases headerLen s body with ⟨h, _⟩ | ⟨_, h, _⟩ | ⟨_, _, h, _⟩ | ⟨_, _, input, hi, _, hr⟩
  · omega
  · omega
  · rw [InputIs.inputBytes_eq hin] at h; cases h
  · rw [InputIs.inputBytes_eq hin] at hi
    injection hi with hi
    rw [hr, hi]

/-- All that `exec` can do: refuse an input with an unwritten byte, or publish a result. -/
theorem exec_cases (i : Instr) (s : State) :
    (inputBytes s = none ∧ exec i s = .refused .unspecifiedInput) ∨ ∃ r, exec i s = .next (publish r s) := by
  have stream (d : Domain) (body : List Symbol → CmdResult) :
      (inputBytes s = none ∧ streamCommand d s body = .refused .unspecifiedInput) ∨
        ∃ r, streamCommand d s body = .next (publish r s) := by
    rcases streamCommand_cases d s body with ⟨_, e⟩ | ⟨_, _, e⟩ | ⟨_, _, e⟩ | ⟨_, _, _, h, e⟩ | ⟨_, _, _, _, _, _, e⟩
    · exact .inr ⟨.err _, e⟩
    · exact .inr ⟨.err _, e⟩
    · exact .inr ⟨.err _, e⟩
    · exact .inl ⟨h, e⟩
    · exact .inr ⟨_, e⟩
  have payload (n : Nat) (body : List Byte → CmdResult) :
      (inputBytes s = none ∧ payloadCommand n s body = .refused .unspecifiedInput) ∨
        ∃ r, payloadCommand n s body = .next (publish r s) := by
    rcases payloadCommand_cases n s body with ⟨_, e⟩ | ⟨_, _, e⟩ | ⟨_, _, h, e⟩ | ⟨_, _, _, _, _, e⟩
    · exact .inr ⟨.err _, e⟩
    · exact .inr ⟨.err _, e⟩
    · exact .inl ⟨h, e⟩
    · exact .inr ⟨_, e⟩
  cases i with
  | hufc d => exact stream d _
  | hufd => exact payload _ _
  | rlec d => exact stream d _
  | arlec d => exact stream d _
  | rled => exact payload _ _
  | anlz d =>
    by_cases h : s.cfg.hasAnlz = true
    · rw [show exec (.anlz d) s = streamCommand d s (anlzBody d) from if_pos h]
      exact stream d _
    · exact .inr ⟨.err .illegalCommand, if_neg h⟩

/-- All that the end of a compress command can do (check 10 of R238). -/
theorem finishEncode_cases (p : Params) (d : Domain) (payload : List Byte) :
    (payload.length ≤ p.obufSize ∧ finishEncode p d payload = .ok payload d none) ∨
    (p.obufSize < payload.length ∧ finishEncode p d payload = .err .resource) := by
  by_cases h : payload.length > p.obufSize
  · exact .inr ⟨h, by simp only [finishEncode, if_pos h]⟩
  · exact .inl ⟨by omega, by simp only [finishEncode, if_neg h]⟩

/-! ## Host accesses -/

/-- All that a host read of a buffer can do (R65, R73). -/
theorem hostBufferRead_cases (buffer : Memory) (size addr n : Nat) (s : State) :
    (size < addr + n ∧ hostBufferRead buffer size addr n s = .refused .outsideBuffer) ∨
    (addr + n ≤ size ∧ Memory.range buffer addr n = none ∧
      hostBufferRead buffer size addr n s = .refused .unspecifiedRead) ∨
    (addr + n ≤ size ∧ ∃ bs, Memory.range buffer addr n = some bs ∧
      hostBufferRead buffer size addr n s = .next { s with rdata := some (leNat bs) }) := by
  by_cases h : addr + n > size
  · exact .inl ⟨h, by simp only [hostBufferRead, if_pos h]⟩
  · refine .inr ?_
    cases hr : Memory.range buffer addr n with
    | none => exact .inl ⟨by omega, rfl, by simp only [hostBufferRead, if_neg h, Memory.readLE, hr, Option.map_none]⟩
    | some bs =>
      exact .inr ⟨by omega, bs, rfl,
        by simp only [hostBufferRead, if_neg h, Memory.readLE, hr, Option.map_some]⟩

/-- All that a host write of `IBUF` can do (R30, R65). -/
theorem hostIbufWrite_cases (addr : Nat) (bytes : List Byte) (s : State) :
    (s.cfg.ibufSize < addr + bytes.length ∧ hostIbufWrite addr bytes s = .refused .outsideBuffer) ∨
    (addr + bytes.length ≤ s.cfg.ibufSize ∧ s.status.busy = true ∧ hostIbufWrite addr bytes s = .next s) ∨
    (addr + bytes.length ≤ s.cfg.ibufSize ∧ s.status.busy = false ∧
      hostIbufWrite addr bytes s = .next { s with ibuf := Memory.setBytes s.ibuf addr bytes }) := by
  by_cases h : addr + bytes.length > s.cfg.ibufSize
  · exact .inl ⟨h, by simp only [hostIbufWrite, if_pos h]⟩
  · cases hb : s.status.busy
    · exact .inr (.inr ⟨by omega, rfl, by simp [hostIbufWrite, if_neg h, hb]⟩)
    · exact .inr (.inl ⟨by omega, rfl, by simp [hostIbufWrite, if_neg h, hb]⟩)

/-- All that a write of `REG` can do to the state (R22, R25, R29). -/
theorem regWriteEffect_cases (off : Nat) (w : Word) (s : State) :
    (s.status.busy = true ∧ regWriteEffect off w s = s) ∨
    (s.status.busy = false ∧ off = 0x00 ∧ regWriteEffect off w s = acceptCommand w s) ∨
    (s.status.busy = false ∧ off = 0x0C ∧ regWriteEffect off w s = { s with ilen := w }) ∨
    (s.status.busy = false ∧ off ≠ 0x00 ∧ off ≠ 0x0C ∧ regWriteEffect off w s = s) := by
  cases hb : s.status.busy
  · by_cases h0 : off = 0x00
    · exact .inr (.inl ⟨rfl, h0, by simp [regWriteEffect, hb, h0]⟩)
    · by_cases hc : off = 0x0C
      · exact .inr (.inr (.inl ⟨rfl, hc, by simp [regWriteEffect, hb, hc]⟩))
      · exact .inr (.inr (.inr ⟨rfl, h0, hc, by simp [regWriteEffect, hb, h0, hc]⟩))
  · exact .inl ⟨rfl, by simp [regWriteEffect, hb]⟩

/-! ## Turns -/

/-- The model's turn test is the declarative one. -/
theorem coreTurn_iff (s : State) : coreTurn s = true ↔ CoreMovesNext s := by
  unfold coreTurn CoreMovesNext
  rcases hp : s.port with _ | ⟨⟨a, late⟩, rest⟩
  · simp
  · cases late <;> simp

end Sys2Proof.Laws
end

