-- ==== Sys2Proof/Laws/PerInstr.lean ====
section
/-!
SUPPORT. Facts about every command as syntax, one lemma per constructor.
-/

namespace Sys2Proof.Laws.ReservedBitsZero

open Sys2Proof

/-- Bits 31:9 of a command word are 0 and its `OP` is that of its row (R90, R91). -/
def Statement (i : Instr) : Prop := reservedField (encode i) = 0#32 ∧ opField (encode i) = i.op

theorem hufc (d : Machine.Domain) : Statement (.hufc d) := by cases d <;> exact ⟨by decide, by decide⟩
theorem hufd : Statement .hufd := ⟨by decide, by decide⟩
theorem rlec (d : Machine.Domain) : Statement (.rlec d) := by cases d <;> exact ⟨by decide, by decide⟩
theorem arlec (d : Machine.Domain) : Statement (.arlec d) := by cases d <;> exact ⟨by decide, by decide⟩
theorem rled : Statement .rled := ⟨by decide, by decide⟩
theorem anlz (d : Machine.Domain) : Statement (.anlz d) := by cases d <;> exact ⟨by decide, by decide⟩

end Sys2Proof.Laws.ReservedBitsZero
end

