-- ==== Sys2Proof/Laws/Units.lean ====
section
/-!
SUPPORT. The codec units: scans and parsers without their bounds on passes, the queue of the tree builder, and the
lengths of records.
-/

namespace Sys2Proof.Laws

open Sys2Proof.Machine

/-! ## Run scanner, R180 -/

theorem leading_le (x : Symbol) (xs : List Symbol) : leading x xs ≤ xs.length := by
  induction xs with
  | nil => exact le_refl 0
  | cons y ys ih =>
    simp only [leading, List.length_cons]
    split <;> omega

/-- `1 <= c <= n` for a run length (R180). -/
theorem runLen_bounds (x : Symbol) (xs : List Symbol) :
    1 ≤ runLen (x :: xs) ∧ runLen (x :: xs) ≤ (x :: xs).length := by
  have := leading_le x xs
  simp only [runLen, List.length_cons]
  omega

/-- The symbols `leading` counts are copies of `x`. -/
theorem take_leading (x : Symbol) (xs : List Symbol) :
    xs.take (leading x xs) = List.replicate (leading x xs) x := by
  induction xs with
  | nil => rfl
  | cons y ys ih =>
    simp only [leading]
    split
    · rename_i h
      rw [List.take_succ_cons, List.replicate_succ, ih, h]
    · rfl

/-- The symbol after those `leading` counts is another one. -/
theorem head_drop_leading (x : Symbol) (xs : List Symbol) :
    ∀ y ∈ (xs.drop (leading x xs)).head?, y ≠ x := by
  induction xs with
  | nil => simp [leading]
  | cons z zs ih =>
    simp only [leading]
    split
    · simpa using ih
    · rename_i h; simpa using h

/-- A maximal run and what follows it make up the list. -/
theorem replicate_runLen_append (x : Symbol) (xs : List Symbol) :
    List.replicate (runLen (x :: xs)) x ++ (x :: xs).drop (runLen (x :: xs)) = x :: xs := by
  have h : runLen (x :: xs) = leading x xs + 1 := by simp only [runLen]; omega
  rw [h, List.replicate_succ, List.drop_succ_cons, ← take_leading, List.cons_append, List.take_append_drop]

/-- The bound on passes of the run scan does not matter once it covers the list. -/
theorem scanRuns_bound (k : Nat) (xs : List Symbol) (h : xs.length ≤ k) : scanRuns k xs = maximalRuns xs := by
  suffices H : ∀ n k xs, xs.length ≤ n → xs.length ≤ k → scanRuns k xs = scanRuns n xs from
    H xs.length k xs (le_refl _) h
  intro n
  induction n with
  | zero =>
    intro k xs hn _
    obtain rfl : xs = [] := List.length_eq_zero_iff.mp (by omega)
    cases k <;> rfl
  | succ n ih =>
    intro k xs hn hk
    cases xs with
    | nil => cases k <;> rfl
    | cons x xs =>
      cases k with
      | zero => simp at hk
      | succ k =>
        have hb := runLen_bounds x xs
        have hd : ((x :: xs).drop (runLen (x :: xs))).length = (x :: xs).length - runLen (x :: xs) :=
          List.length_drop
        simp only [scanRuns]
        rw [ih k _ (by omega) (by omega)]

@[simp] theorem maximalRuns_nil : maximalRuns [] = [] := rfl

/-- The scan of R180, one run at a time. -/
theorem maximalRuns_cons (x : Symbol) (xs : List Symbol) :
    maximalRuns (x :: xs) =
      (x, runLen (x :: xs)) :: maximalRuns ((x :: xs).drop (runLen (x :: xs))) := by
  have hb := runLen_bounds x xs
  have hd : ((x :: xs).drop (runLen (x :: xs))).length = (x :: xs).length - runLen (x :: xs) := List.length_drop
  show (x, runLen (x :: xs)) :: scanRuns xs.length ((x :: xs).drop (runLen (x :: xs))) = _
  rw [scanRuns_bound xs.length _ (by simp only [List.length_cons] at hd hb; omega)]

/-! ## Sequence accumulator, R191 -/

/-- What a sequence takes and what it leaves make up the list. -/
theorem extendSequence_append (k : Nat) (xs : List Symbol) :
    (extendSequence k xs).1 ++ (extendSequence k xs).2 = xs := by
  induction k generalizing xs with
  | zero => rfl
  | succ k ih =>
    cases xs with
    | nil => rfl
    | cons y ys =>
      simp only [extendSequence]
      split
      · rfl
      · simp [ih ys]

theorem extendSequence_length (k : Nat) (xs : List Symbol) : (extendSequence k xs).1.length ≤ k := by
  induction k generalizing xs with
  | zero => exact le_refl 0
  | succ k ih =>
    cases xs with
    | nil => simp [extendSequence]
    | cons y ys =>
      simp only [extendSequence]
      split
      · simp
      · simpa using ih ys

theorem takeSequence_append (xs : List Symbol) : (takeSequence xs).1 ++ (takeSequence xs).2 = xs := by
  cases xs with
  | nil => rfl
  | cons x xs => simp [takeSequence, extendSequence_append]

/-- `1 <= len(seq) <= 255` (R191). -/
theorem takeSequence_length (x : Symbol) (xs : List Symbol) :
    1 ≤ (takeSequence (x :: xs)).1.length ∧ (takeSequence (x :: xs)).1.length ≤ 255 := by
  have h := extendSequence_length (Config.seqCap - 1) xs
  simp only [takeSequence, List.length_cons]
  simp only [Config.seqCap] at h ⊢
  omega

/-- One pass of the loop of `ARLEC` (R192): the item and what is left. -/
theorem scanAdaptive_cons (x : Symbol) (xs : List Symbol) :
    ∃ item rest, expand item ++ rest = x :: xs ∧ rest.length < (x :: xs).length ∧
      ∀ m, scanAdaptive (m + 1) (x :: xs) = item :: scanAdaptive m rest := by
  have hb := runLen_bounds x xs
  have hd : ((x :: xs).drop (runLen (x :: xs))).length = (x :: xs).length - runLen (x :: xs) := List.length_drop
  by_cases h1 : runLen (x :: xs) ≥ Config.runMin
  · exact ⟨.run x (runLen (x :: xs)), _, replicate_runLen_append x xs, by omega,
      fun m => by simp only [scanAdaptive, if_pos h1]⟩
  · by_cases h2 : runLen (x :: xs) ≥ Config.shortMin
    · exact ⟨.shortRun x (runLen (x :: xs)), _, replicate_runLen_append x xs, by omega,
        fun m => by simp only [scanAdaptive, if_neg h1, if_pos h2]⟩
    · have hl := takeSequence_length x xs
      have ha := takeSequence_append (x :: xs)
      refine ⟨.sequence (takeSequence (x :: xs)).1, (takeSequence (x :: xs)).2, ha, ?_,
        fun m => by simp only [scanAdaptive, if_neg h1, if_neg h2]⟩
      have := congrArg List.length ha
      rw [List.length_append] at this
      omega

/-- The bound on passes of the adaptive scan does not matter once it covers the list. -/
theorem scanAdaptive_bound (k : Nat) (xs : List Symbol) (h : xs.length ≤ k) :
    scanAdaptive k xs = adaptiveItems xs := by
  suffices H : ∀ n k xs, xs.length ≤ n → xs.length ≤ k → scanAdaptive k xs = scanAdaptive n xs from
    H xs.length k xs (le_refl _) h
  intro n
  induction n with
  | zero =>
    intro k xs hn _
    obtain rfl : xs = [] := List.length_eq_zero_iff.mp (by omega)
    cases k <;> rfl
  | succ n ih =>
    intro k xs hn hk
    cases xs with
    | nil => cases k <;> rfl
    | cons x xs =>
      cases k with
      | zero => simp at hk
      | succ k =>
        obtain ⟨item, rest, _, hlt, heq⟩ := scanAdaptive_cons x xs
        rw [heq k, heq n, ih k rest (by omega) (by omega)]

/-! ## Items, R102, R201 -/

@[simp] theorem expandAll_nil : expandAll [] = [] := rfl

@[simp] theorem expandAll_cons (i : Item) (is : List Item) : expandAll (i :: is) = expand i ++ expandAll is := rfl

@[simp] theorem itemsCount_nil : itemsCount [] = 0 := rfl

@[simp] theorem itemsCount_cons (i : Item) (is : List Item) : itemsCount (i :: is) = itemCount i + itemsCount is := rfl

@[simp] theorem itemRecords_nil (d : Domain) : itemRecords d [] = [] := rfl

@[simp] theorem itemRecords_cons (d : Domain) (i : Item) (is : List Item) :
    itemRecords d (i :: is) = itemRecord d i ++ itemRecords d is := rfl

/-- The record sizes of R102. -/
theorem length_itemRecord (d : Domain) (i : Item) :
    (itemRecord d i).length =
      match i with
      | .single _ => 1 + symb d
      | .run _ _ => 5 + symb d
      | .shortRun _ _ => 2 + symb d
      | .sequence q => 2 + q.length * symb d := by
  cases i <;> simp [itemRecord] <;> omega

/-- The record sizes of R99: a leaf, an internal node, a wrapper. -/
theorem length_serialize (d : Domain) (T : Node) :
    (serialize d T).length =
      match T with
      | .leaf _ _ => 5 + symb d
      | .internal _ l r => 5 + (serialize d l).length + (serialize d r).length
      | .wrap _ c => 5 + (serialize d c).length := by
  cases T <;> simp [serialize] <;> omega

/-! ## Tree builder, R132 -/

/-- The least id of a non-empty list is one of its members. -/
theorem leastId_mem (C : List Nat) (h : C ≠ []) : leastId C ∈ C := by
  induction C with
  | nil => exact absurd rfl h
  | cons i rest ih =>
    cases rest with
    | nil => simp [leastId]
    | cons j rest =>
      have hj := ih (by simp)
      simp only [leastId]
      rcases Nat.le_total i (leastId (j :: rest)) with hle | hle
      · rw [Nat.min_eq_left hle]; simp
      · rw [Nat.min_eq_right hle]; exact List.mem_cons_of_mem _ hj

/-- Every `TIEBREAK` yields a candidate (R132). -/
theorem leastId_le (C : List Nat) (i : Nat) (h : i ∈ C) : leastId C ≤ i := by
  induction C with
  | nil => simp at h
  | cons j rest ih =>
    cases rest with
    | nil => simp at h; simp [leastId, h]
    | cons k rest =>
      rcases List.mem_cons.mp h with rfl | h
      · exact min_le_left _ _
      · exact le_trans (min_le_right _ _) (ih h)

theorem pickerOf_valid (t : TieBreak) : Picker.valid (pickerOf t) := by
  intro C nodes hC
  cases t with
  | minSeq => exact leastId_mem C hC
  | other k =>
    have hpos : 0 < C.length := List.length_pos_iff.mpr hC
    have hlt := Nat.mod_lt (Config.tieBreak k C nodes) hpos
    simp only [pickerOf, List.getD_eq_getElem?_getD, List.getElem?_eq_getElem hlt, Option.getD_some]
    exact List.getElem_mem hlt

/-- A non-empty queue has a node of least frequency. -/
theorem minFreq_attained (nodes : List Node) (pq : List Nat) (h : pq ≠ []) :
    ∃ i ∈ pq, (nodeAt nodes i).freq = minFreq nodes pq := by
  induction pq with
  | nil => exact absurd rfl h
  | cons i rest ih =>
    cases rest with
    | nil => exact ⟨i, by simp, rfl⟩
    | cons j rest =>
      obtain ⟨m, hm, hf⟩ := ih (by simp)
      simp only [minFreq]
      rcases Nat.le_total (nodeAt nodes i).freq (minFreq nodes (j :: rest)) with hle | hle
      · exact ⟨i, by simp, (Nat.min_eq_left hle).symm⟩
      · exact ⟨m, List.mem_cons_of_mem _ hm, by rw [hf, Nat.min_eq_right hle]⟩

theorem minFreq_le (nodes : List Node) (pq : List Nat) (i : Nat) (h : i ∈ pq) :
    minFreq nodes pq ≤ (nodeAt nodes i).freq := by
  induction pq with
  | nil => simp at h
  | cons j rest ih =>
    cases rest with
    | nil => simp at h; simp [minFreq, h]
    | cons k rest =>
      simp only [minFreq]
      rcases List.mem_cons.mp h with rfl | h
      · exact Nat.min_le_left _ _
      · exact le_trans (Nat.min_le_right _ _) (ih h)

/-- All that `ExtractMin` can do on a non-empty queue (R132): it yields a member of least frequency and removes it. -/
theorem extractMin_spec (pick : Picker) (hp : pick.valid) (nodes : List Node) (pq : List Nat) (h : pq ≠ []) :
    (extractMin pick nodes pq).1 ∈ pq ∧
      (nodeAt nodes (extractMin pick nodes pq).1).freq = minFreq nodes pq ∧
      (extractMin pick nodes pq).2 = pq.erase (extractMin pick nodes pq).1 := by
  obtain ⟨i, hi, hf⟩ := minFreq_attained nodes pq h
  have hne : candidates nodes pq ≠ [] :=
    List.ne_nil_of_mem (List.mem_filter.mpr ⟨hi, by simpa using hf⟩)
  have hmem := List.mem_filter.mp (hp (candidates nodes pq) nodes hne)
  exact ⟨hmem.1, beq_iff_eq.mp hmem.2, rfl⟩

/-! ## Parsers -/

/-- More depth never changes a tree parse that succeeds (R144). -/
theorem parseTree_mono (d : Domain) (k m : Nat) (bs : List Byte) (r : Node × List Byte)
    (hkm : k ≤ m) (h : parseTree d k bs = some r) : parseTree d m bs = some r := by
  induction k generalizing m bs r with
  | zero => cases bs <;> simp [parseTree] at h
  | succ k ih =>
    obtain ⟨m, rfl⟩ : ∃ j, m = j + 1 := ⟨m - 1, by omega⟩
    cases bs with
    | nil => simp [parseTree] at h
    | cons tag rest =>
      simp only [parseTree] at h ⊢
      split_ifs at h ⊢ with h0 h1 h2 h3
      · exact h
      · cases hl : parseTree d k (rest.drop 4) with
        | none => simp [hl] at h
        | some l =>
          obtain ⟨l, rest1⟩ := l
          cases hr : parseTree d k rest1 with
          | none => simp [hl, hr] at h
          | some r' =>
            obtain ⟨r', rest2⟩ := r'
            simp only [hl, hr] at h
            simp only [ih m _ _ (by omega) hl, ih m _ _ (by omega) hr]
            exact h
      · cases hc : parseTree d k (rest.drop 4) with
        | none => simp [hc] at h
        | some c =>
          obtain ⟨c, rest1⟩ := c
          simp only [hc] at h
          simp only [ih m _ _ (by omega) hc]
          exact h

/-- A parsed tree takes at least five bytes (R99), so the bound of `deserialize` is never met. -/
theorem parseTree_consumes (d : Domain) (k : Nat) (bs : List Byte) (T : Node) (rest : List Byte)
    (h : parseTree d k bs = some (T, rest)) : rest.length + 5 ≤ bs.length := by
  induction k generalizing bs T rest with
  | zero => cases bs <;> simp [parseTree] at h
  | succ k ih =>
    cases bs with
    | nil => simp [parseTree] at h
    | cons tag tl =>
      have hs := symb_pos d
      simp only [parseTree] at h
      split_ifs at h with h0 h1 h2 h3 h4 h5
      · injection h with h
        injection h with _ h
        subst h
        simp only [List.length_drop, List.length_cons]
        omega
      · cases hl : parseTree d k (tl.drop 4) with
        | none => simp [hl] at h
        | some l =>
          obtain ⟨l, rest1⟩ := l
          cases hr : parseTree d k rest1 with
          | none => simp [hl, hr] at h
          | some r' =>
            obtain ⟨r', rest2⟩ := r'
            simp only [hl, hr, Option.some.injEq, Prod.mk.injEq] at h
            have h1' := ih _ _ _ hl
            have h2' := ih _ _ _ hr
            rw [← h.2]
            simp only [List.length_drop, List.length_cons] at *
            omega
      · cases hc : parseTree d k (tl.drop 4) with
        | none => simp [hc] at h
        | some c =>
          obtain ⟨c, rest1⟩ := c
          simp only [hc, Option.some.injEq, Prod.mk.injEq] at h
          have h1' := ih _ _ _ hc
          rw [← h.2]
          simp only [List.length_drop, List.length_cons] at *
          omega

end Sys2Proof.Laws
end

