-- ==== Sys2Proof/Tests/Slice0.lean ====
section
/-!
SUPPORT. The model's own tests. Expected results are from the spec: encodings from `30_encoding.md` R90, R91, results
from `95_test_vectors.md` (the vector is named at each test). Then one named witness for each statement with hypotheses.
-/

namespace Sys2Proof.Tests

open Sys2Proof Sys2Proof.Machine Sys2Proof.Laws

/-! ## Helpers -/

/-- Bytes from a list of numbers. -/
def bytes (ns : List Nat) : List Byte := ns.map (fun n => BitVec.ofNat 8 n)

/-- A block with the command `i` in flight on the input `bs`. -/
def busyOn (p : Params) (i : Instr) (bs : List Byte) : State :=
  { State.reset with
    cfg := p
    cmdr := encode i
    status := statusAccepted
    ilen := BitVec.ofNat 32 bs.length
    ilenr := BitVec.ofNat 32 bs.length
    ibuf := Memory.ofBytes 0 bs }

/-- `ERRCODE`, `OLEN`, `ODOM` and the bytes of `OBUF` of a next state. -/
def resultOf : Host.Outcome State Fault Refusal → Option (Nat × Nat × Domain × List Nat)
  | .next t => some (t.errcode.toNat, t.olen.toNat, t.odom, t.obuf.map (fun c => c.2.toNat))
  | .fault _ => none
  | .refused _ => none

/-- The analyzer registers of a next state. -/
def analysisOf : Host.Outcome State Fault Refusal → Option (Nat × Nat × Nat × Nat × Bool)
  | .next t => some (t.an.runCount.toNat, t.an.totalRun.toNat, t.an.longest.toNat, t.an.inLen.toNat, t.an.recommend)
  | .fault _ => none
  | .refused _ => none

/-- The next state of an outcome. -/
def nextOf : Host.Outcome State Fault Refusal → Option State
  | .next t => some t
  | .fault _ => none
  | .refused _ => none

/-- The refusal of an outcome. -/
def refusalOf : Host.Outcome State Fault Refusal → Option Refusal
  | .next _ => none
  | .fault _ => none
  | .refused r => some r

/-- Whether an outcome is a fault. -/
def faulted : Host.Outcome State Fault Refusal → Bool
  | .next _ => false
  | .fault _ => true
  | .refused _ => false

theorem next_of_nextOf {o : Host.Outcome State Fault Refusal} {t : State} (h : nextOf o = some t) : o = .next t := by
  cases o with
  | next s => injection h with h; rw [h]
  | fault f => cases f
  | refused r => cases h

/-- The helper's block has the input it was given. -/
theorem busyOn_inputIs (p : Params) (i : Instr) (bs : List Byte) (h32 : bs.length < 2 ^ 32)
    (h : bs.length ≤ p.ibufSize) : InputIs (busyOn p i bs) bs :=
  ⟨by simpa [busyOn] using h32, h, fun k _ => by simp [busyOn]⟩

/-- The helper's block meets the invariant. -/
theorem busyOn_inv (p : Params) (i : Instr) (bs : List Byte) (hp : p.wf = true) (h : bs.length ≤ p.ibufSize) :
    Inv (busyOn p i bs) := by
  refine ⟨hp, by simp [busyOn, statusAccepted], by simp [busyOn, statusAccepted], Nat.zero_le 6, Nat.zero_le _,
    ofBytes_wf 0 bs, ofBytes_within 0 bs (by rw [Nat.zero_add]; exact h), List.Pairwise.nil, ?_, fun _ => ⟨rfl, rfl, rfl, rfl⟩,
    fun h => absurd rfl h, fun _ => rfl, fun h => (by cases h), fun h => absurd rfl h⟩
  intro a
  exact ⟨fun h => (by cases h), fun h => absurd h (Nat.not_lt_zero a)⟩

/-! ## Encodings, R90, R91, R93 -/

theorem test_decode_hufc_char : decode true 0b00000000000000000000000100000001#32 = .command (.hufc .char) := by decide
theorem test_decode_hufd : decode true 0b00000000000000000000000000000010#32 = .command .hufd := by decide
theorem test_decode_rlec_byte : decode true 0b00000000000000000000000000000011#32 = .command (.rlec .byte) := by decide
theorem test_decode_arlec_char : decode true 0b00000000000000000000000100000100#32 = .command (.arlec .char) := by decide
theorem test_decode_rled : decode true 0b00000000000000000000000000000101#32 = .command .rled := by decide
theorem test_decode_anlz_char : decode true 0b00000000000000000000000100000110#32 = .command (.anlz .char) := by decide

/-- `95_test_vectors.md` 2.6, each rejected under the name of its case of R93. -/
theorem test_illegal_words :
    decode true 0x00000000#32 = .illegal .reservedOp ∧ decode true 0x00000007#32 = .illegal .reservedOp ∧
    decode true 0x000000FF#32 = .illegal .reservedOp ∧ decode true 0x00000102#32 = .illegal .domainNotAllowed ∧
    decode true 0x00000105#32 = .illegal .domainNotAllowed ∧ decode true 0x00000201#32 = .illegal .reservedBits ∧
    decode true 0x80000003#32 = .illegal .reservedBits ∧ decode true 0xFFFFFFFF#32 = .illegal .reservedOp := by decide

/-- R91, R93: `OP = 0x06` when `HAS_ANLZ = false`. -/
theorem test_illegal_analyzer : decode false 0x00000006#32 = .illegal .analyzerAbsent := by decide

/-- No word selects two rows: two rows differ in a bit both fix. -/
theorem test_opcode_rows_disjoint :
    opTable.Pairwise (fun a b => (a.pattern ^^^ b.pattern) &&& (a.mask &&& b.mask) ≠ 0#32) := by decide

/-- R106. -/
theorem test_assembler : assemble "ARLEC.C" = some (.arlec .char) ∧ encode (.arlec .char) = 0x00000104#32 ∧
    assemble "HUFD.B" = none ∧ assemble "RLEC" = none := by decide +kernel

theorem test_table_word : decodeTableWord 32 0x101 = some (.hufc .char) ∧ decodeTableWord 32 0x102 = none := by decide

/-! ## Well-formedness: one ill-formed term for each check -/

theorem test_illformed_anlz : (Instr.anlz .byte).wf false = false := by decide
theorem test_illformed_ibuf_empty : ({ Params.default with ibufSize := 0 } : Params).wf = false := by decide
theorem test_illformed_ibuf_large : ({ Params.default with ibufSize := 2 ^ 32 } : Params).wf = false := by decide
theorem test_illformed_obuf_empty : ({ Params.default with obufSize := 0 } : Params).wf = false := by decide
theorem test_illformed_obuf_large : ({ Params.default with obufSize := 2 ^ 32 } : Params).wf = false := by decide
theorem test_illformed_leaf_symbol : nodeFits .byte (.leaf 256 1) = false := by decide
theorem test_illformed_leaf_freq : nodeFits .byte (.leaf 0 (2 ^ 32)) = false := by decide
theorem test_illformed_internal_freq :
    nodeFits .byte (.internal (2 ^ 32) (.leaf 0 1) (.leaf 1 1)) = false := by decide
theorem test_illformed_left : nodeFits .byte (.internal 1 (.leaf 256 1) (.leaf 1 1)) = false := by decide
theorem test_illformed_right : nodeFits .byte (.internal 1 (.leaf 1 1) (.leaf 256 1)) = false := by decide
theorem test_illformed_wrap : nodeFits .byte (.wrap (2 ^ 32) (.leaf 0 1)) = false := by decide
theorem test_illformed_wrap_child : nodeFits .byte (.wrap 1 (.leaf 256 1)) = false := by decide
theorem test_illformed_single : itemFits .byte (.single 256) = false := by decide
theorem test_illformed_run_symbol : itemFits .char (.run 65536 2) = false := by decide
theorem test_illformed_run_count : itemFits .byte (.run 0 (2 ^ 32)) = false := by decide
theorem test_illformed_short_symbol : itemFits .byte (.shortRun 256 2) = false := by decide
theorem test_illformed_short_count : itemFits .byte (.shortRun 0 256) = false := by decide
theorem test_illformed_sequence_symbol : itemFits .byte (.sequence [0, 256]) = false := by decide
theorem test_illformed_sequence_length : itemFits .byte (.sequence (List.replicate 256 0)) = false := by decide +kernel
theorem test_illformed_basic :
    itemAllowed .basic (.shortRun 0 2) = false ∧ itemAllowed .basic (.sequence []) = false := by decide
theorem test_illformed_adaptive : itemAllowed .adaptive (.single 0) = false := by decide

/-! ## Units, `95_test_vectors.md` 2.7 -/

/-- V-U2, V-U6. -/
theorem test_pack : pack [true, false, true, true, false, true, false, true, true, false] =
    ([0xB5#8, 0x80#8], 6) := by decide

/-- V-U7. -/
theorem test_serialize_wrap : serialize .byte (.wrap 4 (.leaf 0x61 4)) =
    bytes [0x02, 4, 0, 0, 0, 0x00, 0x61, 4, 0, 0, 0] := by decide

/-- V-U8, V-U9. -/
theorem test_deserialize_malformed :
    deserialize .byte (bytes [0x01, 6, 0, 0, 0, 0x00, 0x63, 2, 0, 0, 0]) = none ∧
    deserialize .byte (bytes [0x00, 0x61, 4, 0, 0, 0, 0]) = none := by decide

/-- V-U11: `"aabcccd"` at 0, 2, 3, 6. -/
theorem test_runLen : [0, 2, 3, 6].map (runLenAt [97, 97, 98, 99, 99, 99, 100]) = [2, 1, 3, 1] := by decide

/-- V-U12: `"abcddddeffg"` at 0. -/
theorem test_takeSequence : takeSequence [97, 98, 99, 100, 100, 100, 100, 101, 102, 102, 103] =
    ([97, 98, 99], [100, 100, 100, 100, 101, 102, 102, 103]) := by decide

/-! ## Commands, one step each -/

/-- V-H6, CHAR. -/
theorem test_hufc_char : resultOf (step (busyOn .default (.hufc .char)
    (bytes [0x68, 0, 0x69, 0, 0x3A, 0x26, 0x68, 0, 0x69, 0]))) =
    some (0, 46, .char, [1, 0, 5, 0, 0, 0, 0x1F, 0, 0, 0, 1, 0, 0, 0, 1, 5, 0, 0, 0, 0, 0x69, 0, 2, 0, 0, 0,
      1, 3, 0, 0, 0, 0, 0x3A, 0x26, 1, 0, 0, 0, 0, 0x68, 0, 2, 0, 0, 0, 0xD6]) := by decide +kernel

/-- V-H2: one distinct symbol. -/
theorem test_hufc_repeated : resultOf (step (busyOn .default (.hufc .byte) (bytes [0x61, 0x61, 0x61, 0x61]))) =
    some (0, 26, .byte, [0, 4, 4, 0, 0, 0, 0x0B, 0, 0, 0, 1, 0, 0, 0, 2, 4, 0, 0, 0, 0, 0x61, 4, 0, 0, 0, 0]) := by
  decide +kernel

/-- V-HE14: an unfinished path is dropped. -/
theorem test_hufd_unfinished : resultOf (step (busyOn .default .hufd
    (bytes [0, 5, 6, 0, 0, 0, 0x1C, 0, 0, 0, 2, 0, 0, 0, 1, 6, 0, 0, 0, 0, 0x63, 2, 0, 0, 0, 1, 4, 0, 0, 0,
      0, 0x61, 2, 0, 0, 0, 0, 0x62, 2, 0, 0, 0, 0xB5, 0xA0]))) =
    some (0, 6, .byte, [0x61, 0x62, 0x63, 0x61, 0x62, 0x63]) := by decide +kernel

/-- V-HE15: a `1` bit at the wrapper. -/
theorem test_hufd_absent_child : resultOf (step (busyOn .default .hufd
    (bytes [0, 4, 4, 0, 0, 0, 0x0B, 0, 0, 0, 1, 0, 0, 0, 2, 4, 0, 0, 0, 0, 0x61, 4, 0, 0, 0, 0x40]))) =
    some (2, 0, .byte, []) := by decide +kernel

/-- V-R7, CHAR. -/
theorem test_rlec_char : resultOf (step (busyOn .default (.rlec .char) (bytes [0xE9, 0, 0xE9, 0, 0x7A, 0]))) =
    some (0, 20, .char, [1, 0, 3, 0, 0, 0, 0x0A, 0, 0, 0, 1, 0xE9, 0, 2, 0, 0, 0, 0, 0x7A, 0]) := by decide +kernel

/-- V-R8: `"abcd"` with `OBUF_SIZE = 16` needs 18 bytes. -/
theorem test_rlec_resource : resultOf (step (busyOn { Params.default with obufSize := 16 } (.rlec .byte)
    (bytes [0x61, 0x62, 0x63, 0x64]))) = some (6, 0, .byte, []) := by decide +kernel

/-- V-A6. -/
theorem test_arlec : resultOf (step (busyOn .default (.arlec .byte)
    (bytes [0x61, 0x62, 0x63, 0x64, 0x64, 0x64, 0x64, 0x65, 0x66, 0x66, 0x67]))) =
    some (0, 30, .byte, [0, 1, 0x0B, 0, 0, 0, 0x14, 0, 0, 0, 3, 3, 0x61, 0x62, 0x63, 1, 0x64, 4, 0, 0, 0, 3, 1, 0x65,
      2, 0x66, 2, 3, 1, 0x67]) := by decide +kernel

/-- V-A12, property S5: 256 symbols without equal neighbours split at 255. -/
theorem test_arlec_cap : (adaptiveItems (List.range 256)).map itemCount = [255, 1] := by decide +kernel

/-- V-RE4: an unknown tag wins over a length mismatch. -/
theorem test_rled_unknown_tag : resultOf (step (busyOn .default .rled
    (bytes [0, 0, 8, 0, 0, 0, 0x12, 0, 0, 0, 1, 0x61, 4, 0, 0, 0, 1, 0x62, 3, 0, 0, 0, 0x7F, 0x63, 2, 0, 0, 0]))) =
    some (4, 0, .byte, []) := by decide +kernel

/-- V-RE14: a huge count is counted, not built. -/
theorem test_rled_huge_run : resultOf (step (busyOn .default .rled
    (bytes [0, 0, 3, 0, 0, 0, 6, 0, 0, 0, 1, 0x61, 0xFF, 0xFF, 0xFF, 0xFF]))) = some (3, 0, .byte, []) := by
  decide +kernel

/-- V-N1. -/
theorem test_anlz : analysisOf (step (busyOn .default (.anlz .byte)
    (bytes [0x61, 0x61, 0x61, 0x61, 0x62, 0x62, 0x62, 0x63, 0x63]))) = some (3, 9, 4, 9, true) := by decide +kernel

/-- V-N6: the comparison is strict. -/
theorem test_anlz_strict : analysisOf (step (busyOn .default (.anlz .byte)
    (bytes [0x61, 0x61, 0x62, 0x63, 0x64, 0x65, 0x66, 0x67, 0x68, 0x69]))) = some (1, 2, 2, 10, false) := by
  decide +kernel

/-! ## Life of a command, reset -/

/-- Program P6, step 1: `RLEC.B` straight after reset ends with `EmptyInputError`. -/
theorem test_first_command : resultOf (step (State.reset.withFetchWord 32 0x3)) = some (1, 0, .byte, []) := by
  decide +kernel

/-- Program P6, step 5: `OP = 0x07`. -/
theorem test_illegal_command : resultOf (step (State.reset.withFetchWord 32 0x107)) = some (5, 0, .byte, []) := by
  decide +kernel

/-- R73, R262: input bytes never written since reset. -/
theorem test_unwritten_input :
    refusalOf (step ({ State.reset with ilen := 3#32 }.withFetchWord 32 0x3)) = some .unspecifiedInput := by decide +kernel

/-- R23: `STATUS` after an accept step, a success, an error. -/
theorem test_status_words : statusAccepted.word = 0b001#32 ∧ (statusCompleted false).word = 0b010#32 ∧
    (statusCompleted true).word = 0b110#32 := by decide

/-! ## Witnesses: every statement with hypotheses has an input that meets them -/

/-- Input of the witnesses: the stream `"aab"`. -/
def aab : List Symbol := [0x61, 0x61, 0x62]

/-- A host access waiting at the port of the reset state. -/
def waiting (a : HostAccess) (late : Bool) : State :=
  { State.reset with port := [{ access := a, late := late }] }

theorem aab_bound (d : Domain) : ∀ x ∈ aab, x < symbolBound d := by cases d <;> decide

theorem busyOn_streamIs (p : Params) (i : Instr) (d : Domain) (S : List Symbol)
    (h32 : (streamBytes d S).length < 2 ^ 32) (h : (streamBytes d S).length ≤ p.ibufSize) :
    InputIs (busyOn p i (streamBytes d S)) (streamBytes d S) := busyOn_inputIs p i _ h32 h

theorem busyOn_coreMovesNext (p : Params) (i : Instr) (bs : List Byte) : CoreMovesNext (busyOn p i bs) :=
  ⟨rfl, .inl rfl⟩

/-- A tree with three leaves, as V-H1 builds it. -/
def treeCab : Node := .internal 6 (.leaf 0x63 2) (.internal 4 (.leaf 0x61 2) (.leaf 0x62 2))

theorem witness_illegal_word : CoreMovesNext { busyOn .default .hufd [] with cmdr := 0x107#32 } ∧
    decode true 0x107#32 = .illegal .reservedOp := ⟨⟨rfl, .inl rfl⟩, by decide⟩

theorem witness_accept : (waiting (.regWrite 0x00 4 0x107#32) false).status.busy = false ∧
    (waiting (.regWrite 0x00 4 0x107#32) false).resetSeen = true ∧
    (waiting (.regWrite 0x00 4 0x107#32) false).port = [{ access := .regWrite 0x00 4 0x107#32, late := false }] :=
  ⟨rfl, rfl, rfl⟩

theorem witness_huff_encoding : (6 < 2 ^ 8 ∧ 6 < 2 ^ 32) ∧ nodeFits .byte treeCab = true ∧
    (serialize .byte treeCab).length < 2 ^ 32 ∧ (bytes [0xB5, 0x80]).length < 2 ^ 32 := by decide

theorem witness_rle_encoding : (∀ i ∈ [Item.run 0x61 (2 ^ 32 - 1), .shortRun 0x61 255, .sequence [0, 255]],
    itemFits .byte i = true ∧ itemAllowed .adaptive i = true) ∧
    (itemRecords .byte [Item.run 0x61 (2 ^ 32 - 1), .shortRun 0x61 255, .sequence [0, 255]]).length < 2 ^ 32 := by
  decide

theorem witness_rle_encoding_basic : ∀ i ∈ [Item.single 255, .run 0 0],
    itemFits .byte i = true ∧ itemAllowed .basic i = true := by decide

/-- Reset of a command in flight. -/
theorem witness_reset : ({ busyOn .default .hufd [] with
      port := [{ access := .reset, late := false }] } : State).port = [{ access := .reset, late := false }] ∧
    ¬ CoreMovesNext { busyOn .default .hufd [] with port := [{ access := .reset, late := false }] } := by
  refine ⟨rfl, ?_⟩
  rw [← coreTurn_iff]
  decide

theorem witness_core_step : CoreMovesNext (busyOn .default .hufd []) ∧
    decode true (busyOn .default .hufd []).cmdr = .command .hufd := ⟨busyOn_coreMovesNext _ _ _, by decide⟩

theorem witness_fetch : decodeTableWord 32 0x106 = some (.anlz .char) ∧
    (Instr.anlz .char).wf State.reset.cfg.hasAnlz = true := by decide

theorem witness_idle : State.reset.status.busy = false ∧ State.reset.port = [] := ⟨rfl, rfl⟩

/-- A state that meets the invariant and takes a step: an accept is waiting. -/
theorem witness_invariant : Inv (waiting (.regWrite 0x00 4 0x3#32) false) ∧
    step (waiting (.regWrite 0x00 4 0x3#32) false) = .next (acceptCommand 0x3#32 State.reset) := by
  refine ⟨⟨by decide, by decide, by decide, by decide, by decide, by decide, by decide, by decide, ?_, fun _ => by decide,
    fun _ => by decide, fun h => (by cases h), fun _ _ => rfl, fun h => absurd rfl h⟩, rfl⟩
  intro a
  exact ⟨fun h => (by cases h), fun h => absurd h (Nat.not_lt_zero a)⟩

theorem witness_completion : (busyOn .default .hufd []).cfg.wf = true ∧
    ∃ t, exec .hufd (busyOn .default .hufd []) = .next t :=
  ⟨by decide, takeError .malformedPayload (busyOn .default .hufd []), rfl⟩

theorem witness_input_written (d : Domain) : InputWritten (busyOn .default (.hufc d) (streamBytes d aab)) := by
  have h := busyOn_streamIs .default (.hufc d) d aab (by cases d <;> decide) (by cases d <;> decide)
  intro k hk
  rw [h.length] at hk
  rw [h.bytes k hk, List.getElem?_eq_getElem hk]
  rfl

theorem witness_busy : (busyOn .default .hufd []).status.busy = true := rfl

/-- Two blocks with the same input that differ in the tie-break and in a byte of `IBUF` above it. -/
theorem witness_same_input : Inv (busyOn .default .hufd (bytes [1])) ∧
    Inv { busyOn .default .hufd (bytes [1]) with
      cfg := { Params.default with tieBreak := .other 3 }
      ibuf := Memory.ofBytes 0 (bytes [1, 2]) } ∧
    (busyOn .default .hufd (bytes [1])).status.busy = true ∧
    SameInput (busyOn .default .hufd (bytes [1]))
      { busyOn .default .hufd (bytes [1]) with
        cfg := { Params.default with tieBreak := .other 3 }
        ibuf := Memory.ofBytes 0 (bytes [1, 2]) } ∧
    ∀ d, Instr.hufd ≠ .hufc d := by
  have hi : Inv (busyOn .default .hufd (bytes [1])) := busyOn_inv _ _ _ rfl (by decide)
  refine ⟨hi, ⟨rfl, hi.2, hi.3, hi.4, hi.5, by decide, by decide, hi.8, hi.9, hi.10, hi.11, hi.12, hi.13, hi.14⟩, rfl,
    ⟨rfl, rfl, rfl, rfl, fun k hk => ?_⟩, by simp⟩
  have hk' : k < 1 := hk
  obtain rfl : k = 0 := by omega
  rfl

theorem witness_same_input_answers : exec .hufd (busyOn .default .hufd (bytes [1])) =
    .next (takeError .malformedPayload (busyOn .default .hufd (bytes [1]))) := rfl

theorem witness_mem_write : Memory.wf [(3, 0xFF#8), (9, 0x01#8)] ∧ 0xFFFFFFFF < 256 ^ 4 := by decide

/-- Every register of R21 on a block with the analyzer, at the ends of the list. -/
theorem witness_registers : State.reset.resetSeen = true ∧ State.reset.cfg.hasAnlz = true ∧
    (0x14, if State.reset.odom = .char then 1 else 0) ∈ [(0x00, 0), (0x14, 0)] := by decide

/-- Boundary offsets of the reserved ranges, with and without the analyzer. -/
theorem witness_reserved : State.reset.resetSeen = true ∧
    (∀ off ∈ [0x18, 0x1C, 0x34, 0xFC, 0x20, 0x30], off % 4 = 0 ∧ off < 0x100) ∧
    ({ State.reset with cfg := { Params.default with hasAnlz := false } } : State).cfg.hasAnlz = false := by decide

theorem witness_host_read : ∃ t, hostAccess (.ibufRead 0 2) (busyOn .default .hufd (bytes [1, 2])) = .next t :=
  ⟨{ busyOn .default .hufd (bytes [1, 2]) with rdata := some 0x0201 }, next_of_nextOf (by decide +kernel)⟩

theorem witness_obuf_read : ∃ t, hostAccess (.obufRead 0 1)
    { State.reset with obuf := Memory.ofBytes 0 (bytes [5]), olen := 1#32 } = .next t :=
  ⟨_, next_of_nextOf (by decide +kernel : nextOf _ = some { State.reset with
    obuf := Memory.ofBytes 0 (bytes [5]), olen := 1#32, rdata := some 5 })⟩

/-- Valued bytes at the top of a buffer, of `IBUF` while a command is in flight. -/
theorem witness_valued_read : ∃ s : State, s.resetSeen = true ∧ s.status.busy = true ∧
    65534 + (bytes [1, 2]).length ≤ s.cfg.ibufSize ∧
    ∀ k, k < (bytes [1, 2]).length → Memory.byteAt s.ibuf (65534 + k) = (bytes [1, 2])[k]? :=
  ⟨{ busyOn .default .hufd [] with ibuf := Memory.ofBytes 65534 (bytes [1, 2]) }, rfl, rfl,
    (by decide : (65536 : Nat) ≤ 65536),
    fun k _ => (byteAt_ofBytes 65534 (65534 + k) (bytes [1, 2])).trans (by simp)⟩

theorem witness_valued_obuf_read : ∃ s : State, s.resetSeen = true ∧ s.status.busy = false ∧
    0 + (bytes [5]).length ≤ s.cfg.obufSize ∧
    ∀ k, k < (bytes [5]).length → Memory.byteAt s.obuf (0 + k) = (bytes [5])[k]? :=
  ⟨{ State.reset with obuf := Memory.ofBytes 0 (bytes [5]), olen := 1#32 }, by decide⟩

theorem witness_obuf_write : State.reset.resetSeen = true ∧
    65535 + (bytes [1]).length ≤ State.reset.cfg.obufSize := by decide

theorem witness_reg_read : ∃ t, hostAccess (.regRead 0xFC 4) State.reset = .next t :=
  ⟨{ State.reset with rdata := some 0 }, rfl⟩

/-- A write that ends at the top of `IBUF`. -/
theorem witness_ibuf_write : State.reset.resetSeen = true ∧ State.reset.status.busy = false ∧
    65534 + (bytes [1, 2]).length ≤ State.reset.cfg.ibufSize ∧ Memory.wf State.reset.ibuf := by decide

theorem witness_dropped_write (a : HostAccess) :
    ({ busyOn .default .hufd [] with port := [{ access := a, late := false }] } : State).port =
      [{ access := a, late := false }] ∧
    (busyOn .default .hufd []).status.busy = true ∧ (busyOn .default .hufd []).resetSeen = true ∧ (0x0C % 4 = 0 ∧ 0x0C < 0x100) ∧
    65535 + (bytes [1]).length ≤ (busyOn .default .hufd []).cfg.ibufSize ∧
    65535 + (bytes [1]).length ≤ (busyOn .default .hufd []).cfg.obufSize :=
  ⟨rfl, by decide⟩

/-- Unwritten bytes: a host read, a busy `OBUF`, and a command whose input is not all written. -/
theorem witness_unspecified : State.reset.resetSeen = true ∧ 65535 + 1 ≤ State.reset.cfg.ibufSize ∧
    Memory.byteAt State.reset.ibuf 65535 = none ∧ (busyOn .default .hufd []).status.busy = true := by decide

theorem witness_refused_command : exec .hufd { State.reset with ilenr := 14#32 } = .refused .unspecifiedInput ∧
    14 ≤ ({ State.reset with ilenr := 14#32 } : State).ilenr.toNat ∧
    Instr.hufd.wf State.reset.cfg.hasAnlz = true := ⟨rfl, by decide, rfl⟩

theorem witness_platform_access : State.reset.cfg.ibufSize < 65536 + 1 ∧ State.reset.cfg.obufSize < 65536 + 1 ∧
    (0x02 % 4 ≠ 0) ∧ ({ State.reset with resetSeen := false } : State).resetSeen = false ∧
    HostAccess.feedback ≠ .reset := by decide

theorem witness_feedback : ∃ s : State, s.resetSeen = true ∧ s.status.busy = false ∧ 0 < s.olen.toNat ∧
    s.olen.toNat ≤ s.cfg.ibufSize ∧ Memory.wf s.ibuf ∧
    ∀ k, k < s.olen.toNat → (Memory.byteAt s.obuf k).isSome = true :=
  ⟨{ State.reset with obuf := Memory.ofBytes 0 (bytes [5]), olen := 1#32 }, by decide⟩

/-- Two `CMD` writes at the port of an idle block with one input byte, the second landing early or late. -/
theorem witness_two_outcomes (late : Bool) : ∃ s : State, s.status.busy = false ∧ s.resetSeen = true ∧
    s.port = [{ access := .regWrite 0x00 4 0x3#32, late := false }, { access := .regWrite 0x00 4 0x4#32, late := late }] ∧
    s.ilen = 1#32 ∧ ∀ k, k < s.ilen.toNat → (Memory.byteAt s.ibuf k).isSome = true :=
  ⟨{ State.reset with
      ilen := 1#32
      ibuf := [(0, 7#8)]
      port := [{ access := .regWrite 0x00 4 0x3#32, late := false },
        { access := .regWrite 0x00 4 0x4#32, late := late }] }, rfl, rfl, rfl, rfl,
    (by decide : ∀ k, k < (1#32).toNat → (Memory.byteAt [(0, 7#8)] k).isSome = true)⟩

/-- An idle block with the accesses of a contract to come. -/
theorem witness_contract (polls : Nat) : ∃ s : State, s.cfg.wf = true ∧ s.resetSeen = true ∧ s.status.busy = false ∧
    Memory.wf s.ibuf ∧ (Contract.analyze (bytes [1, 1]) .char).input.length ≤ s.cfg.ibufSize ∧
    (Contract.analyze (bytes [1, 1]) .char).command.wf s.cfg.hasAnlz = true ∧
    s.port = ((Contract.analyze (bytes [1, 1]) .char).steps polls).flatMap (HostStep.accesses false) :=
  ⟨{ State.reset with port := ((Contract.analyze (bytes [1, 1]) .char).steps polls).flatMap (HostStep.accesses false) },
    rfl, rfl, rfl, List.Pairwise.nil, (by decide : (2 : Nat) ≤ 65536), rfl, rfl⟩

/-- A tie-break other than `MINSEQ`, and an input with equal frequencies. -/
theorem witness_picker : Picker.valid (pickerOf (.other 1)) ∧ aab ++ [0x62] ≠ [] :=
  ⟨pickerOf_valid _, by decide⟩

/-- A queue of two nodes of equal frequency, the second of which both are least. -/
theorem witness_queue : Picker.valid (pickerOf (.other 1)) ∧ [0, 1] ≠ [] ∧ 2 ≤ [0, 1].length ∧ 1 ∈ [0, 1] ∧
    ∀ j ∈ [0, 1], (nodeAt [.leaf 7 4, .leaf 8 4] 1).freq ≤ (nodeAt [.leaf 7 4, .leaf 8 4] j).freq :=
  ⟨pickerOf_valid _, by decide, by decide, by decide, by decide⟩

/-- A prefix code other than the built one. -/
theorem witness_prefix_code : prefixCode aab (fun x => if x = 0x61 then [true, false] else [false]) :=
  ⟨by decide, by decide⟩

/-- A built tree: V-H5. -/
theorem witness_built : Picker.valid (pickerOf .minSeq) ∧ aab ≠ [] ∧
    build (pickerOf .minSeq) (freq aab) = some (.internal 3 (.leaf 0x62 1) (.leaf 0x61 2)) :=
  ⟨pickerOf_valid _, by decide, by decide⟩

/-- A built tree of one distinct symbol. -/
theorem witness_built_one : build (pickerOf .minSeq) (freq [0x61, 0x61]) = some (.wrap 2 (.leaf 0x61 2)) ∧
    [0x61, 0x61].dedup.length = 1 ∧ aab.dedup.length = 2 := by decide

theorem witness_node_fits : nodeFits .char (.internal 3 (.leaf 65535 1) (.wrap 2 (.leaf 0 2))) = true := by decide

/-- The codes of V-H1: two whole paths and an unfinished one. -/
theorem witness_walk : rootHasChild treeCab ∧ (∀ x ∈ [(0x61, [true, false]), (0x63, [false])], x ∈ codes treeCab) ∧
    (0x62, [true, true]) ∈ codes treeCab ∧ [true] <+: [true, true] ∧ [true] ≠ [true, true] := by
  refine ⟨trivial, by decide, by decide, ⟨[true], rfl⟩, by decide⟩

/-- A wrapper below an internal node, reached after a symbol. -/
theorem witness_wrapper_below : nodeOn (.internal 3 (.leaf 1 1) (.wrap 2 (.leaf 2 2))) [true] =
    some (.wrap 2 (.leaf 2 2)) ∧
    ∀ e ∈ [(1, [false])], e ∈ codes (.internal 3 (.leaf 1 1) (.wrap 2 (.leaf 2 2))) := by decide

/-- The walk fails there, and not on the left (R147 (a)). -/
theorem test_walk_wrapper_below :
    walkBits (.internal 3 (.leaf 1 1) (.wrap 2 (.leaf 2 2))) [false, true, true] = none ∧
    walkBits (.internal 3 (.leaf 1 1) (.wrap 2 (.leaf 2 2))) [false, true, false] = some [1, 2] := by decide

/-- A non-empty symbol stream in flight, for each compress command and the analyzer. -/
theorem witness_stream (i : Instr) (d : Domain) : (busyOn .default i (streamBytes d aab)).cfg.wf = true ∧ aab ≠ [] ∧
    (∀ x ∈ aab, x < symbolBound d) ∧ InputIs (busyOn .default i (streamBytes d aab)) (streamBytes d aab) :=
  ⟨rfl, by decide, aab_bound d, busyOn_streamIs _ _ _ _ (by cases d <;> decide) (by cases d <;> decide)⟩

/-- Both branches on `OBUF_SIZE`: a buffer of 16 bytes is too small for a Huffman payload. -/
theorem witness_stream_small (i : Instr) (d : Domain) :
    ({ Params.default with obufSize := 16 } : Params).wf = true ∧
    InputIs (busyOn { Params.default with obufSize := 16 } i (streamBytes d aab)) (streamBytes d aab) :=
  ⟨by decide, busyOn_streamIs _ _ _ _ (by cases d <;> decide) (by cases d <;> decide)⟩

theorem witness_repeated (d : Domain) : 1 ≤ 9 ∧ 0x61 < symbolBound d ∧
    InputIs (busyOn .default (.hufc d) (streamBytes d (List.replicate 9 0x61))) (streamBytes d (List.replicate 9 0x61)) ∧
    24 + symb d + (9 + 7) / 8 ≤ Params.default.obufSize :=
  ⟨by decide, by cases d <;> decide, busyOn_streamIs _ _ _ _ (by cases d <;> decide) (by cases d <;> decide),
    by cases d <;> decide⟩

/-- `HUFC` answers a next state under both tie-breaks. -/
theorem witness_tie_breaks (k : TieBreak) : ∃ t, exec (.hufc .byte)
    (busyOn { Params.default with tieBreak := k } (.hufc .byte) (streamBytes .byte aab)) = .next t :=
  ⟨_, streamCommand_of_stream .byte _ _ aab (by decide) (aab_bound .byte)
    (busyOn_streamIs _ _ _ _ (by decide) (by show _ ≤ 65536; decide))⟩

/-- A payload in flight: each case of the length check is met by some `ORIGLEN`. -/
theorem witness_huff_payload (origLen : Nat) : (busyOn .default .hufd
      (encHuff .byte 6 origLen treeCab (bytes [0xB5, 0x80]))).cfg.wf = true ∧
    6 ≤ 7 ∧ (bytes [0xB5, 0x80] ≠ [] ∨ 6 = 0) ∧ nodeFits .byte treeCab = true ∧
    InputIs (busyOn .default .hufd (encHuff .byte 6 origLen treeCab (bytes [0xB5, 0x80])))
      (encHuff .byte 6 origLen treeCab (bytes [0xB5, 0x80])) := by
  have hl : (encHuff .byte 6 origLen treeCab (bytes [0xB5, 0x80])).length = 44 := by
    simp [encHuff, bytes, treeCab, serialize, symb]
  exact ⟨rfl, by decide, .inl (by decide), by decide,
    busyOn_inputIs _ _ _ (by rw [hl]; decide) (by rw [hl]; decide)⟩

theorem witness_huff_walks : walkBits treeCab (unpack (bytes [0xB5, 0x80]) 6) =
    some [0x61, 0x62, 0x63, 0x61, 0x62, 0x63] ∧
    walkBits (.wrap 4 (.leaf 0x61 4)) (unpack (bytes [0x40]) 4) = none := by decide

theorem witness_leaf_root : 4 ≤ 7 ∧ (bytes [0xF0] ≠ [] ∨ 4 = 0) ∧ 0x61 < symbolBound .byte ∧ (4 : Nat) < 2 ^ 32 ∧
    InputIs (busyOn .default .hufd (encHuff .byte 4 (8 * (bytes [0xF0]).length - 4) (.leaf 0x61 4) (bytes [0xF0])))
      (encHuff .byte 4 (8 * (bytes [0xF0]).length - 4) (.leaf 0x61 4) (bytes [0xF0])) ∧
    (8 * (bytes [0xF0]).length - 4) * symb .byte ≤ Params.default.obufSize :=
  ⟨by decide, .inl (by decide), by decide, by decide, busyOn_inputIs _ _ _ (by decide) (by decide), by decide⟩

/-- A property of the next state of an outcome, computed. -/
theorem next_with {o : Host.Outcome State Fault Refusal} (P : State → Bool) (h : (nextOf o).map P = some true) :
    ∃ t, o = .next t ∧ P t = true := by
  cases o with
  | next t => exact ⟨t, rfl, by simpa [nextOf] using h⟩
  | fault f => cases f
  | refused r => cases h

/-- The two halves of a round trip, on a second block of any sizes: a successful compress of three bytes, and a block
whose `IBUF` holds its payload of 11 bytes or more. -/
theorem witness_round_trip (i : Instr) (hi : i = .hufc .byte ∨ i = .rlec .byte ∨ i = .arlec .byte) (j : Instr)
    (p : Params) : ∃ s t u : State, s.cfg.wf = true ∧ exec i s = .next t ∧ t.errcode = 0#8 ∧ u.ilenr = t.olen ∧
      (∀ k, k < t.olen.toNat → Memory.byteAt u.ibuf k = Memory.byteAt t.obuf k) ∧ u.cfg = p ∧
      s.ilenr.toNat = 3 ∧ 11 ≤ t.olen.toNat ∧ t.olen.toNat ≤ 65536 ∧ u.cmdr = encode j := by
  have H : ∃ t, exec i (busyOn .default i (bytes [0x61, 0x61, 0x62])) = .next t ∧
      decide (t.errcode = 0#8 ∧ 11 ≤ t.olen.toNat ∧ t.olen.toNat ≤ 65536) = true := by
    rcases hi with rfl | rfl | rfl <;> exact next_with _ (by decide +kernel)
  obtain ⟨t, ht, hp⟩ := H
  simp only [decide_eq_true_eq] at hp
  exact ⟨_, t, { busyOn p j [] with ibuf := t.obuf, ilenr := t.olen }, rfl, ht, hp.1, rfl, fun _ _ => rfl, rfl, rfl,
    hp.2.1, hp.2.2, rfl⟩

/-- The payload of the second half of the Huffman round trip. -/
theorem witness_huff_payload_size : Picker.valid (pickerOf .minSeq) ∧ aab ≠ [] ∧ aab.length < 2 ^ 32 ∧
    (∀ x ∈ aab, x < symbolBound .byte) ∧
    build (pickerOf .minSeq) (freq aab) = some (.internal 3 (.leaf 0x62 1) (.leaf 0x61 2)) ∧
    (hufcPayload .byte (.internal 3 (.leaf 0x62 1) (.leaf 0x61 2)) aab).length < 2 ^ 32 ∧
    aab.length * symb .byte ≤ Params.default.obufSize :=
  ⟨pickerOf_valid _, by decide, by decide, by decide, by decide, by decide +kernel, by decide⟩

theorem witness_run_list : isRunList [(0x61, 2), (0x62, 1), (0x61, 1)] ∧ [(0x61, 2), (0x62, 1), (0x61, 1)] ≠ [] ∧
    (∀ r ∈ [(0x61, 2), (0x62, 1), (0x61, 1)], r.1 < symbolBound .byte) ∧
    (spell [(0x61, 2), (0x62, 1), (0x61, 1)])[3]? = some 0x61 := by
  refine ⟨⟨by decide, ?_⟩, by decide, by decide, by decide⟩
  simp [neighboursDiffer]

theorem witness_anlz_input : Params.default.hasAnlz = true ∧
    InputIs (busyOn .default (.anlz .byte) (streamBytes .byte (spell [(0x61, 2), (0x62, 1), (0x61, 1)])))
      (streamBytes .byte (spell [(0x61, 2), (0x62, 1), (0x61, 1)])) :=
  ⟨rfl, busyOn_streamIs _ _ _ _ (by decide) (by decide)⟩

theorem witness_anlz_succeeds : ∃ s t, exec (.anlz .byte) s = .next t ∧ t.errcode = 0#8 ∧ 0 < t.an.runCount.toNat := by
  obtain ⟨t, ht⟩ := Option.isSome_iff_exists.mp (show (nextOf (exec (.anlz .byte)
    (busyOn .default (.anlz .byte) (bytes [0x61, 0x61])))).isSome = true by decide +kernel)
  have hp : ((nextOf (exec (.anlz .byte) (busyOn .default (.anlz .byte) (bytes [0x61, 0x61])))).map
    (fun t => decide (t.errcode = 0#8 ∧ 0 < t.an.runCount.toNat))) = some true := by decide +kernel
  rw [ht] at hp
  simp only [Option.map_some, Option.some.injEq, decide_eq_true_eq] at hp
  exact ⟨_, t, next_of_nextOf ht, hp.1, hp.2⟩

theorem witness_anlz_absent :
    (busyOn { Params.default with hasAnlz := false } (.anlz .byte) []).cfg.hasAnlz = false := rfl

theorem witness_long_sequence : (List.range 256).length = 256 ∧ neighboursDiffer (List.range 256) := by
  refine ⟨List.length_range, ?_⟩
  rw [neighboursDiffer, List.isChain_iff_getElem]
  intro i hi
  simp

/-- A payload whose count is `ORIGLEN`, or is not, or exceeds `OBUF`. -/
theorem witness_rled_payload (origLen : Nat) : (∀ i ∈ [Item.run 0x61 4, .shortRun 0x62 3, .sequence []],
      itemFits .byte i = true ∧ itemAllowed .adaptive i = true) ∧
    InputIs (busyOn .default .rled (encRle .byte .adaptive origLen [Item.run 0x61 4, .shortRun 0x62 3, .sequence []]))
      (encRle .byte .adaptive origLen [Item.run 0x61 4, .shortRun 0x62 3, .sequence []]) := by
  have hl : (encRle .byte .adaptive origLen [Item.run 0x61 4, .shortRun 0x62 3, .sequence []]).length = 21 := by
    simp [encRle, itemRecord, symb]
  exact ⟨by decide, busyOn_inputIs _ _ _ (by rw [hl]; decide) (by rw [hl]; decide)⟩

/-- Unrecognised tags at the boundaries of R103: 2 in a basic payload, 0 and 4 in an adaptive one. -/
theorem witness_rled_unknown_tag (tag : Byte) (alg : Algo) : ∃ s : State,
    9 * symb .byte ≤ s.cfg.obufSize ∧ InputIs s ([domainCode .byte, algoCode alg] ++ leBytes 4 9 ++
      leBytes 4 ((itemRecords .byte [Item.run 0x61 4]).length + 1 + 0) ++ itemRecords .byte [Item.run 0x61 4] ++
        [tag]) := by
  refine ⟨busyOn .default .rled _, ?_, busyOn_inputIs _ _ _ ?_ ?_⟩ <;> simp [busyOn, Params.default, itemRecord, symb]

theorem witness_items_before : ∀ alg : Algo, ∀ i ∈ [Item.run 0x61 4], itemFits .byte i = true ∧ itemAllowed alg i = true := by
  intro alg; cases alg <;> decide

theorem witness_tag_boundaries : (2 ≤ (2#8 : Byte).toNat) ∧ ((0#8 : Byte).toNat = 0) ∧ (4 ≤ (4#8 : Byte).toNat) ∧
    (4 ≤ (255#8 : Byte).toNat) := by decide

/-- Truncated records: each tag one byte short, the sequence with and without its length byte. -/
theorem witness_rled_truncated : ([] : List Byte).length < symb .byte ∧ (bytes [1, 2, 3, 4]).length < symb .byte + 4 ∧
    (bytes [1]).length < symb .byte + 1 ∧
    (∀ n ∈ (bytes [3, 1, 2]).head?, (bytes [3, 1, 2]).length < 1 + n.toNat * symb .byte) ∧
    (∀ n ∈ ([] : List Byte).head?, ([] : List Byte).length < 1 + n.toNat * symb .byte) := by decide

/-- A payload that ends inside a record, whatever the bytes of the record that are there. -/
theorem witness_rled_truncated_input (alg : Algo) (tag : Byte) (rest : List Byte) (h : rest.length ≤ 4) : ∃ s : State,
    9 * symb .byte ≤ s.cfg.obufSize ∧ InputIs s ([domainCode .byte, algoCode alg] ++ leBytes 4 9 ++
      leBytes 4 ((itemRecords .byte [Item.run 0x61 4]).length + 1 + rest.length) ++
        itemRecords .byte [Item.run 0x61 4] ++ tag :: rest) := by
  refine ⟨busyOn .default .rled _, (by decide : 9 * symb .byte ≤ 65536), busyOn_inputIs _ _ _ ?_ ?_⟩ <;>
    simp [Params.default, itemRecord, symb] <;> omega

/-- The checks on `ILEN`: an odd length of characters, a length above `IBUF`, an empty input. -/
theorem witness_length_errors : streamDomain (.hufc .char) = some .char ∧
    ({ State.reset with ilenr := 3#32 } : State).ilenr.toNat % symb .char ≠ 0 ∧
    State.reset.cfg.ibufSize < ({ State.reset with ilenr := 65538#32 } : State).ilenr.toNat ∧
    ({ State.reset with ilenr := 65538#32 } : State).ilenr.toNat % symb .char = 0 ∧
    State.reset.ilenr.toNat = 0 := by decide

/-- The header checks at the first value each refuses. -/
theorem witness_header_errors :
    (1 < field (bytes [2, 0]) 0 1) ∧ (7 < field (bytes [0, 8]) 1 1) ∧ (1 < field (bytes [0, 2]) 1 1) ∧
    (14 + field (bytes [0, 0, 0, 0, 0, 0, 1, 0, 0, 0, 0, 0, 0, 0]) 6 4 +
      field (bytes [0, 0, 0, 0, 0, 0, 1, 0, 0, 0, 0, 0, 0, 0]) 10 4 ≠ 14) ∧
    (field (bytes [0, 1, 0, 0, 0, 0, 0, 0, 0, 0, 0, 0, 0, 0]) 10 4 = 0 ∧
      field (bytes [0, 1, 0, 0, 0, 0, 0, 0, 0, 0, 0, 0, 0, 0]) 1 1 ≠ 0) ∧
    (10 + field (bytes [0, 0, 0, 0, 0, 0, 1, 0, 0, 0]) 6 4 ≠ 10) := by decide

/-- One byte short of each header. -/
theorem witness_header_lengths : ({ State.reset with ilenr := 13#32 } : State).ilenr.toNat < 14 ∧
    ({ State.reset with ilenr := 9#32 } : State).ilenr.toNat < 10 ∧
    ({ State.reset with ilenr := 13#32 } : State).ilenr.toNat ≤ State.reset.cfg.ibufSize ∧
    State.reset.cfg.ibufSize < ({ State.reset with ilenr := 65537#32 } : State).ilenr.toNat := by decide

theorem witness_header_input (bs : List Byte) (h : bs.length ≤ 14) : InputIs (busyOn .default .hufd bs) bs :=
  busyOn_inputIs _ _ _ (by omega) (by show bs.length ≤ 65536; omega)

/-- An empty tree region is no serialized tree. -/
theorem witness_malformed_tree : (∀ T, nodeFits .byte T = true → serialize .byte T ≠ []) ∧
    InputIs (busyOn .default .hufd ([domainCode .byte, BitVec.ofNat 8 0] ++ leBytes 4 0 ++ leBytes 4 0 ++ leBytes 4 0))
      ([domainCode .byte, BitVec.ofNat 8 0] ++ leBytes 4 0 ++ leBytes 4 0 ++ leBytes 4 0) :=
  ⟨fun T _ => by cases T <;> simp [serialize], busyOn_inputIs _ _ _ (by decide) (by decide)⟩

theorem witness_failed_command : ∃ t, exec .hufd (busyOn .default .hufd []) = .next t ∧ t.errcode ≠ 0#8 :=
  ⟨takeError .malformedPayload (busyOn .default .hufd []), rfl, by decide⟩

theorem witness_result_stays : State.reset.status.busy = false ∧ HostAccess.regRead 0x04 4 ≠ .reset ∧
    (∀ width w, HostAccess.regRead 0x04 4 ≠ .regWrite 0x00 width w) ∧
    ∃ t, hostAccess (.regRead 0x04 4) State.reset = .next t :=
  ⟨rfl, by decide, fun _ _ => by simp, { State.reset with rdata := some 0 }, rfl⟩

/-- No step on a small state faults: the fault type is empty (R230, R241). -/
theorem test_no_fault : faulted (step State.reset) = false := rfl

end Sys2Proof.Tests
end

section
/-!
SUPPORT. What one step can do to the state (`10_state.md` R44, R45, `20_memory.md` R68), said once: the result a
completion publishes fits `OBUF`, and a host access has one of five effects. The invariant of the block and the
constancy of its parameters follow from it.
-/

namespace Sys2Proof.Proofs

open Sys2Proof.Machine Sys2Proof.Laws

/-! ## The result a command publishes, R45, R238 -/

/-- What `exec i` may publish on a block with parameters `p`: an error, a result that fits `OBUF` and leaves the `AN_*`
registers alone, or, for `ANLZ` on a block that has it, the five values and no output byte (R26, R28). -/
def ResultFits (p : Params) (i : Instr) : CmdResult → Prop
  | .err _ => True
  | .ok out _ none => out.length ≤ p.obufSize
  | .ok out _ (some _) => out = [] ∧ p.hasAnlz = true ∧ ∃ d, i = .anlz d

@[simp] theorem resultFits_err (p : Params) (i : Instr) (e : CmdError) : ResultFits p i (.err e) := trivial

/-- Check 10 of R238 bounds the payload of every compress command. -/
theorem finishEncode_fits (p : Params) (i : Instr) (d : Domain) (payload : List Byte) :
    ResultFits p i (finishEncode p d payload) := by
  rcases finishEncode_cases p d payload with ⟨hlen, heq⟩ | ⟨_, heq⟩
  · rw [heq]; exact hlen
  · rw [heq]; exact resultFits_err p i _

theorem hufcBody_fits (p : Params) (i : Instr) (d : Domain) (S : List Symbol) :
    ResultFits p i (hufcBody p d S) := by
  unfold hufcBody
  split
  · exact resultFits_err p i _
  · exact finishEncode_fits p i d _

/-- A decoded stream of the length the header claims fits `OBUF` when the claim passed the capacity check. -/
theorem streamBytes_fits (p : Params) (i : Instr) (d : Domain) (syms : List Symbol) (origLen : Nat)
    (hcap : ¬ origLen * symb d > p.obufSize) (hlen : syms.length = origLen) :
    ResultFits p i (.ok (streamBytes d syms) d none) := by
  show (streamBytes d syms).length ≤ p.obufSize
  rw [length_streamBytes, hlen]
  exact not_lt.mp hcap

theorem hufdDecode_fits (p : Params) (i : Instr) (h : HuffHeader) (T : Node) (packed : List Byte) :
    ResultFits p i (hufdDecode p h T packed) := by
  simp only [hufdDecode]
  split_ifs with hcap
  · exact resultFits_err p i _
  · split
    · exact resultFits_err p i _
    · split_ifs with hlen
      · exact resultFits_err p i _
      · exact streamBytes_fits p i _ _ _ hcap (not_not.mp hlen)

theorem hufdBody_fits (p : Params) (i : Instr) (input : List Byte) : ResultFits p i (hufdBody p input) := by
  simp only [hufdBody]
  split_ifs
  · split
    · exact resultFits_err p i _
    · exact hufdDecode_fits p i _ _ _
  · exact resultFits_err p i _

/-- `NOUT` counts the symbols the items expand to (R200, R201). -/
theorem length_expandAll (items : List Item) : (expandAll items).length = itemsCount items := by
  induction items with
  | nil => rfl
  | cons item items ih =>
    have hitem : (expand item).length = itemCount item := by cases item <;> simp [expand, itemCount]
    simp [hitem, ih]

theorem rledBody_fits (p : Params) (i : Instr) (input : List Byte) : ResultFits p i (rledBody p input) := by
  simp only [rledBody]
  split_ifs with _ hcap
  · exact resultFits_err p i _
  · split
    · exact resultFits_err p i _
    · split_ifs with hlen
      · exact resultFits_err p i _
      · exact streamBytes_fits p i _ _ _ hcap ((length_expandAll _).trans (not_not.mp hlen))
  · exact resultFits_err p i _

theorem anlzBody_fits {p : Params} {d : Domain} (hanlz : p.hasAnlz = true) (S : List Symbol) :
    ResultFits p (.anlz d) (anlzBody d S) := ⟨rfl, hanlz, d, rfl⟩

/-- A command over a symbol stream publishes an error or what its body answers. -/
theorem streamCommand_publishes {P : CmdResult → Prop} {d : Domain} {s t : State} {body : List Symbol → CmdResult}
    (herr : ∀ e, P (.err e)) (hbody : ∀ S, P (body S)) (h : streamCommand d s body = .next t) :
    ∃ r, P r ∧ t = publish r s := by
  rcases streamCommand_cases d s body with ⟨_, e⟩ | ⟨_, _, e⟩ | ⟨_, _, e⟩ | ⟨_, _, _, _, e⟩ | ⟨_, _, _, _, _, _, e⟩ <;>
    cases e.symm.trans h
  · exact ⟨.err _, herr _, rfl⟩
  · exact ⟨.err _, herr _, rfl⟩
  · exact ⟨.err _, herr _, rfl⟩
  · exact ⟨_, hbody _, rfl⟩

/-- A command over a payload publishes an error or what its body answers. -/
theorem payloadCommand_publishes {P : CmdResult → Prop} {n : Nat} {s t : State} {body : List Byte → CmdResult}
    (herr : ∀ e, P (.err e)) (hbody : ∀ input, P (body input)) (h : payloadCommand n s body = .next t) :
    ∃ r, P r ∧ t = publish r s := by
  rcases payloadCommand_cases n s body with ⟨_, e⟩ | ⟨_, _, e⟩ | ⟨_, _, _, e⟩ | ⟨_, _, _, _, _, e⟩ <;>
    cases e.symm.trans h
  · exact ⟨.err _, herr _, rfl⟩
  · exact ⟨.err _, herr _, rfl⟩
  · exact ⟨_, hbody _, rfl⟩

/-- Every command publishes a result that fits. -/
theorem exec_publishes {i : Instr} {s t : State} (h : exec i s = .next t) :
    ∃ r, ResultFits s.cfg i r ∧ t = publish r s := by
  have herr := resultFits_err s.cfg i
  cases i with
  | hufc d => exact streamCommand_publishes herr (hufcBody_fits s.cfg _ d) h
  | hufd => exact payloadCommand_publishes herr (hufdBody_fits s.cfg _) h
  | rlec d => exact streamCommand_publishes (body := rlecBody s.cfg d) herr (fun _ => finishEncode_fits s.cfg _ d _) h
  | arlec d => exact streamCommand_publishes (body := arlecBody s.cfg d) herr (fun _ => finishEncode_fits s.cfg _ d _) h
  | rled => exact payloadCommand_publishes herr (rledBody_fits s.cfg _) h
  | anlz d =>
    by_cases hanlz : s.cfg.hasAnlz = true
    · rw [show exec (.anlz d) s = streamCommand d s (anlzBody d) from if_pos hanlz] at h
      exact streamCommand_publishes herr (anlzBody_fits hanlz) h
    · rw [show exec (.anlz d) s = .next (takeError .illegalCommand s) from if_neg hanlz] at h
      cases h
      exact ⟨.err .illegalCommand, herr _, rfl⟩

/-- The completion step publishes an error, or a result that fits the latched command (R45, R93). -/
theorem completionStep_publishes {s t : State} (h : completionStep s = .next t) :
    (∃ e, t = takeError e s) ∨
    ∃ i r, decode s.cfg.hasAnlz s.cmdr = .command i ∧ ResultFits s.cfg i r ∧ t = publish r s := by
  unfold completionStep at h
  cases hdec : decode s.cfg.hasAnlz s.cmdr with
  | command i =>
    simp only [hdec] at h
    obtain ⟨r, hfits, ht⟩ := exec_publishes h
    exact .inr ⟨i, r, rfl, hfits, ht⟩
  | illegal why =>
    simp only [hdec] at h
    cases h
    exact .inl ⟨_, rfl⟩

/-! ## The effect of a host access, R16, R64 -/

/-- All that one host access can do to the state. -/
inductive HostEffect (s : State) : State → Prop
  /-- A write that is ignored (R29, R31, R72). -/
  | ignored : HostEffect s s
  /-- A read answers (R64). -/
  | answered (v : Nat) : HostEffect s { s with rdata := some v }
  /-- `CMD` is written on an idle block (R44). -/
  | accepted (w : Word) : s.status.busy = false → HostEffect s (acceptCommand w s)
  /-- `IBUF`, `ILEN` or, by `FEEDBACK`, both are written on an idle block (R25, R30, R107). -/
  | loaded (addr : Nat) (bytes : List Byte) (w : Word) : s.status.busy = false →
      addr + bytes.length ≤ s.cfg.ibufSize →
      HostEffect s { s with ibuf := Memory.setBytes s.ibuf addr bytes, ilen := w }
  /-- Reset (R260). -/
  | reset : HostEffect s (hostReset s)

theorem hostRegRead_effect {off width : Nat} {s t : State} (h : hostRegRead off width s = .next t) :
    HostEffect s t := by
  unfold hostRegRead at h
  split_ifs at h
  cases h
  exact .answered _

/-- A write of `REG` is ignored, starts a command or writes `ILEN` (R22, R25, R29). -/
theorem regWriteEffect_effect (off : Nat) (w : Word) (s : State) : HostEffect s (regWriteEffect off w s) := by
  rcases regWriteEffect_cases off w s with ⟨_, e⟩ | ⟨hb, _, e⟩ | ⟨hb, _, e⟩ | ⟨_, _, _, e⟩ <;> rw [e]
  · exact .ignored
  · exact .accepted w hb
  · exact .loaded 0 [] w hb (Nat.zero_le _)
  · exact .ignored

theorem hostRegWrite_effect {off width : Nat} {w : Word} {s t : State} (h : hostRegWrite off width w s = .next t) :
    HostEffect s t := by
  unfold hostRegWrite at h
  split_ifs at h
  cases h
  exact regWriteEffect_effect off w s

theorem hostBufferRead_effect {buffer : Memory} {size addr n : Nat} {s t : State}
    (h : hostBufferRead buffer size addr n s = .next t) : HostEffect s t := by
  rcases hostBufferRead_cases buffer size addr n s with ⟨_, e⟩ | ⟨_, _, e⟩ | ⟨_, _, _, e⟩ <;> cases e.symm.trans h
  exact .answered _

theorem hostIbufWrite_effect {addr : Nat} {bytes : List Byte} {s t : State}
    (h : hostIbufWrite addr bytes s = .next t) : HostEffect s t := by
  rcases hostIbufWrite_cases addr bytes s with ⟨_, e⟩ | ⟨_, _, e⟩ | ⟨hfit, hb, e⟩ <;> cases e.symm.trans h
  · exact .ignored
  · exact .loaded addr bytes s.ilen hb hfit

theorem hostObufWrite_effect {addr : Nat} {bytes : List Byte} {s t : State}
    (h : hostObufWrite addr bytes s = .next t) : HostEffect s t := by
  unfold hostObufWrite at h
  split_ifs at h
  cases h
  exact .ignored

theorem regWriteEffect_ilen {s : State} (w : Word) (hb : s.status.busy = false) :
    regWriteEffect 0x0C w s = { s with ilen := w } := by
  simp [regWriteEffect, hb]

theorem hostFeedback_effect {s t : State} (h : hostFeedback s = .next t) : HostEffect s t := by
  unfold hostFeedback at h
  cases hb : s.status.busy with
  | true =>
    simp only [hb, if_true] at h
    cases h
    exact .ignored
  | false =>
    simp only [hb, Bool.false_eq_true, if_false] at h
    cases hr : Memory.range s.obuf 0 s.olen.toNat with
    | none => simp only [hr] at h; cases h
    | some bytes =>
      simp only [hr] at h
      rcases hostIbufWrite_cases 0 bytes s with ⟨_, e⟩ | ⟨_, hb', _⟩ | ⟨hfit, _, e⟩
      · simp only [e] at h; cases h
      · cases hb.symm.trans hb'
      · simp only [e] at h
        cases h
        rw [regWriteEffect_ilen]
        · exact .loaded 0 bytes s.olen hb hfit
        · exact hb

/-- Every host access that answers has one of the effects of `HostEffect`. -/
theorem hostAccess_effect {a : HostAccess} {s t : State} (h : hostAccess a s = .next t) : HostEffect s t := by
  have seen {o : Host.Outcome State Fault Refusal}
      (ho : (if s.resetSeen = true then o else .refused .beforeFirstReset) = .next t) : o = .next t := by
    split_ifs at ho
    exact ho
  cases a with
  | regRead off width => exact hostRegRead_effect (seen h)
  | regWrite off width w => exact hostRegWrite_effect (seen h)
  | ibufRead addr n => exact hostBufferRead_effect (seen h)
  | ibufWrite addr bytes => exact hostIbufWrite_effect (seen h)
  | obufRead addr n => exact hostBufferRead_effect (seen h)
  | obufWrite addr bytes => exact hostObufWrite_effect (seen h)
  | feedback => exact hostFeedback_effect (seen h)
  | reset => cases h; exact .reset

/-! ## One step, R44 to R46, R68 -/

/-- All that one step can do: the completion of the command in flight, nothing on an idle block with no access to come,
or the next host access. -/
theorem step_cases {s t : State} (h : step s = .next t) :
    (CoreMovesNext s ∧ completionStep s = .next t) ∨
    (¬ CoreMovesNext s ∧ s.port = [] ∧ t = s) ∨
    (¬ CoreMovesNext s ∧ ∃ m rest, s.port = m :: rest ∧ hostAccess m.access { s with port := rest } = .next t) := by
  unfold step move at h
  split_ifs at h with hturn <;> rw [coreTurn_iff] at hturn
  · exact .inl ⟨hturn, h⟩
  · refine .inr ?_
    unfold hostTurn at h
    cases hp : s.port with
    | nil => simp only [hp] at h; cases h; exact .inl ⟨hturn, rfl, rfl⟩
    | cons m rest => simp only [hp] at h; exact .inr ⟨hturn, m, rest, rfl, h⟩

/-! ## The parameters, R5, R17 -/

theorem completionStep_cfg {s t : State} (h : completionStep s = .next t) : t.cfg = s.cfg := by
  rcases completionStep_publishes h with ⟨e, rfl⟩ | ⟨_, r, _, _, rfl⟩
  · exact takeError_cfg e s
  · exact (publish_frame r s).cfg

theorem HostEffect.cfg_eq {s t : State} (h : HostEffect s t) : t.cfg = s.cfg := by
  cases h <;> rfl

/-- Settles O60: neither a completion nor any effect of a host access writes `cfg`. -/
theorem parametersNeverChange : Obligations.ParametersNeverChange := by
  intro s t h
  rcases step_cases h with ⟨_, hdone⟩ | ⟨_, _, rfl⟩ | ⟨_, _, _, _, haccess⟩
  · exact completionStep_cfg hdone
  · rfl
  · exact (hostAccess_effect haccess).cfg_eq

/-! ## The invariant, step by step -/

/-- An empty `OBUF` is valued exactly below `OLEN = 0` (R31). -/
theorem obufExact_empty (a : Nat) : (Memory.byteAt [] a).isSome = true ↔ a < (0#32 : Word).toNat := by
  simp [Memory.byteAt]

/-- Reset establishes the invariant on every block within R5's bounds (R43). -/
theorem inv_hostReset {s : State} (hcfg : s.cfg.wf = true) : Inv (hostReset s) where
  cfgWf := hcfg
  busyOrDone := by simp
  errIff := by simp
  errcodeRange := by simp
  olenFits := Nat.zero_le _
  ibufWf := .nil
  ibufWithin := by simp
  obufWf := .nil
  obufExact := obufExact_empty
  noResult := by simp
  noResultOnError := by simp
  latched := by simp
  idleWord := by simp
  analyzed := by simp

/-- Settles O8: `State.reset` is what a reset makes of it. -/
theorem resetMeetsInvariant : Obligations.ResetMeetsInvariant :=
  inv_hostReset (s := State.reset) (by decide)

/-- The accept step keeps the invariant (R44). -/
theorem inv_acceptCommand {s : State} (hinv : Inv s) (w : Word) : Inv (acceptCommand w s) where
  cfgWf := hinv.cfgWf
  busyOrDone := by simp
  errIff := by simp
  errcodeRange := by simp
  olenFits := Nat.zero_le _
  ibufWf := hinv.ibufWf
  ibufWithin := hinv.ibufWithin
  obufWf := .nil
  obufExact := obufExact_empty
  noResult := by simp
  noResultOnError := by simp
  latched := by simp
  idleWord := by simp
  analyzed := by simp

/-- A host access keeps the invariant. -/
theorem HostEffect.keeps_inv {s t : State} (h : HostEffect s t) (hinv : Inv s) : Inv t := by
  cases h with
  | ignored => exact hinv
  | answered v => exact { hinv with }
  | accepted w _ => exact inv_acceptCommand hinv w
  | loaded addr bytes w hb hfit =>
    exact { hinv with
      ibufWf := setBytes_wf _ _ _ hinv.ibufWf
      ibufWithin := setBytes_within _ _ _ hfit hinv.ibufWithin
      latched := fun hb' => absurd (hb'.symm.trans hb) (by decide) }
  | reset => exact inv_hostReset hinv.cfgWf

/-- While a command is in flight the `AN_*` registers are 0 (R44). -/
theorem an_of_busy {s : State} (hinv : Inv s) (hb : s.status.busy = true) : s.an = Analysis.zero := by
  have hdone : s.status.done = false := Bool.eq_false_iff.mpr fun hd => hinv.busyOrDone ⟨hb, hd⟩
  obtain ⟨_, _, _, han⟩ := hinv.noResult hdone
  exact han

/-- Taking an error while a command is in flight keeps the invariant (R239). -/
theorem inv_takeError {s : State} (hinv : Inv s) (hb : s.status.busy = true) (e : CmdError) :
    Inv (takeError e s) where
  cfgWf := hinv.cfgWf
  busyOrDone := by simp
  errIff := by simp [code_ne_zero]
  errcodeRange := (code_range e).2
  olenFits := Nat.zero_le _
  ibufWf := hinv.ibufWf
  ibufWithin := hinv.ibufWithin
  obufWf := .nil
  obufExact := obufExact_empty
  noResult := by simp
  noResultOnError := fun _ => ⟨rfl, rfl, an_of_busy (s := s) hinv hb⟩
  latched := by simp
  idleWord := by simp
  analyzed := fun han => absurd (an_of_busy hinv hb) han

theorem obufSize_lt {p : Params} (h : p.wf = true) : p.obufSize < 2 ^ 32 := by
  obtain ⟨_, _, _, hlt⟩ := of_decide_eq_true h
  exact hlt

/-- Publishing a result while a command is in flight keeps the invariant, when the result fits `OBUF` and only the
latched `ANLZ` brings the five values (R26, R28, R45). -/
theorem inv_publishOk {s : State} (hinv : Inv s) (hb : s.status.busy = true) {out : List Byte} (d : Domain)
    {an : Option Analysis} (hlen : out.length ≤ s.cfg.obufSize)
    (han : an ≠ none → out = [] ∧ s.cfg.hasAnlz = true ∧ ∃ d, decode s.cfg.hasAnlz s.cmdr = .command (.anlz d)) :
    Inv (publishOk out d an s) := by
  have hsize : s.cfg.obufSize < 2 ^ 32 := obufSize_lt hinv.cfgWf
  have holen : (BitVec.ofNat 32 out.length : Word).toNat = out.length := by simp; omega
  exact {
    cfgWf := hinv.cfgWf
    busyOrDone := by simp
    errIff := by simp
    errcodeRange := by simp
    olenFits := by simpa [holen] using hlen
    ibufWf := hinv.ibufWf
    ibufWithin := hinv.ibufWithin
    obufWf := ofBytes_wf 0 out
    obufExact := fun a => by simp [holen]
    noResult := by simp
    noResultOnError := by simp
    latched := by simp
    idleWord := by simp
    analyzed := fun hne => by
      have hsome : an ≠ none := by
        rintro rfl
        exact hne (an_of_busy (s := s) hinv hb)
      obtain ⟨rfl, hanlz, hdec⟩ := han hsome
      exact ⟨hdec, hanlz, rfl, rfl, rfl⟩ }

/-- Every result that fits keeps the invariant. -/
theorem inv_publish {s : State} (hinv : Inv s) (hb : s.status.busy = true) {i : Instr} {r : CmdResult}
    (hdec : decode s.cfg.hasAnlz s.cmdr = .command i) (hfits : ResultFits s.cfg i r) : Inv (publish r s) := by
  match r, hfits with
  | .err e, _ => exact inv_takeError hinv hb e
  | .ok out d none, hlen => exact inv_publishOk hinv hb d hlen (fun hne => absurd rfl hne)
  | .ok _ d (some a), ⟨hout, hanlz, d', hi⟩ =>
    subst hout hi
    exact inv_publishOk hinv hb d (Nat.zero_le _) (fun _ => ⟨rfl, hanlz, d', hdec⟩)

/-- The completion of the command in flight keeps the invariant. -/
theorem completionStep_keeps_inv {s t : State} (hinv : Inv s) (hb : s.status.busy = true)
    (h : completionStep s = .next t) : Inv t := by
  rcases completionStep_publishes h with ⟨e, rfl⟩ | ⟨i, r, hdec, hfits, rfl⟩
  · exact inv_takeError hinv hb e
  · exact inv_publish hinv hb hdec hfits

/-- Settles O12, by the cases of one step: a completion, an idle block with nothing to come, a host access. -/
theorem stepKeepsInvariant : Obligations.StepKeepsInvariant := by
  intro s t hinv h
  rcases step_cases h with ⟨⟨hb, _⟩, hdone⟩ | ⟨_, _, rfl⟩ | ⟨_, _, rest, _, haccess⟩
  · exact completionStep_keeps_inv hinv hb hdone
  · exact hinv
  · have hpopped : Inv { s with port := rest } := { hinv with }
    exact (hostAccess_effect haccess).keeps_inv hpopped

end Sys2Proof.Proofs
end

section
/-!
SUPPORT. The host's registers and buffers (`10_state.md` R21 to R31, `20_memory.md` R60, R72): what a read of `REG`
returns and which writes take effect.
-/

namespace Sys2Proof.Proofs

open Sys2Proof.Machine Sys2Proof.Laws

/-! ## Accesses to `REG`, R21, R63 -/

theorem hostAccess_regRead {s : State} (hreset : s.resetSeen = true) {off : Nat} (halign : off % 4 = 0)
    (hoff : off < 0x100) :
    hostAccess (.regRead off 4) s = .next { s with rdata := some (regValue s off).toNat } := by
  simp [hostAccess, hostRegRead, regAccessOk, hreset, halign, hoff]

theorem hostAccess_regWrite {s : State} (hreset : s.resetSeen = true) {off : Nat} (halign : off % 4 = 0)
    (hoff : off < 0x100) (w : Word) :
    hostAccess (.regWrite off 4 w) s = .next (regWriteEffect off w s) := by
  simp [hostAccess, hostRegWrite, regAccessOk, hreset, halign, hoff]

theorem regWriteEffect_of_busy {s : State} (hb : s.status.busy = true) (off : Nat) (w : Word) :
    regWriteEffect off w s = s := if_pos hb

/-- Only `CMD` and `ILEN` can be written (R21). -/
theorem regWriteEffect_of_readOnly {off : Nat} (hcmd : off ≠ 0x00) (hilen : off ≠ 0x0C) (w : Word) (s : State) :
    regWriteEffect off w s = s := by
  rcases regWriteEffect_cases off w s with ⟨_, e⟩ | ⟨_, h, _⟩ | ⟨_, h, _⟩ | ⟨_, _, _, e⟩
  · exact e
  · exact absurd h hcmd
  · exact absurd h hilen
  · exact e

theorem regWriteEffect_cmd {s : State} (w : Word) (hb : s.status.busy = false) :
    regWriteEffect 0x00 w s = acceptCommand w s := by
  simp [regWriteEffect, hb]

/-! ## Register values, R22 to R29 -/

theorem oneBit_toNat (b : Bool) : (oneBit b).toNat = b.toNat := by cases b <;> rfl

/-- The registers every block has. -/
theorem regValue_map (s : State) :
    regValue s 0x00 = s.cmdr ∧ regValue s 0x04 = s.status.word ∧ regValue s 0x08 = s.errcode.setWidth 32 ∧
      regValue s 0x0C = s.ilen ∧ regValue s 0x10 = s.olen ∧ regValue s 0x14 = oneBit (s.odom == .char) :=
  ⟨rfl, rfl, rfl, rfl, rfl, rfl⟩

/-- The registers of the analyzer. -/
theorem regValue_analyzer {s : State} (h : s.cfg.hasAnlz = true) :
    regValue s 0x20 = s.an.runCount ∧ regValue s 0x24 = s.an.totalRun ∧ regValue s 0x28 = s.an.longest ∧
      regValue s 0x2C = s.an.inLen ∧ regValue s 0x30 = oneBit s.an.recommend :=
  ⟨if_pos h, if_pos h, if_pos h, if_pos h, if_pos h⟩

/-- The offsets of R29: no register lies there, or none on a block without the analyzer. -/
def ReservedOffset (hasAnlz : Bool) (off : Nat) : Prop :=
  off = 0x18 ∨ off = 0x1C ∨ 0x34 ≤ off ∨ (0x20 ≤ off ∧ off ≤ 0x30 ∧ hasAnlz = false)

theorem regValue_of_reserved {s : State} {off : Nat} (h : ReservedOffset s.cfg.hasAnlz off) :
    regValue s off = 0#32 := by
  have hlow : 0x18 ≤ off := by rcases h with h | h | h | ⟨h, _⟩ <;> omega
  unfold regValue
  rw [if_neg (by omega), if_neg (by omega), if_neg (by omega), if_neg (by omega), if_neg (by omega),
    if_neg (by omega)]
  cases hanlz : s.cfg.hasAnlz with
  | false => exact if_neg Bool.false_ne_true
  | true =>
    have hout : off < 0x20 ∨ 0x30 < off := by
      rcases h with h | h | h | ⟨_, _, h⟩
      · omega
      · omega
      · omega
      · cases hanlz.symm.trans h
    rw [if_pos rfl, if_neg (by omega), if_neg (by omega), if_neg (by omega), if_neg (by omega), if_neg (by omega)]

/-- Settles O18, register by register. -/
theorem registerMapReads : Obligations.RegisterMapReads := by
  intro s off v hreset hmap
  have reads (halign : off % 4 = 0) (hoff : off < 0x100) (hv : (regValue s off).toNat = v) :
      hostAccess (.regRead off 4) s = .next { s with rdata := some v } :=
    hv ▸ hostAccess_regRead hreset halign hoff
  rcases hmap with hmem | ⟨hanlz, hmem⟩ <;>
    simp only [List.mem_cons, Prod.mk.injEq, List.not_mem_nil, or_false] at hmem
  · obtain ⟨hcmd, hstatus, herrcode, hilen, holen, hodom⟩ := regValue_map s
    rcases hmem with ⟨rfl, rfl⟩ | ⟨rfl, rfl⟩ | ⟨rfl, rfl⟩ | ⟨rfl, rfl⟩ | ⟨rfl, rfl⟩ | ⟨rfl, rfl⟩ <;>
      refine reads (by decide) (by decide) ?_
    · rw [hcmd]
    · rw [hstatus, status_word_toNat]
    · rw [herrcode, BitVec.toNat_setWidth_of_le (by decide)]
    · rw [hilen]
    · rw [holen]
    · rw [hodom, oneBit_toNat]
      cases s.odom <;> rfl
  · obtain ⟨hruns, htotal, hlongest, hinLen, hrecommend⟩ := regValue_analyzer hanlz
    rcases hmem with ⟨rfl, rfl⟩ | ⟨rfl, rfl⟩ | ⟨rfl, rfl⟩ | ⟨rfl, rfl⟩ | ⟨rfl, rfl⟩ <;>
      refine reads (by decide) (by decide) ?_
    · rw [hruns]
    · rw [htotal]
    · rw [hlongest]
    · rw [hinLen]
    · rw [hrecommend, oneBit_toNat]

/-- Settles O19: no register lies at a reserved offset, and `CMD` and `ILEN` alone can be written. -/
theorem reservedOffsetsReadZero : Obligations.ReservedOffsetsReadZero := by
  intro s off w hreset halign hoff
  have hread := hostAccess_regRead hreset halign hoff
  have hwrite := hostAccess_regWrite hreset halign hoff w
  refine ⟨fun hres => ⟨?_, ?_⟩, fun hcmd hilen => ?_, ⟨_, hread⟩, ⟨_, hwrite⟩⟩
  · rw [hread, regValue_of_reserved hres, BitVec.toNat_zero]
  · rw [hwrite, regWriteEffect_of_readOnly (by omega) (by omega)]
  · rw [hwrite, regWriteEffect_of_readOnly hcmd hilen]

/-! ## Host writes, R25, R30, R31, R72 -/

theorem hostAccess_ibufWrite_of_idle {s : State} (hreset : s.resetSeen = true) (hb : s.status.busy = false)
    {addr : Nat} {bytes : List Byte} (hfit : addr + bytes.length ≤ s.cfg.ibufSize) :
    hostAccess (.ibufWrite addr bytes) s = .next { s with ibuf := Memory.setBytes s.ibuf addr bytes } := by
  simp [hostAccess, hostIbufWrite, hreset, hb, not_lt.mpr hfit]

theorem hostAccess_ibufWrite_of_busy {s : State} (hreset : s.resetSeen = true) (hb : s.status.busy = true)
    {addr : Nat} {bytes : List Byte} (hfit : addr + bytes.length ≤ s.cfg.ibufSize) :
    hostAccess (.ibufWrite addr bytes) s = .next s := by
  simp [hostAccess, hostIbufWrite, hreset, hb, not_lt.mpr hfit]

theorem hostAccess_obufWrite {s : State} (hreset : s.resetSeen = true) {addr : Nat} {bytes : List Byte}
    (hfit : addr + bytes.length ≤ s.cfg.obufSize) : hostAccess (.obufWrite addr bytes) s = .next s := by
  simp [hostAccess, hostObufWrite, hreset, not_lt.mpr hfit]

theorem hostAccess_feedback_of_busy {s : State} (hreset : s.resetSeen = true) (hb : s.status.busy = true) :
    hostAccess .feedback s = .next s := by
  simp [hostAccess, hostFeedback, hreset, hb]

/-- Settles O21: the bytes written are read back by `byteAt_setBytes`. -/
theorem idleHostWritesTakeEffect : Obligations.IdleHostWritesTakeEffect := by
  refine ⟨fun s addr bytes hreset hb hfit hwf => ?_, fun s w hreset hb => ?_,
    fun s addr bytes hreset hfit => hostAccess_obufWrite hreset hfit⟩
  · refine ⟨_, hostAccess_ibufWrite_of_idle hreset hb hfit, rfl, fun k hk => ?_, fun a ha => ?_⟩
    · rw [byteAt_setBytes _ _ _ _ hwf, if_pos (by omega), Nat.add_sub_cancel_left]
    · rw [byteAt_setBytes _ _ _ _ hwf, if_neg (by omega)]
  · rw [hostAccess_regWrite hreset (by decide) (by decide), regWriteEffect_ilen w hb]

end Sys2Proof.Proofs
end

section
/-!
SUPPORT. The steps of a command's life as equations (`10_state.md` R43 to R46): which agent moves next, what a reset, an
accept step and a completion leave, and the completion frame, the termination of a command, the inputs its result
depends on, and the fate of a host write that does not wait.
-/

namespace Sys2Proof.Proofs

open Sys2Proof.Machine Sys2Proof.Laws

/-! ## Who moves next, R46, R68 -/

theorem step_of_coreMovesNext {s : State} (h : CoreMovesNext s) : step s = completionStep s :=
  if_pos ((coreTurn_iff s).mpr h)

/-- When the core does not move, the next step is the host access at the head of the list. -/
theorem step_of_hostMoves {s : State} {a : HostAccess} {late : Bool} {rest : List HostMove}
    (hport : s.port = { access := a, late := late } :: rest) (h : ¬ CoreMovesNext s) :
    step s = hostAccess a { s with port := rest } := by
  unfold step move
  rw [if_neg ((coreTurn_iff s).not.mpr h)]
  simp only [hostTurn, hport]

theorem not_coreMovesNext_of_idle {s : State} (hb : s.status.busy = false) : ¬ CoreMovesNext s :=
  fun h => Bool.false_ne_true (hb.symm.trans h.1)

theorem not_coreMovesNext_of_early {s : State} {a : HostAccess} {rest : List HostMove}
    (hport : s.port = { access := a, late := false } :: rest) : ¬ CoreMovesNext s := by
  rintro ⟨_, hnil | ⟨a', rest', hlate⟩⟩
  · cases hport.symm.trans hnil
  · cases hport.symm.trans hlate

theorem coreMovesNext_of_late {s : State} {a : HostAccess} {rest : List HostMove} (hb : s.status.busy = true)
    (hport : s.port = { access := a, late := true } :: rest) : CoreMovesNext s := ⟨hb, .inr ⟨a, rest, hport⟩⟩

theorem runSteps_succ_of_next {s t : State} (h : step s = .next t) (k : Nat) :
    runSteps (k + 1) s = runSteps k t := by
  simp only [runSteps, h]

theorem HostEffect.port_eq {s t : State} (h : HostEffect s t) : t.port = s.port := by
  cases h <;> rfl

/-! ## Reset, R43 -/

/-- After a reset every offset of `REG` reads 0. -/
theorem regValue_hostReset (s : State) (off : Nat) : regValue (hostReset s) off = 0#32 := by
  have hstatus : Status.idle.word = 0#32 := rfl
  simp [regValue, hstatus, oneBit, Analysis.zero]

/-- Settles O7: the host's reset is the step, and it writes the table of R43. -/
theorem resetGivesTheResetTable : Obligations.ResetGivesTheResetTable := by
  intro s late rest hport hcore
  refine ⟨hostReset { s with port := rest }, step_of_hostMoves hport hcore, regValue_hostReset _, ?_⟩
  simp

/-! ## The accept step, R44 -/

/-- The accept step: a 32-bit write of `CMD` on an idle block. -/
theorem step_acceptCommand {s : State} {w : Word} {late : Bool} {rest : List HostMove}
    (hb : s.status.busy = false) (hreset : s.resetSeen = true)
    (hport : s.port = { access := .regWrite 0x00 4 w, late := late } :: rest) :
    step s = .next (acceptCommand w { s with port := rest }) := by
  have hb' : ({ s with port := rest } : State).status.busy = false := hb
  have hreset' : ({ s with port := rest } : State).resetSeen = true := hreset
  rw [step_of_hostMoves hport (not_coreMovesNext_of_idle hb), hostAccess_regWrite hreset' (by decide) (by decide),
    regWriteEffect_cmd w hb']

/-- What the moves after an accept step need of the state it leaves. -/
theorem step_accepts {s : State} {w : Word} {late : Bool} {rest : List HostMove}
    (hb : s.status.busy = false) (hreset : s.resetSeen = true)
    (hport : s.port = { access := .regWrite 0x00 4 w, late := late } :: rest) :
    ∃ t, step s = .next t ∧ t.cmdr = w ∧ t.status.busy = true ∧ t.resetSeen = true ∧ t.port = rest ∧
      t.ilenr = s.ilen ∧ t.ibuf = s.ibuf :=
  ⟨_, step_acceptCommand hb hreset hport, rfl, rfl, hreset, rfl, rfl, rfl⟩

/-- Settles O9: each field of the state the accept step leaves. -/
theorem acceptStepLatchesAndClears : Obligations.AcceptStepLatchesAndClears := by
  intro s w late rest hb hreset hport
  refine ⟨_, step_acceptCommand hb hreset hport, ?_⟩
  simp [Analysis.zero]

/-! ## The completion step is `exec` of the latched word, R45 -/

theorem completionStep_of_decode {s : State} {i : Instr} (h : decode s.cfg.hasAnlz s.cmdr = .command i) :
    completionStep s = exec i s := by
  simp only [completionStep, h]

/-- The analyzer parameter only decides which commands are legal (R93): a word means the same on every block that has
its command. -/
theorem decode_of_wf {w : Word} {i : Instr} {hasAnlz : Bool} (h : decode true w = .command i)
    (hwf : i.wf hasAnlz = true) : decode hasAnlz w = .command i := by
  unfold decode at h ⊢
  cases hrow : opTable.find? (fun r => r.selects w) with
  | none => simp [hrow] at h
  | some r =>
    simp only [hrow] at h ⊢
    split_ifs at h
    cases h
    rw [if_pos hwf]

theorem decode_of_decodeTableWord {nbits w : Nat} {i : Instr} (h : decodeTableWord nbits w = some i) :
    decode true (tableWord nbits w) = .command i := by
  unfold decodeTableWord at h
  split_ifs at h
  cases hdec : decode true (tableWord nbits w) with
  | command j => simp only [hdec] at h; cases h; rfl
  | illegal why => simp only [hdec] at h; cases h

/-- A placed word is in flight, and no access lands before its completion. -/
theorem coreMovesNext_withFetchWord (s : State) (nbits w : Nat) : CoreMovesNext (s.withFetchWord nbits w) := by
  refine ⟨rfl, ?_⟩
  rw [withFetchWord_port]
  cases s.port with
  | nil => exact .inl rfl
  | cons m rest => exact .inr ⟨m.access, rest, rfl⟩

/-- Settles O10: when the core moves, the step is `exec` of the decoded word, and a placed word decodes to its
command. -/
theorem stepRunsTheLatchedCommand : Obligations.StepRunsTheLatchedCommand := by
  have runs (s : State) (i : Instr) (hcore : CoreMovesNext s) (hdec : decode s.cfg.hasAnlz s.cmdr = .command i) :
      step s = exec i s := (step_of_coreMovesNext hcore).trans (completionStep_of_decode hdec)
  refine ⟨runs, fun s nbits w i htable hwf => ⟨?_, rfl, rfl⟩⟩
  exact runs _ i (coreMovesNext_withFetchWord s nbits w) (decode_of_wf (decode_of_decodeTableWord htable) hwf)

/-! ## What a completion leaves, R31, R45, R231 -/

theorem ResultFits.length_le {p : Params} {i : Instr} {out : List Byte} {d : Domain} {an : Option Analysis}
    (h : ResultFits p i (.ok out d an)) : out.length ≤ p.obufSize := by
  match an, h with
  | none, hlen => exact hlen
  | some _, ⟨hout, _⟩ => simp [hout]

/-- Only `ANLZ` writes the `AN_*` registers (R28). -/
theorem publish_an {p : Params} {i : Instr} {r : CmdResult} (s : State) (h : ResultFits p i r)
    (hi : ∀ d, i ≠ .anlz d) : (publish r s).an = s.an := by
  match r, h with
  | .err _, _ => rfl
  | .ok _ _ none, _ => rfl
  | .ok _ _ (some _), ⟨_, _, d, heq⟩ => exact absurd heq (hi d)

/-- A completion leaves exactly the bytes of `OBUF` below `OLEN` with a value (R31). -/
theorem publish_obuf_isSome {p : Params} {i : Instr} {r : CmdResult} (s : State) (hp : p.wf = true)
    (h : ResultFits p i r) (a : Nat) :
    (Memory.byteAt (publish r s).obuf a).isSome = true ↔ a < (publish r s).olen.toNat := by
  cases r with
  | err e => exact obufExact_empty a
  | ok out d an =>
    have hlen := h.length_le
    have hsize := obufSize_lt hp
    have holen : out.length % 2 ^ 32 = out.length := Nat.mod_eq_of_lt (by omega)
    simp [-Nat.reducePow, holen]

/-- `STATUS.ERR = 1` exactly with a non-zero `ERRCODE`, one of the codes of R231. -/
theorem publish_err_iff (r : CmdResult) (s : State) :
    ((publish r s).status.err = true ↔ (publish r s).errcode ≠ 0#8) ∧ (publish r s).errcode.toNat ≤ 6 := by
  cases r with
  | ok out d an => simp
  | err e => exact ⟨by simp [code_ne_zero], (code_range e).2⟩

/-- Settles O13: every command publishes a result that fits, and publishing writes the result registers and `OBUF`
alone. -/
theorem completionFrame : Obligations.CompletionFrame := by
  intro i s t hcfg hexec
  obtain ⟨r, hfits, rfl⟩ := exec_publishes hexec
  have hframe := publish_frame r s
  have hobuf := publish_obuf_isSome s hcfg hfits
  refine ⟨hframe, fun a => by rw [hframe.ibuf], publish_an s hfits, fun a ha => ?_, fun a ha => (hobuf a).mpr ha⟩
  exact Option.not_isSome_iff_eq_none.mp ((hobuf a).not.mpr (by omega))

/-! ## Every command completes, R46 -/

theorem inputBytes_ne_none {s : State} (h : InputWritten s) : inputBytes s ≠ none := by
  intro hnone
  obtain ⟨k, hk, hbyte⟩ := (inputBytes_eq_none s).mp hnone
  simpa [hbyte] using h k hk

/-- A command whose input has been written is not refused. -/
theorem exec_completes (i : Instr) {s : State} (h : InputWritten s) : ∃ r, exec i s = .next (publish r s) := by
  rcases exec_cases i s with ⟨hnone, _⟩ | hnext
  · exact absurd hnone (inputBytes_ne_none h)
  · exact hnext

theorem completionStep_completes {s : State} (h : InputWritten s) :
    ∃ r, completionStep s = .next (publish r s) := by
  unfold completionStep
  cases decode s.cfg.hasAnlz s.cmdr with
  | command i => exact exec_completes i h
  | illegal why => exact ⟨.err .illegalCommand, rfl⟩

/-- The completion of the command in flight, as a step. -/
theorem step_completes {s : State} (hcore : CoreMovesNext s) (h : InputWritten s) :
    ∃ r, step s = .next (publish r s) := by
  rw [step_of_coreMovesNext hcore]
  exact completionStep_completes h

/-- Settles O14: the one refusal of a command is an unwritten input byte; all else is a result published. -/
theorem everyCommandCompletes : Obligations.EveryCommandCompletes := by
  intro i s hin
  obtain ⟨r, hexec⟩ := exec_completes i hin
  obtain ⟨hbusy, hdone⟩ := publish_done r s
  exact ⟨publish r s, hexec, hbusy, hdone, publish_err_iff r s⟩

/-- The completion of the command in flight ends it. -/
theorem completionStep_not_busy {s t : State} (h : completionStep s = .next t) : t.status.busy = false := by
  rcases completionStep_publishes h with ⟨e, rfl⟩ | ⟨_, r, _, _, rfl⟩
  · rfl
  · exact (publish_done r s).1

/-- A step with a command in flight ends the command, is refused, or uses up one host access to come. -/
theorem step_of_busy {s : State} (hb : s.status.busy = true) :
    (∃ t, step s = .next t ∧ t.status.busy = false) ∨ (∃ r, step s = .refused r) ∨
      ∃ t m, step s = .next t ∧ t.status.busy = true ∧ s.port = m :: t.port := by
  cases hstep : step s with
  | fault f => nomatch f
  | refused r => exact .inr (.inl ⟨r, rfl⟩)
  | next t =>
    cases hbt : t.status.busy with
    | false => exact .inl ⟨t, rfl, hbt⟩
    | true =>
      refine .inr (.inr ⟨t, ?_⟩)
      rcases step_cases hstep with ⟨_, hdone⟩ | ⟨hcore, hnil, _⟩ | ⟨_, m, rest, hport, haccess⟩
      · cases hbt.symm.trans (completionStep_not_busy hdone)
      · exact absurd ⟨hb, .inl hnil⟩ hcore
      · exact ⟨m, rfl, hbt, by rw [hport, (hostAccess_effect haccess).port_eq]⟩

/-- Settles O15, by induction on the number of host accesses to come. -/
theorem acceptedCommandLeavesBusy : Obligations.AcceptedCommandLeavesBusy := by
  intro s hb
  induction hn : s.port.length using Nat.strong_induction_on generalizing s with
  | _ n ih =>
    rcases step_of_busy hb with ⟨t, hstep, hidle⟩ | ⟨r, hstep⟩ | ⟨t, m, hstep, hbt, hport⟩
    · exact ⟨1, by omega, .inl ⟨t, runSteps_succ_of_next hstep 0, hidle⟩⟩
    · exact ⟨1, by omega, .inr ⟨r, by simp only [runSteps, hstep]⟩⟩
    · rw [hport, List.length_cons] at hn
      obtain ⟨k, hk, hrun⟩ := ih t.port.length (by omega) t hbt rfl
      refine ⟨k + 1, by omega, ?_⟩
      rwa [runSteps_succ_of_next hstep]

/-! ## What the result of a command depends on, R42, R163 -/

theorem inputBytes_of_sameInput {s t : State} (h : SameInput s t) : inputBytes t = inputBytes s := by
  unfold inputBytes
  rw [h.ilenr]
  exact range_congr s.ibuf t.ibuf 0 _ fun k hk => by simpa using h.bytes k hk

theorem runOnInput_of_sameInput {s t s' : State} {body : List Byte → CmdResult} (h : SameInput s t)
    (hs : runOnInput s body = .next s') :
    ∃ r, s' = publish r s ∧ runOnInput t body = .next (publish r t) := by
  unfold runOnInput at hs ⊢
  rw [inputBytes_of_sameInput h]
  cases hin : inputBytes s with
  | none => simp only [hin] at hs; cases hs
  | some input => simp only [hin] at hs; cases hs; exact ⟨body input, rfl, rfl⟩

/-- The checks of a command over a symbol stream read `ILENR` and `IBUF_SIZE` alone (R238). -/
theorem streamCommand_of_sameInput {d : Domain} {s t s' : State} {body body' : List Symbol → CmdResult}
    (h : SameInput s t) (hbody : body' = body) (hs : streamCommand d s body = .next s') :
    ∃ r, s' = publish r s ∧ streamCommand d t body' = .next (publish r t) := by
  subst hbody
  unfold streamCommand at hs ⊢
  rw [h.ilenr, h.ibufSize]
  split_ifs at hs ⊢
  · cases hs; exact ⟨.err _, rfl, rfl⟩
  · cases hs; exact ⟨.err _, rfl, rfl⟩
  · cases hs; exact ⟨.err _, rfl, rfl⟩
  · exact runOnInput_of_sameInput h hs

/-- The checks of a command over a payload read `ILENR` and `IBUF_SIZE` alone (R238). -/
theorem payloadCommand_of_sameInput {n : Nat} {s t s' : State} {body body' : List Byte → CmdResult}
    (h : SameInput s t) (hbody : body' = body) (hs : payloadCommand n s body = .next s') :
    ∃ r, s' = publish r s ∧ payloadCommand n t body' = .next (publish r t) := by
  subst hbody
  unfold payloadCommand at hs ⊢
  rw [h.ilenr, h.ibufSize]
  split_ifs at hs ⊢
  · cases hs; exact ⟨.err _, rfl, rfl⟩
  · cases hs; exact ⟨.err _, rfl, rfl⟩
  · exact runOnInput_of_sameInput h hs

/-! The body of a command reads `OBUF_SIZE` alone of the parameters, and for `HUFC` `TIEBREAK`. -/

section
variable {p q : Params} (hsize : q.obufSize = p.obufSize)
include hsize

theorem finishEncode_congr (d : Domain) (payload : List Byte) :
    finishEncode q d payload = finishEncode p d payload := by
  unfold finishEncode
  rw [hsize]

theorem hufcBody_congr (htie : q.tieBreak = p.tieBreak) (d : Domain) : hufcBody q d = hufcBody p d := by
  funext S
  unfold hufcBody
  simp only [htie, finishEncode_congr hsize]

theorem rlecBody_congr (d : Domain) : rlecBody q d = rlecBody p d :=
  funext fun _ => finishEncode_congr hsize d _

theorem arlecBody_congr (d : Domain) : arlecBody q d = arlecBody p d :=
  funext fun _ => finishEncode_congr hsize d _

theorem hufdBody_congr : hufdBody q = hufdBody p := by
  funext input
  simp only [hufdBody, hufdDecode, hsize]

theorem rledBody_congr : rledBody q = rledBody p := by
  funext input
  simp only [rledBody, hsize]

end

/-- Two states with the same input publish the same result of a command. -/
theorem exec_of_sameInput {i : Instr} {s t s' : State} (h : SameInput s t)
    (htie : ∀ d, i = .hufc d → t.cfg.tieBreak = s.cfg.tieBreak) (hs : exec i s = .next s') :
    ∃ r, s' = publish r s ∧ exec i t = .next (publish r t) := by
  cases i with
  | hufc d => exact streamCommand_of_sameInput h (hufcBody_congr h.obufSize (htie d rfl) d) hs
  | hufd => exact payloadCommand_of_sameInput h (hufdBody_congr h.obufSize) hs
  | rlec d => exact streamCommand_of_sameInput h (rlecBody_congr h.obufSize d) hs
  | arlec d => exact streamCommand_of_sameInput h (arlecBody_congr h.obufSize d) hs
  | rled => exact payloadCommand_of_sameInput h (rledBody_congr h.obufSize) hs
  | anlz d =>
    simp only [exec, execAnlz, h.hasAnlz] at hs ⊢
    split_ifs at hs ⊢
    · exact streamCommand_of_sameInput h rfl hs
    · cases hs; exact ⟨.err _, rfl, rfl⟩

/-- One result published on two states that agree on the `AN_*` registers shows a host the same. -/
theorem publish_sameResult (r : CmdResult) {s t : State} (han : t.an = s.an) :
    SameResult (publish r s) (publish r t) := by
  cases r with
  | err e => exact ⟨rfl, rfl, rfl, rfl, han, rfl⟩
  | ok out d an => exact ⟨rfl, rfl, rfl, rfl, by simp [han], rfl⟩

/-- Settles O16: the same input gives the same result, and while a command is in flight both blocks hold 0 in the `AN_*`
registers. -/
theorem resultDependsOnInputAlone : Obligations.ResultDependsOnInputAlone := by
  intro i s t s' hinvs hinvt hbs hbt hin htie hexec
  obtain ⟨r, rfl, ht⟩ := exec_of_sameInput hin htie hexec
  have han : t.an = s.an := (an_of_busy hinvt hbt).trans (an_of_busy hinvs hbs).symm
  exact ⟨publish r t, ht, publish_sameResult r han⟩

/-! ## Host writes under a command in flight, R22, R72 -/

/-- Settles O22: the access is the step, and with `BUSY = 1` each of these writes leaves the state. -/
theorem busyHostWritesAreDropped : Obligations.BusyHostWritesAreDropped := by
  intro s a rest hb hreset hport ha
  have hb' : ({ s with port := rest } : State).status.busy = true := hb
  have hreset' : ({ s with port := rest } : State).resetSeen = true := hreset
  rw [step_of_hostMoves hport (not_coreMovesNext_of_early hport)]
  rcases ha with ⟨off, w, halign, hoff, rfl⟩ | ⟨addr, bytes, hfit, rfl⟩ | ⟨addr, bytes, hfit, rfl⟩ | rfl
  · rw [hostAccess_regWrite hreset' halign hoff, regWriteEffect_of_busy hb']
  · exact hostAccess_ibufWrite_of_busy hreset' hb' hfit
  · exact hostAccess_obufWrite hreset' hfit
  · exact hostAccess_feedback_of_busy hreset' hb'

/-- Settles O26: a second `CMD` write under the first command is dropped (`busyHostWritesAreDropped`); one after the
completion is an accept step of its own. -/
theorem commandWithoutWaitHasTwoOutcomes : Obligations.CommandWithoutWaitHasTwoOutcomes := by
  intro s w1 w2 late rest hb hreset
  constructor
  · intro hport
    obtain ⟨t, hfirst, hcmdr, hbusy, hseen, hnext, _, _⟩ := step_accepts hb hreset hport
    have hsecond := busyHostWritesAreDropped t _ rest hbusy hseen hnext (.inl ⟨0x00, w2, by decide, by decide, rfl⟩)
    exact ⟨_, (runSteps_succ_of_next hfirst 1).trans (runSteps_succ_of_next hsecond 0), hcmdr, hbusy, rfl⟩
  · intro hport hwritten
    obtain ⟨t, hfirst, _, hbusy, hseen, hnext, hilenr, hibuf⟩ := step_accepts hb hreset hport
    have hin : InputWritten t := fun k hk => by
      rw [hilenr] at hk
      rw [hibuf]
      exact hwritten k hk
    obtain ⟨r, hsecond⟩ := step_completes (coreMovesNext_of_late hbusy hnext) hin
    have hframe := publish_frame r t
    obtain ⟨u, hthird, hcmdr, hbusy', _, hrest, _, _⟩ :=
      step_accepts (publish_done r t).1 (hframe.resetSeen.trans hseen) (hframe.port.trans hnext)
    have hafter := (runSteps_succ_of_next hsecond 1).trans (runSteps_succ_of_next hthird 0)
    exact ⟨u, (runSteps_succ_of_next hfirst 2).trans hafter, hcmdr, hbusy', hrest⟩

end Sys2Proof.Proofs
end

section
/-!
SUPPORT. The packer's data path against `Pack` (`10_state.md` R39, `40_huffman_units.md` R141): the registers between
two bits hold the bits of the partial byte, so the refinement is an induction over the bits still to come.
-/

namespace Sys2Proof.Proofs

open Sys2Proof.Machine Sys2Proof.Laws

/-! ## Bits as numbers, R62 -/

theorem bitsToNat_append (xs ys : Bits) :
    bitsToNat (xs ++ ys) = bitsToNat xs * 2 ^ ys.length + bitsToNat ys := by
  induction xs with
  | nil => simp [bitsToNat]
  | cons b xs ih =>
    simp only [List.cons_append, bitsToNat, List.length_append, ih, pow_add]
    ring

@[simp] theorem bitsToNat_replicate_false (n : Nat) : bitsToNat (List.replicate n false) = 0 := by
  induction n with
  | zero => rfl
  | succ n ih => simp [List.replicate_succ, bitsToNat, ih]

/-! ## `Pack` from its first byte on -/

@[simp] theorem pack_nil : pack [] = ([], 0) := rfl

/-- `Pack` of fewer than eight bits, but one at least: one byte, padded on the right. -/
theorem pack_of_length_lt {xs : Bits} (hne : xs ≠ []) (h : xs.length < 8) :
    pack xs = ([BitVec.ofNat 8 (bitsToNat xs * 2 ^ (8 - xs.length))], 8 - xs.length) := by
  have hpos : 0 < xs.length := List.length_pos_iff.mpr hne
  have hone : packLength xs.length = 1 := by unfold packLength; omega
  have hpad : padCount xs.length = 8 - xs.length := by unfold padCount; omega
  have htake : (xs ++ List.replicate (8 - xs.length) false).take 8 = xs ++ List.replicate (8 - xs.length) false :=
    List.take_of_length_le (by simp; omega)
  simp only [pack, hone, hpad, packBytes, htake, bitsToNat_append, bitsToNat_replicate_false, List.length_replicate,
    add_zero]

/-- `Pack` of eight bits and more: their byte, then `Pack` of the rest. -/
theorem pack_append {xs : Bits} (h : xs.length = 8) (rest : Bits) :
    pack (xs ++ rest) = (BitVec.ofNat 8 (bitsToNat xs) :: (pack rest).1, (pack rest).2) := by
  have hbytes : packLength (xs ++ rest).length = packLength rest.length + 1 := by
    simp only [packLength, List.length_append]; omega
  have hpad : padCount (xs ++ rest).length = padCount rest.length := by
    unfold padCount
    rw [hbytes, List.length_append]
    omega
  simp only [pack, hbytes, hpad, packBytes, List.append_assoc, List.take_left' h, List.drop_left' h]

/-! ## The data path, R39 -/

/-- The data path between two bits: the bits of a partial byte stand in `BITACC` from bit 7 down, `BITCNT` counts them,
the whole bytes have been written. -/
def packerAt (out : List Byte) (xs : Bits) : BitPacker :=
  { acc := bitsToNat xs * 2 ^ (8 - xs.length), cnt := xs.length, out := out }

/-- The accumulator after one more bit. -/
theorem packerAt_acc (b : Bool) (xs : Bits) (h : xs.length < 8) :
    bitsToNat xs * 2 ^ (8 - xs.length) + b.toNat * 2 ^ (7 - xs.length) =
      bitsToNat (xs ++ [b]) * 2 ^ (7 - xs.length) := by
  rw [show 8 - xs.length = 7 - xs.length + 1 by omega, pow_succ, bitsToNat_append]
  simp only [bitsToNat, List.length_singleton, List.length_nil]
  ring

/-- The eighth bit of a byte writes it. -/
theorem push_packerAt_last (b : Bool) (out : List Byte) {xs : Bits} (h : xs.length = 7) :
    BitPacker.push b (packerAt out xs) = packerAt (out ++ [BitVec.ofNat 8 (bitsToNat (xs ++ [b]))]) [] := by
  have hacc : bitsToNat xs * 2 ^ (8 - 7) + b.toNat * 2 ^ (7 - 7) = bitsToNat (xs ++ [b]) := by
    simpa only [h, Nat.sub_self, pow_zero, mul_one] using packerAt_acc b xs (by omega)
  simp only [BitPacker.push, packerAt, h, hacc]
  rfl

/-- Any bit before the eighth joins the partial byte. -/
theorem push_packerAt (b : Bool) (out : List Byte) {xs : Bits} (h : xs.length < 7) :
    BitPacker.push b (packerAt out xs) = packerAt out (xs ++ [b]) := by
  have hlen : 8 - (xs.length + 1) = 7 - xs.length := by omega
  simp only [BitPacker.push, packerAt, packerAt_acc b xs (by omega), if_neg (show ¬ xs.length + 1 = 8 by omega),
    List.length_append, List.length_singleton, hlen]

/-- Flushing writes the partial byte, if there is one. -/
theorem flush_packerAt (out : List Byte) {xs : Bits} (h : xs.length < 8) :
    (packerAt out xs).flush = (out ++ (pack xs).1, (pack xs).2) := by
  cases xs with
  | nil => simp [BitPacker.flush, packerAt]
  | cons b xs =>
    rw [pack_of_length_lt (by simp) h]
    simp [BitPacker.flush, packerAt]

/-- From any partial byte on, the data path writes `Pack` of the bits it holds and those to come. -/
theorem flush_foldl_push (bits : Bits) (out : List Byte) (xs : Bits) (h : xs.length < 8) :
    (bits.foldl (fun p b => BitPacker.push b p) (packerAt out xs)).flush =
      (out ++ (pack (xs ++ bits)).1, (pack (xs ++ bits)).2) := by
  induction bits generalizing out xs with
  | nil => rw [List.append_nil]; exact flush_packerAt out h
  | cons b bits ih =>
    have hsplit : xs ++ b :: bits = (xs ++ [b]) ++ bits := by simp
    rw [List.foldl_cons, hsplit]
    by_cases h7 : xs.length = 7
    · have hbyte : (xs ++ [b]).length = 8 := by simp [h7]
      rw [push_packerAt_last b out h7, ih _ [] (by simp), pack_append hbyte, List.append_assoc]
      rfl
    · rw [push_packerAt b out (by omega), ih _ _ (by simp; omega)]

/-- Settles O33, by induction over the bits from the empty partial byte on. -/
theorem packerDataPathComputesPack : Obligations.PackerDataPathComputesPack :=
  fun bits => flush_foldl_push bits [] [] (by simp)

end Sys2Proof.Proofs
end

section
/-!
SUPPORT. Memory as the host sees it (`20_memory.md` R61 to R73): little-endian writes and reads, host reads and their
refusals, and what an access that starts no command leaves alone.
-/

namespace Sys2Proof.Proofs

open Sys2Proof.Machine Sys2Proof.Laws

/-! ## `MemWrite` and `MemRead`, R61, R66 -/

/-- Byte `k` of a little-endian number. -/
theorem getElem?_leBytes {n k : Nat} (v : Nat) (hk : k < n) :
    (leBytes n v)[k]? = some (BitVec.ofNat 8 (v / 256 ^ k)) := by
  induction n generalizing v k with
  | zero => omega
  | succ n ih =>
    cases k with
    | zero => simp [leBytes]
    | succ k =>
      rw [leBytes, List.getElem?_cons_succ, ih (v / 256) (by omega), Nat.div_div_eq_div_mul, pow_succ']

theorem byteAt_writeLE_inside {m : Memory} (hwf : Memory.wf m) {n k : Nat} (addr v : Nat) (hk : k < n) :
    Memory.byteAt (Memory.writeLE m addr n v) (addr + k) = (leBytes n v)[k]? := by
  rw [Memory.writeLE, byteAt_setBytes _ _ _ _ hwf, length_leBytes, if_pos (by omega), Nat.add_sub_cancel_left]

theorem byteAt_writeLE_outside {m : Memory} (hwf : Memory.wf m) {addr n a : Nat} (v : Nat)
    (ha : a < addr ∨ addr + n ≤ a) :
    Memory.byteAt (Memory.writeLE m addr n v) a = Memory.byteAt m a := by
  rw [Memory.writeLE, byteAt_setBytes _ _ _ _ hwf, length_leBytes, if_neg (by omega)]

/-- A range of known bytes is read as the number they hold. -/
theorem readLE_of_range {m : Memory} {addr n : Nat} {bs : List Byte} (h : Memory.range m addr n = some bs) :
    Memory.readLE m addr n = some (leNat bs) := by
  rw [Memory.readLE, h, Option.map_some]

/-- Settles O17: the bytes a write leaves are those of `leBytes`, and a number that fits them is read back. -/
theorem memWriteThenMemRead : Obligations.MemWriteThenMemRead := by
  intro m addr n v hwf hv
  refine ⟨?_, fun k hk => ?_, fun a ha => byteAt_writeLE_outside hwf v ha⟩
  · have hrange : Memory.range (Memory.writeLE m addr n v) addr n = some (leBytes n v) :=
      (range_eq_some _ _ _ _).mpr ⟨length_leBytes n v, fun k hk => byteAt_writeLE_inside hwf addr v hk⟩
    rw [readLE_of_range hrange, leNat_leBytes n v hv]
  · rw [byteAt_writeLE_inside hwf addr v hk, getElem?_leBytes v hk, Option.map_some, BitVec.toNat_ofNat]

/-! ## Host reads, R64, R65, R72, R73 -/

/-- An access that answers is made after a first reset (R260). -/
theorem answer_of_resetSeen {s t : State} {o : Host.Outcome State Fault Refusal}
    (h : (if s.resetSeen = true then o else .refused .beforeFirstReset) = .next t) : o = .next t := by
  split_ifs at h
  exact h

theorem hostRegRead_next {off width : Nat} {s t : State} (h : hostRegRead off width s = .next t) :
    t = { s with rdata := t.rdata } := by
  unfold hostRegRead at h
  split_ifs at h
  cases h
  rfl

/-- A buffer read that answers returns the number its bytes hold and changes nothing else. -/
theorem hostBufferRead_next {buffer : Memory} {size addr n : Nat} {s t : State}
    (h : hostBufferRead buffer size addr n s = .next t) :
    t = { s with rdata := t.rdata } ∧ ∃ bs, t.rdata = some (leNat bs) ∧ Memory.range buffer addr n = some bs := by
  rcases hostBufferRead_cases buffer size addr n s with ⟨_, e⟩ | ⟨_, _, e⟩ | ⟨_, bs, hbs, e⟩ <;> cases e.symm.trans h
  exact ⟨rfl, bs, rfl, hbs⟩

theorem hostBufferRead_of_range {buffer : Memory} {size addr n : Nat} {s : State} {bs : List Byte}
    (hfit : addr + n ≤ size) (h : Memory.range buffer addr n = some bs) :
    hostBufferRead buffer size addr n s = .next { s with rdata := some (leNat bs) } := by
  simp only [hostBufferRead, if_neg (not_lt.mpr hfit), readLE_of_range h]

theorem hostBufferRead_of_unspecified {buffer : Memory} {size addr n k : Nat} {s : State} (hfit : addr + n ≤ size)
    (hk : k < n) (h : Memory.byteAt buffer (addr + k) = none) :
    hostBufferRead buffer size addr n s = .refused .unspecifiedRead := by
  have hnone : Memory.range buffer addr n = none := (range_eq_none _ _ _).mpr ⟨k, hk, h⟩
  simp only [hostBufferRead, if_neg (not_lt.mpr hfit), Memory.readLE, hnone, Option.map_none]

theorem hostBufferRead_outside {buffer : Memory} {size addr n : Nat} {s : State} (h : size < addr + n) :
    hostBufferRead buffer size addr n s = .refused .outsideBuffer := if_pos h

/-- The bytes a read of `OBUF` returns are those of `OBUF`: with `BUSY = 1` it has none to return (R72). -/
theorem range_obuf_of_visible {s : State} {addr n : Nat} {bs : List Byte}
    (h : Memory.range (if s.status.busy then [] else s.obuf) addr n = some bs) :
    Memory.range s.obuf addr n = some bs := by
  cases hb : s.status.busy with
  | false => simpa [hb] using h
  | true =>
    rw [hb, if_pos rfl] at h
    cases n with
    | zero => exact h
    | succ n => cases h

/-- Settles O20: what a read answers is the range it reads, and a range of valued bytes is answered. -/
theorem hostReadsChangeNothing : Obligations.HostReadsChangeNothing := by
  refine ⟨fun s t off width h => hostRegRead_next (answer_of_resetSeen h), fun s t addr n h => ?_,
    fun s t addr n h => ?_, fun s addr bs hreset hfit hbytes => ?_, fun s addr bs hreset hb hfit hbytes => ?_⟩
  · obtain ⟨ht, bs, hv, hrange⟩ := hostBufferRead_next (answer_of_resetSeen h)
    obtain ⟨hlen, hbytes⟩ := (range_eq_some _ _ _ _).mp hrange
    exact ⟨ht, bs, hlen, hv, hbytes⟩
  · obtain ⟨ht, bs, hv, hrange⟩ := hostBufferRead_next (answer_of_resetSeen h)
    obtain ⟨hlen, hbytes⟩ := (range_eq_some _ _ _ _).mp (range_obuf_of_visible hrange)
    exact ⟨ht, bs, hlen, hv, hbytes⟩
  · have hrange := (range_eq_some s.ibuf addr bs.length bs).mpr ⟨rfl, hbytes⟩
    exact (if_pos hreset).trans (hostBufferRead_of_range hfit hrange)
  · have hrange := (range_eq_some s.obuf addr bs.length bs).mpr ⟨rfl, hbytes⟩
    refine (if_pos hreset).trans (hostBufferRead_of_range hfit ?_)
    rwa [hb, if_neg Bool.false_ne_true]

/-! ## Commands on an unwritten input, R73, R262 -/

/-- A command over a symbol stream whose checks on `ILENR` pass is refused when an input byte is unspecified. -/
theorem streamCommand_of_unspecified {d : Domain} {s : State} (body : List Symbol → CmdResult)
    (hmod : s.ilenr.toNat % symb d = 0) (hpos : 0 < s.ilenr.toNat) (hfit : s.ilenr.toNat ≤ s.cfg.ibufSize)
    (hnone : inputBytes s = none) : streamCommand d s body = .refused .unspecifiedInput := by
  rcases streamCommand_cases d s body with ⟨h, _⟩ | ⟨_, h, _⟩ | ⟨h, _⟩ | ⟨_, _, _, _, e⟩ | ⟨_, _, _, _, h, _⟩
  · exact absurd hmod h
  · omega
  · omega
  · exact e
  · cases hnone.symm.trans h

/-- A command over a payload whose checks on `ILENR` pass is refused when an input byte is unspecified. -/
theorem payloadCommand_of_unspecified {headerLen : Nat} {s : State} (body : List Byte → CmdResult)
    (hhdr : headerLen ≤ s.ilenr.toNat) (hfit : s.ilenr.toNat ≤ s.cfg.ibufSize) (hnone : inputBytes s = none) :
    payloadCommand headerLen s body = .refused .unspecifiedInput := by
  rcases payloadCommand_cases headerLen s body with ⟨h, _⟩ | ⟨_, h, _⟩ | ⟨_, _, _, e⟩ | ⟨_, _, _, h, _⟩
  · omega
  · omega
  · exact e
  · cases hnone.symm.trans h

/-- Settles O23: a read refuses an unspecified byte of its range, and `exec` refuses exactly where it reads its input. -/
theorem unspecifiedBytesAreRefused : Obligations.UnspecifiedBytesAreRefused := by
  refine ⟨fun s addr n k hreset hfit hk hbyte => ?_, fun s addr n k hreset hfit hk hbyte => ?_,
    fun i s r h => ?_, fun i s k hk hbyte hfit hwf hmod hhufd hrled => ?_⟩
  · exact (if_pos hreset).trans (hostBufferRead_of_unspecified hfit hk hbyte)
  · refine (if_pos hreset).trans (hostBufferRead_of_unspecified hfit hk ?_)
    cases hb : s.status.busy with
    | true => rfl
    | false => simpa [hb] using hbyte
  · rcases exec_cases i s with ⟨hnone, e⟩ | ⟨_, e⟩ <;> cases e.symm.trans h
    exact ⟨rfl, (inputBytes_eq_none s).mp hnone⟩
  · have hnone : inputBytes s = none := (inputBytes_eq_none s).mpr ⟨k, hk, hbyte⟩
    have hpos : 0 < s.ilenr.toNat := Nat.zero_lt_of_lt hk
    cases i with
    | hufc d => exact streamCommand_of_unspecified _ (hmod d rfl) hpos hfit hnone
    | hufd => exact payloadCommand_of_unspecified _ (hhufd rfl) hfit hnone
    | rlec d => exact streamCommand_of_unspecified _ (hmod d rfl) hpos hfit hnone
    | arlec d => exact streamCommand_of_unspecified _ (hmod d rfl) hpos hfit hnone
    | rled => exact payloadCommand_of_unspecified _ (hrled rfl) hfit hnone
    | anlz d => exact (if_pos hwf).trans (streamCommand_of_unspecified _ (hmod d rfl) hpos hfit hnone)

/-! ## Accesses only the platform could define, R63, R65, R260 -/

theorem regAccessOk_eq_false {off width : Nat} (h : width ≠ 4 ∨ off % 4 ≠ 0 ∨ 0x100 ≤ off) :
    regAccessOk off width = false := decide_eq_false (by omega)

/-- Settles O24: each shape test stands before any effect. -/
theorem platformAccessesAreRefused : Obligations.PlatformAccessesAreRefused := by
  refine ⟨fun s off width w hreset hshape => ?_, fun s addr n bytes hreset => ⟨fun h => ?_, fun h => ?_, fun h => ?_,
    fun h => ?_⟩, fun s a hreset hne => ?_⟩
  · have hbad := regAccessOk_eq_false hshape
    simp [hostAccess, hostRegRead, hostRegWrite, hreset, hbad]
  · exact (if_pos hreset).trans (hostBufferRead_outside h)
  · exact (if_pos hreset).trans (if_pos h)
  · exact (if_pos hreset).trans (hostBufferRead_outside h)
  · exact (if_pos hreset).trans (if_pos h)
  · have hunseen : ¬ s.resetSeen = true := Bool.eq_false_iff.mp hreset
    cases a with
    | reset => exact absurd rfl hne
    | _ => exact if_neg hunseen

/-! ## What stays until the next accept step or reset, R69, R240 -/

/-- `t` differs from `s` at most in what the host writes, `IBUF` and `ILEN`, and in the value it last read. -/
def HostSideOnly (s t : State) : Prop := ∃ ibuf ilen rdata, t = { s with ibuf := ibuf, ilen := ilen, rdata := rdata }

theorem HostSideOnly.refl (s : State) : HostSideOnly s s := ⟨s.ibuf, s.ilen, s.rdata, rfl⟩

theorem HostSideOnly.trans {s t u : State} (h : HostSideOnly s t) (h' : HostSideOnly t u) : HostSideOnly s u := by
  obtain ⟨_, _, _, rfl⟩ := h
  obtain ⟨_, _, _, rfl⟩ := h'
  exact ⟨_, _, _, rfl⟩

theorem HostSideOnly.of_read {s t : State} (h : t = { s with rdata := t.rdata }) : HostSideOnly s t :=
  ⟨s.ibuf, s.ilen, t.rdata, h⟩

/-- A write of `REG` that is no `CMD` write reaches `ILEN` at most (R21). -/
theorem hostSideOnly_regWriteEffect {off : Nat} (hoff : off ≠ 0x00) (w : Word) (s : State) :
    HostSideOnly s (regWriteEffect off w s) := by
  rcases regWriteEffect_cases off w s with ⟨_, e⟩ | ⟨_, h, _⟩ | ⟨_, _, e⟩ | ⟨_, _, _, e⟩
  · rw [e]; exact .refl s
  · exact absurd h hoff
  · rw [e]; exact ⟨s.ibuf, w, s.rdata, rfl⟩
  · rw [e]; exact .refl s

theorem hostSideOnly_regWrite {off width : Nat} {w : Word} {s t : State} (hoff : off ≠ 0x00)
    (h : hostRegWrite off width w s = .next t) : HostSideOnly s t := by
  unfold hostRegWrite at h
  split_ifs at h
  cases h
  exact hostSideOnly_regWriteEffect hoff w s

theorem hostSideOnly_ibufWrite {addr : Nat} {bytes : List Byte} {s t : State}
    (h : hostIbufWrite addr bytes s = .next t) : HostSideOnly s t := by
  rcases hostIbufWrite_cases addr bytes s with ⟨_, e⟩ | ⟨_, _, e⟩ | ⟨_, _, e⟩ <;> cases e.symm.trans h
  · exact .refl s
  · exact ⟨_, s.ilen, s.rdata, rfl⟩

theorem hostSideOnly_obufWrite {addr : Nat} {bytes : List Byte} {s t : State}
    (h : hostObufWrite addr bytes s = .next t) : HostSideOnly s t := by
  unfold hostObufWrite at h
  split_ifs at h
  cases h
  exact .refl s

/-- `FEEDBACK` is a write of `IBUF` and one of `ILEN` (R107). -/
theorem hostSideOnly_feedback {s t : State} (h : hostFeedback s = .next t) : HostSideOnly s t := by
  unfold hostFeedback at h
  split_ifs at h
  · cases h
    exact .refl s
  · split at h
    · cases h
    · split at h
      · rename_i hwrite
        cases h
        exact (hostSideOnly_ibufWrite hwrite).trans (hostSideOnly_regWriteEffect (by decide) _ _)
      · cases h
      · cases h

/-- A host access that is neither a reset nor a write of `CMD` leaves the result alone. -/
theorem hostSideOnly_hostAccess {a : HostAccess} {s t : State} (hne : a ≠ .reset)
    (hcmd : ∀ width w, a ≠ .regWrite 0x00 width w) (h : hostAccess a s = .next t) : HostSideOnly s t := by
  cases a with
  | regRead off width => exact .of_read (hostRegRead_next (answer_of_resetSeen h))
  | regWrite off width w =>
    have hoff : off ≠ 0x00 := fun h0 => hcmd width w (h0 ▸ rfl)
    exact hostSideOnly_regWrite hoff (answer_of_resetSeen h)
  | ibufRead addr n => exact .of_read (hostBufferRead_next (answer_of_resetSeen h)).1
  | ibufWrite addr bytes => exact hostSideOnly_ibufWrite (answer_of_resetSeen h)
  | obufRead addr n => exact .of_read (hostBufferRead_next (answer_of_resetSeen h)).1
  | obufWrite addr bytes => exact hostSideOnly_obufWrite (answer_of_resetSeen h)
  | feedback => exact hostSideOnly_feedback (answer_of_resetSeen h)
  | reset => exact absurd rfl hne

/-- Settles O59, by the cases of a host access. -/
theorem resultStaysUntilAcceptOrReset : Obligations.ResultStaysUntilAcceptOrReset := by
  intro s t a _ hne hcmd h
  obtain ⟨_, _, _, rfl⟩ := hostSideOnly_hostAccess hne hcmd h
  exact ⟨rfl, rfl, rfl, rfl, rfl, rfl, rfl⟩

end Sys2Proof.Proofs
end

section
/-!
SUPPORT. Where `Pack` places each bit and what `Unpack` reads back (`20_memory.md` R62, `40_huffman_units.md` R141,
R146): both follow from the place of a bit in the number eight bits spell.
-/

namespace Sys2Proof.Proofs

open Sys2Proof.Machine Sys2Proof.Laws

/-! ## One byte, R62 -/

theorem bitsToNat_lt (xs : Bits) : bitsToNat xs < 2 ^ xs.length := by
  induction xs with
  | nil => simp [bitsToNat]
  | cons b xs ih =>
    have hb : b.toNat * 2 ^ xs.length ≤ 1 * 2 ^ xs.length := Nat.mul_le_mul_right _ (Bool.toNat_le b)
    rw [bitsToNat, List.length_cons, pow_succ]
    omega

/-- Bit `k` of a bit-string stands `k` places below the top of the number it spells. -/
theorem testBit_bitsToNat {xs : Bits} {k : Nat} (hk : k < xs.length) :
    (bitsToNat xs).testBit (xs.length - 1 - k) = xs[k] := by
  induction xs generalizing k with
  | nil => simp at hk
  | cons b xs ih =>
    rw [bitsToNat, mul_comm, Nat.testBit_two_pow_mul_add _ (bitsToNat_lt xs), List.length_cons]
    cases k with
    | zero => cases b <;> simp
    | succ k =>
      have hk' : k < xs.length := by simpa using hk
      rw [if_pos (by omega), List.getElem_cons_succ, ← ih hk']
      congr 1
      omega

/-- The byte of eight bits holds bit `k` at position `7 - k`. -/
theorem getLsbD_byte {xs : Bits} (h : xs.length = 8) {k : Nat} (hk : k < 8) :
    some ((BitVec.ofNat 8 (bitsToNat xs) : Byte).getLsbD (7 - k)) = xs[k]? := by
  have hlt : k < xs.length := by omega
  have hbit := testBit_bitsToNat hlt
  rw [h] at hbit
  rw [List.getElem?_eq_getElem hlt, BitVec.getLsbD_ofNat, hbit, decide_eq_true (by omega), Bool.true_and]

/-- `Unpack` takes the bits of a byte from bit 7 down (R146). -/
theorem byteBits_eq (b : Byte) : byteBits b = (List.range 8).map (fun k => b.getLsbD (7 - k)) := by
  have hbit (k : Nat) : (b.toNat / 2 ^ k % 2 == 1) = b.getLsbD k := by
    rw [← BitVec.testBit_toNat, Nat.testBit_eq_decide_div_mod_eq]
    rfl
  simp only [byteBits, hbit]

/-- The bits of the byte of eight bits are these bits. -/
theorem byteBits_byte {xs : Bits} (h : xs.length = 8) : byteBits (BitVec.ofNat 8 (bitsToNat xs)) = xs := by
  rw [byteBits_eq]
  refine List.ext_getElem? fun k => ?_
  by_cases hk : k < 8
  · rw [List.getElem?_map, List.getElem?_range hk, Option.map_some, getLsbD_byte h hk]
  · rw [List.getElem?_eq_none (by simpa using hk), List.getElem?_eq_none (by omega)]

/-! ## Whole bytes, R141 -/

@[simp] theorem length_packBytes (P : Nat) (ys : Bits) : (packBytes P ys).length = P := by
  induction P generalizing ys with
  | zero => rfl
  | succ P ih => rw [packBytes, List.length_cons, ih]

/-- Bit `k` lies in byte `k / 8` at position `7 - k % 8`. -/
theorem getLsbD_packBytes {P : Nat} {ys : Bits} (h : ys.length = 8 * P) {k : Nat} (hk : k < 8 * P) :
    ((packBytes P ys)[k / 8]?).map (fun b => b.getLsbD (7 - k % 8)) = ys[k]? := by
  induction P generalizing ys k with
  | zero => omega
  | succ P ih =>
    by_cases hlt : k < 8
    · have htake : (ys.take 8).length = 8 := by rw [List.length_take]; omega
      rw [packBytes, Nat.div_eq_of_lt hlt, Nat.mod_eq_of_lt hlt, List.getElem?_cons_zero, Option.map_some,
        getLsbD_byte htake hlt, List.getElem?_take_of_lt hlt]
    · obtain ⟨j, rfl⟩ : ∃ j, k = 8 + j := ⟨k - 8, by omega⟩
      have hdrop : (ys.drop 8).length = 8 * P := by rw [List.length_drop]; omega
      rw [packBytes, Nat.add_div_left j (by decide), List.getElem?_cons_succ, Nat.add_mod_left,
        ih hdrop (by omega), List.getElem?_drop]

/-- The bits of the packed bytes are the bits packed. -/
theorem flatMap_byteBits_packBytes {P : Nat} {ys : Bits} (h : ys.length = 8 * P) :
    (packBytes P ys).flatMap byteBits = ys := by
  induction P generalizing ys with
  | zero => rw [List.length_eq_zero_iff.mp h]; rfl
  | succ P ih =>
    have htake : (ys.take 8).length = 8 := by rw [List.length_take]; omega
    have hdrop : (ys.drop 8).length = 8 * P := by rw [List.length_drop]; omega
    rw [packBytes, List.flatMap_cons, byteBits_byte htake, ih hdrop, List.take_append_drop]

/-! ## The padded bits, R141, R146 -/

/-- The bits `Pack` cuts into bytes: those given, then the padding. -/
def paddedBits (bits : Bits) : Bits := bits ++ List.replicate (padCount bits.length) false

theorem pack_eq (bits : Bits) :
    pack bits = (packBytes (packLength bits.length) (paddedBits bits), padCount bits.length) := rfl

/-- The bits given and the padding fill the bytes. -/
theorem add_padCount (B : Nat) : B + padCount B = 8 * packLength B := by
  unfold padCount packLength
  omega

theorem length_paddedBits (bits : Bits) : (paddedBits bits).length = 8 * packLength bits.length := by
  rw [paddedBits, List.length_append, List.length_replicate, add_padCount]

theorem getElem?_paddedBits_of_lt {bits : Bits} {k : Nat} (hk : k < bits.length) :
    (paddedBits bits)[k]? = bits[k]? := List.getElem?_append_left hk

theorem getElem?_paddedBits_of_ge {bits : Bits} {k : Nat} (hk : bits.length ≤ k)
    (hend : k < 8 * packLength bits.length) : (paddedBits bits)[k]? = some false := by
  have hpad := add_padCount bits.length
  rw [paddedBits, List.getElem?_append_right hk, List.getElem?_replicate, if_pos (by omega)]

/-- The padding stands in the low bits of the last byte. -/
theorem getLsbD_last_of_lt_padCount {bits : Bits} {b : Byte}
    (hb : b ∈ (packBytes (packLength bits.length) (paddedBits bits)).getLast?) {j : Nat}
    (hj : j < padCount bits.length) : b.getLsbD j = false := by
  have hpad := add_padCount bits.length
  have hpad7 : padCount bits.length ≤ 7 := by unfold padCount packLength; omega
  rw [List.getLast?_eq_getElem?, length_packBytes] at hb
  have hk : 8 * packLength bits.length - 1 - j < 8 * packLength bits.length := by omega
  have hbyte : (8 * packLength bits.length - 1 - j) / 8 = packLength bits.length - 1 := by omega
  have hbit : 7 - (8 * packLength bits.length - 1 - j) % 8 = j := by omega
  have hplace := getLsbD_packBytes (length_paddedBits bits) hk
  rw [hbyte, hbit, Option.mem_def.mp hb, getElem?_paddedBits_of_ge (by omega) hk] at hplace
  exact Option.some.inj hplace

theorem unpack_packBytes_paddedBits (bits : Bits) :
    unpack (packBytes (packLength bits.length) (paddedBits bits)) (padCount bits.length) = bits := by
  have hbits : 8 * packLength bits.length - padCount bits.length = bits.length := by
    rw [← add_padCount, Nat.add_sub_cancel_right]
  rw [unpack, flatMap_byteBits_packBytes (length_paddedBits bits), length_packBytes, hbits]
  exact List.take_left' rfl

/-- Settles O32: the place of a bit, `getLsbD_packBytes`, at the bits given and at the padding, and the way back. -/
theorem packPlacesBitsAndUnpackInverts : Obligations.PackPlacesBitsAndUnpackInverts := by
  intro bits
  rw [pack_eq]
  refine ⟨length_packBytes _ _, ?_, fun k hk => ?_, fun b hb j hj => getLsbD_last_of_lt_padCount hb hj,
    unpack_packBytes_paddedBits bits⟩
  · simp only [padCount, packLength]
    omega
  · have hend : k < 8 * packLength bits.length := by rw [← add_padCount]; omega
    rw [getLsbD_packBytes (length_paddedBits bits) hend, getElem?_paddedBits_of_lt hk]

end Sys2Proof.Proofs
end

section
/-!
SUPPORT. Command words and assembler texts (`30_encoding.md` R90 to R93, R106): a row of the table selects a word exactly
when the word is the one its command encodes to, so decoder and encoder are inverse, and the illegal words are those with
a field that no command has.
-/

namespace Sys2Proof.Proofs

open Sys2Proof.Machine Sys2Proof.Laws

/-! ## The ten commands, R91 -/

theorem mem_allInstrs (i : Instr) : i ∈ allInstrs := by
  cases i with
  | hufd => decide
  | rled => decide
  | hufc d => cases d <;> decide
  | rlec d => cases d <;> decide
  | arlec d => cases d <;> decide
  | anlz d => cases d <;> decide

/-! ## The rows of the table, R91 -/

/-- `DOM` in its place is bit 8 of the word. -/
theorem domField_domBit (w : Word) : domField (domainOfBit (domBit w)) = w &&& 1#32 <<< 8 := by
  rw [← BitVec.twoPow_eq, BitVec.and_twoPow, BitVec.twoPow_eq, domBit]
  cases w.getLsbD 8 <;> rfl

/-- A word is its bit 8 beside its other bits. -/
theorem word_eq_or_domField (w : Word) : (w &&& 0xFFFFFEFF#32) ||| domField (domainOfBit (domBit w)) = w := by
  rw [domField_domBit, ← BitVec.and_or_distrib_left]
  exact BitVec.and_allOnes

/-- A row without a `DOM` bit selects the word of its pattern alone. -/
theorem selects_full_iff (w p : Word) : w &&& 0xFFFFFFFF#32 = p ↔ p = w := by
  rw [show w &&& 0xFFFFFFFF#32 = w from BitVec.and_allOnes, eq_comm]

/-- A row with a `DOM` bit selects the words that differ from its pattern in bit 8 at most. -/
theorem selects_dom_iff {p : Word} (hp : p &&& 0xFFFFFEFF#32 = p) (w : Word) :
    w &&& 0xFFFFFEFF#32 = p ↔ p ||| domField (domainOfBit (domBit w)) = w := by
  constructor
  · rintro rfl
    exact word_eq_or_domField w
  · intro h
    have hdom (d : Domain) : domField d &&& 0xFFFFFEFF#32 = 0#32 := by cases d <;> rfl
    rw [← h, BitVec.and_or_distrib_right, hp, hdom, BitVec.or_zero]

/-- A row selects exactly the word that its command encodes to. -/
theorem selects_iff {r : OpRow} (hr : r ∈ opTable) (w : Word) :
    r.selects w = true ↔ encode (r.command (domainOfBit (domBit w))) = w := by
  simp only [opTable, List.mem_cons, List.not_mem_nil, or_false] at hr
  rw [OpRow.selects, beq_iff_eq]
  rcases hr with rfl | rfl | rfl | rfl | rfl | rfl
  · exact selects_dom_iff (by decide) w
  · rw [show encode _ = 0x2#32 from (by decide : encode .hufd = 0x2#32)]
    exact selects_full_iff w _
  · exact selects_dom_iff (by decide) w
  · exact selects_dom_iff (by decide) w
  · rw [show encode _ = 0x5#32 from (by decide : encode .rled = 0x5#32)]
    exact selects_full_iff w _
  · exact selects_dom_iff (by decide) w

/-! ## Decoder and encoder, R90 to R92 -/

/-- The decoder reads back the word of every command of the block. -/
theorem decode_encode {hasAnlz : Bool} {i : Instr} (h : i.wf hasAnlz = true) :
    decode hasAnlz (encode i) = .command i := by
  have hall : ∀ i ∈ allInstrs, decode true (encode i) = .command i := by decide
  exact decode_of_wf (hall i (mem_allInstrs i)) h

/-- A decoded command is one of the block, and its word is the word decoded. -/
theorem encode_of_decode {hasAnlz : Bool} {w : Word} {i : Instr} (h : decode hasAnlz w = .command i) :
    i.wf hasAnlz = true ∧ encode i = w := by
  unfold decode at h
  cases hrow : opTable.find? (fun r => r.selects w) with
  | none => simp only [hrow] at h; cases h
  | some r =>
    have hselects : r.selects w = true := List.find?_some (p := fun r : OpRow => r.selects w) hrow
    simp only [hrow] at h
    split_ifs at h with hwf
    cases h
    exact ⟨hwf, (selects_iff (List.mem_of_find?_eq_some hrow) w).mp hselects⟩

/-- Settles O1: `decode_encode` one way, `encode_of_decode` the other. -/
theorem commandWordsDecodeAndEncodeAgree : Obligations.CommandWordsDecodeAndEncodeAgree :=
  fun _ _ _ => ⟨encode_of_decode, fun ⟨hwf, henc⟩ => henc ▸ decode_encode hwf⟩

/-- Settles O2: each of the ten words is the one its command encodes to. -/
theorem legalWordsDecode : Obligations.LegalWordsDecode :=
  ⟨decode_encode (i := .hufc .byte) rfl, decode_encode (i := .hufc .char) rfl, decode_encode (i := .hufd) rfl,
    decode_encode (i := .rlec .byte) rfl, decode_encode (i := .rlec .char) rfl, decode_encode (i := .arlec .byte) rfl,
    decode_encode (i := .arlec .char) rfl, decode_encode (i := .rled) rfl, decode_encode (i := .anlz .byte) rfl,
    decode_encode (i := .anlz .char) rfl⟩

/-! ## Illegal words, R93 -/

/-- The fields of a command word: `OP` in bits 7:0, `DOM` in bit 8. -/
theorem encode_toNat (i : Instr) : (encode i).toNat = i.op.toNat + 256 * (domainCode i.dom).toNat := by
  have hall : ∀ i ∈ allInstrs, (encode i).toNat = i.op.toNat + 256 * (domainCode i.dom).toNat := by decide
  exact hall i (mem_allInstrs i)

/-- A word with the fields of a command and no reserved bit set is that command's word. -/
theorem encode_eq_of_fields {w : Word} {i : Instr} (hres : w.toNat / 512 = 0) (hop : w.toNat % 256 = i.op.toNat)
    (hdom : w.toNat / 256 % 2 = (domainCode i.dom).toNat) : encode i = w := by
  refine BitVec.eq_of_toNat_eq ?_
  rw [encode_toNat]
  omega

/-- The five cases of R93, for a block that has the analyzer when `hasAnlz`. -/
def IllegalWord (hasAnlz : Bool) (w : Word) : Prop :=
  w.toNat % 256 = 0x00 ∨ 0x07 ≤ w.toNat % 256 ∨ (w.toNat % 256 = 0x06 ∧ hasAnlz = false) ∨ w.toNat / 512 ≠ 0 ∨
    (w.toNat / 256 % 2 = 1 ∧ (w.toNat % 256 = 0x02 ∨ w.toNat % 256 = 0x05))

/-- No command's word is illegal on a block that has the command. -/
theorem not_illegalWord_encode {hasAnlz : Bool} {i : Instr} (h : i.wf hasAnlz = true) :
    ¬ IllegalWord hasAnlz (encode i) := by
  have hall : ∀ h : Bool, ∀ i ∈ allInstrs, i.wf h = true → ¬ IllegalWord h (encode i) := by
    unfold IllegalWord
    decide
  exact hall hasAnlz i (mem_allInstrs i) h

/-- Outside the cases of R93 a word is that of a command of the block. -/
theorem exists_encode_of_not_illegalWord {hasAnlz : Bool} {w : Word} (h : ¬ IllegalWord hasAnlz w) :
    ∃ i : Instr, i.wf hasAnlz = true ∧ encode i = w := by
  simp only [IllegalWord, not_or, not_and, not_not] at h
  obtain ⟨hzero, hhigh, hanlz, hres, hdom⟩ := h
  obtain ⟨d, hd⟩ : ∃ d : Domain, w.toNat / 256 % 2 = (domainCode d).toNat := by
    rcases Nat.mod_two_eq_zero_or_one (w.toNat / 256) with h0 | h1
    · exact ⟨.byte, h0⟩
    · exact ⟨.char, h1⟩
  have hop : w.toNat % 256 = 1 ∨ w.toNat % 256 = 2 ∨ w.toNat % 256 = 3 ∨ w.toNat % 256 = 4 ∨ w.toNat % 256 = 5 ∨
      w.toNat % 256 = 6 := by omega
  rcases hop with hop | hop | hop | hop | hop | hop
  · exact ⟨.hufc d, rfl, encode_eq_of_fields hres hop hd⟩
  · exact ⟨.hufd, rfl, encode_eq_of_fields hres hop (show _ = 0 by omega)⟩
  · exact ⟨.rlec d, rfl, encode_eq_of_fields hres hop hd⟩
  · exact ⟨.arlec d, rfl, encode_eq_of_fields hres hop hd⟩
  · exact ⟨.rled, rfl, encode_eq_of_fields hres hop (show _ = 0 by omega)⟩
  · exact ⟨.anlz d, Bool.not_eq_false _ ▸ hanlz hop, encode_eq_of_fields hres hop hd⟩

theorem decode_illegal_iff (hasAnlz : Bool) (w : Word) :
    (∃ why, decode hasAnlz w = .illegal why) ↔ IllegalWord hasAnlz w := by
  constructor
  · rintro ⟨why, hdec⟩
    by_contra hlegal
    obtain ⟨i, hwf, rfl⟩ := exists_encode_of_not_illegalWord hlegal
    cases hdec.symm.trans (decode_encode hwf)
  · intro hillegal
    cases hdec : decode hasAnlz w with
    | illegal why => exact ⟨why, rfl⟩
    | command i =>
      obtain ⟨hwf, rfl⟩ := encode_of_decode hdec
      exact absurd hillegal (not_illegalWord_encode hwf)

/-- Settles O3: the illegal words are those no command encodes to, an idle block accepts any word, and an illegal one
completes with its error. -/
theorem illegalWordsEndWithIllegalCommandError : Obligations.IllegalWordsEndWithIllegalCommandError := by
  refine ⟨decode_illegal_iff, fun s w late rest hb hreset hport => ?_, fun s why hcore hdec => ?_⟩
  · obtain ⟨t, hstep, hcmdr, hbusy, _⟩ := step_accepts hb hreset hport
    exact ⟨t, hstep, hcmdr, hbusy⟩
  · have hdone : completionStep s = .next (takeError .illegalCommand s) := by simp only [completionStep, hdec]
    exact ⟨_, (step_of_coreMovesNext hcore).trans hdone, takeError_failure .illegalCommand s⟩

/-! ## The assembler, R106 -/

/-- Settles O4: each of the ten texts is found at its own command. -/
theorem assemblerRoundTrip : Obligations.AssemblerRoundTrip := by
  have hall : ∀ i ∈ allInstrs, assemble i.asm = some i := by decide +kernel
  exact fun i => hall i (mem_allInstrs i)

end Sys2Proof.Proofs
end

section
/-!
SUPPORT. Payload layouts (`30_encoding.md` R97 to R105): the fields of a layout at their offsets, and the parsers of trees
and items against the records they read. A region deserializes to a tree exactly when it is the tree's serialization.
-/

namespace Sys2Proof.Proofs

open Sys2Proof.Machine Sys2Proof.Laws

/-! ## Fields, R66, R95 -/

@[simp] theorem field_cons_zero (b : Byte) (bs : List Byte) : field (b :: bs) 0 1 = b.toNat := by
  simp [field, leNat]

@[simp] theorem field_cons_succ (b : Byte) (bs : List Byte) (off n : Nat) :
    field (b :: bs) (off + 1) n = field bs off n := rfl

/-- A field after a little-endian number. -/
theorem field_leBytes_append (m v : Nat) (bs : List Byte) (off n : Nat) :
    field (leBytes m v ++ bs) (m + off) n = field bs off n := by
  have h := field_append_right (leBytes m v) bs off n
  rwa [length_leBytes] at h

/-- A `u32` at the head of a byte list. -/
theorem field_u32 {v : Nat} (h : v < 2 ^ 32) (bs : List Byte) : field (leBytes 4 v ++ bs) 0 4 = v :=
  field_leBytes 4 v bs h

theorem drop_leBytes_append (m v : Nat) (bs : List Byte) : (leBytes m v ++ bs).drop m = bs :=
  List.drop_left' (length_leBytes m v)

theorem field_lt (bs : List Byte) (off n : Nat) : field bs off n < 256 ^ n :=
  (leNat_lt _).trans_le (Nat.pow_le_pow_right (by decide) (List.length_take_le n _))

/-- The bytes of a field are the little-endian form of its value. -/
theorem leBytes_field_append {bs : List Byte} {off n : Nat} (h : off + n ≤ bs.length) :
    leBytes n (field bs off n) ++ bs.drop (off + n) = bs.drop off := by
  have htake : ((bs.drop off).take n).length = n := by simp; omega
  have hle := leBytes_leNat ((bs.drop off).take n)
  rw [htake] at hle
  rw [field, hle, ← List.drop_drop, List.take_append_drop]

theorem symbolField_lt (d : Domain) (bs : List Byte) (off : Nat) : field bs off (symb d) < symbolBound d :=
  symbolBound_eq d ▸ field_lt bs off (symb d)

theorem domainOfCode_domainCode (d : Domain) : domainOfCode (domainCode d).toNat = d := by cases d <;> rfl

theorem algoOfCode_algoCode (alg : Algo) : algoOfCode (algoCode alg).toNat = alg := by cases alg <;> rfl

theorem domainCode_le (d : Domain) : (domainCode d).toNat ≤ 1 := by cases d <;> decide

theorem algoCode_le (alg : Algo) : (algoCode alg).toNat ≤ 1 := by cases alg <;> decide

/-! ## The Huffman layout, R97 -/

/-- The layout of R97 with any bytes in the two regions. -/
def huffLayout (d : Domain) (pad origLen : Nat) (region packed : List Byte) : List Byte :=
  [domainCode d, BitVec.ofNat 8 pad] ++ leBytes 4 origLen ++ leBytes 4 region.length ++
    leBytes 4 packed.length ++ region ++ packed

theorem encHuff_eq_huffLayout (d : Domain) (pad origLen : Nat) (T : Node) (packed : List Byte) :
    encHuff d pad origLen T packed = huffLayout d pad origLen (serialize d T) packed := rfl

theorem length_huffLayout (d : Domain) (pad origLen : Nat) (region packed : List Byte) :
    (huffLayout d pad origLen region packed).length = 14 + region.length + packed.length := by
  simp only [huffLayout, List.length_append, List.length_cons, List.length_nil, length_leBytes]

theorem drop_huffLayout (d : Domain) (pad origLen : Nat) (region packed : List Byte) :
    (huffLayout d pad origLen region packed).drop 14 = region ++ packed := by
  rw [huffLayout, List.append_assoc _ region packed]
  exact List.drop_left' (by simp)

theorem treeRegion_huffLayout (d : Domain) (pad origLen : Nat) (region packed : List Byte) :
    ((huffLayout d pad origLen region packed).drop 14).take region.length = region := by
  rw [drop_huffLayout, List.take_left' rfl]

theorem packedRegion_huffLayout (d : Domain) (pad origLen : Nat) (region packed : List Byte) :
    (huffLayout d pad origLen region packed).drop (14 + region.length) = packed := by
  rw [← List.drop_drop, drop_huffLayout, List.drop_left' rfl]

/-- The header holds the fields and the lengths of the regions. -/
theorem huffHeader_huffLayout (d : Domain) {pad origLen : Nat} {region packed : List Byte} (hpad : pad < 2 ^ 8)
    (horig : origLen < 2 ^ 32) (hregion : region.length < 2 ^ 32) (hpacked : packed.length < 2 ^ 32) :
    huffHeader (huffLayout d pad origLen region packed) =
      { domain := (domainCode d).toNat, pad := pad, origLen := origLen, treeLen := region.length,
        packLen := packed.length } := by
  simp only [huffHeader, huffLayout, List.cons_append, List.nil_append, List.append_assoc, HuffHeader.mk.injEq]
  refine ⟨field_cons_zero _ _, ?_, field_u32 horig _, ?_, ?_⟩
  · rw [field_cons_succ, field_cons_zero, BitVec.toNat_ofNat, Nat.mod_eq_of_lt hpad]
  · exact (field_leBytes_append 4 origLen _ 0 4).trans (field_u32 hregion _)
  · exact (field_leBytes_append 4 origLen _ 4 4).trans ((field_leBytes_append 4 _ _ 0 4).trans (field_u32 hpacked _))

/-! ## The RLE layout, R101 -/

/-- The layout of R101 with any bytes in the region. -/
def rleLayout (d : Domain) (alg : Algo) (origLen : Nat) (region : List Byte) : List Byte :=
  [domainCode d, algoCode alg] ++ leBytes 4 origLen ++ leBytes 4 region.length ++ region

theorem encRle_eq_rleLayout (d : Domain) (alg : Algo) (origLen : Nat) (items : List Item) :
    encRle d alg origLen items = rleLayout d alg origLen (itemRecords d items) := rfl

theorem length_rleLayout (d : Domain) (alg : Algo) (origLen : Nat) (region : List Byte) :
    (rleLayout d alg origLen region).length = 10 + region.length := by
  simp only [rleLayout, List.length_append, List.length_cons, List.length_nil, length_leBytes]

theorem drop_rleLayout (d : Domain) (alg : Algo) (origLen : Nat) (region : List Byte) :
    (rleLayout d alg origLen region).drop 10 = region := List.drop_left' (by simp)

/-- The header holds the fields and the length of the region. -/
theorem rleHeader_rleLayout (d : Domain) (alg : Algo) {origLen : Nat} {region : List Byte}
    (horig : origLen < 2 ^ 32) (hregion : region.length < 2 ^ 32) :
    rleHeader (rleLayout d alg origLen region) =
      { domain := (domainCode d).toNat, alg := (algoCode alg).toNat, origLen := origLen,
        itemsLen := region.length } := by
  simp only [rleHeader, rleLayout, List.cons_append, List.nil_append, List.append_assoc, RleHeader.mk.injEq]
  refine ⟨field_cons_zero _ _, field_cons_zero _ _, field_u32 horig _, ?_⟩
  exact (field_leBytes_append 4 origLen _ 0 4).trans (field_u32 hregion _)

/-! ## Tree records, R99, R143, R144 -/

theorem nodeFits_leaf {d : Domain} {s f : Nat} :
    nodeFits d (.leaf s f) = true ↔ s < symbolBound d ∧ f < 2 ^ 32 := decide_eq_true_iff

theorem nodeFits_internal {d : Domain} {f : Nat} {l r : Node} :
    nodeFits d (.internal f l r) = true ↔ f < 2 ^ 32 ∧ nodeFits d l = true ∧ nodeFits d r = true := by
  rw [nodeFits, Bool.and_eq_true, Bool.and_eq_true, decide_eq_true_iff, and_assoc]

theorem nodeFits_wrap {d : Domain} {f : Nat} {c : Node} :
    nodeFits d (.wrap f c) = true ↔ f < 2 ^ 32 ∧ nodeFits d c = true := by
  rw [nodeFits, Bool.and_eq_true, decide_eq_true_iff]

/-- A tree that fits the records parses from its serialization, whatever follows. -/
theorem parseTree_serialize {d : Domain} {T : Node} (hT : nodeFits d T = true) {k : Nat} (rest : List Byte)
    (hk : (serialize d T).length ≤ k) : parseTree d k (serialize d T ++ rest) = some (T, rest) := by
  induction T generalizing k rest with
  | leaf s f =>
    obtain ⟨hs, hf⟩ := nodeFits_leaf.mp hT
    rw [symbolBound_eq] at hs
    rw [length_serialize] at hk
    simp only at hk
    obtain ⟨k, rfl⟩ : ∃ j, k = j + 1 := ⟨k - 1, by omega⟩
    have hlen : ¬ (leBytes (symb d) s ++ (leBytes 4 f ++ rest)).length < symb d + 4 := by simp
    have hfield : field (leBytes (symb d) s ++ (leBytes 4 f ++ rest)) (symb d) 4 = f :=
      (field_leBytes_append _ _ _ 0 4).trans (field_u32 hf rest)
    simp only [serialize, List.cons_append, List.append_assoc, parseTree, if_pos, if_neg hlen, hfield,
      field_leBytes _ _ _ hs, ← List.drop_drop, drop_leBytes_append]
  | internal f l r ihl ihr =>
    obtain ⟨hf, hl, hr⟩ := nodeFits_internal.mp hT
    rw [length_serialize] at hk
    simp only at hk
    obtain ⟨k, rfl⟩ : ∃ j, k = j + 1 := ⟨k - 1, by omega⟩
    have hlen : ¬ (leBytes 4 f ++ (serialize d l ++ (serialize d r ++ rest))).length < 4 := by simp
    simp only [serialize, List.cons_append, List.append_assoc, parseTree, if_neg (show ¬ 0x01#8 = 0x00#8 by decide),
      if_pos, if_neg hlen, field_u32 hf, drop_leBytes_append, ihl hl _ (by omega : (serialize d l).length ≤ k),
      ihr hr _ (by omega : (serialize d r).length ≤ k)]
  | wrap f c ih =>
    obtain ⟨hf, hc⟩ := nodeFits_wrap.mp hT
    rw [length_serialize] at hk
    simp only at hk
    obtain ⟨k, rfl⟩ : ∃ j, k = j + 1 := ⟨k - 1, by omega⟩
    have hlen : ¬ (leBytes 4 f ++ (serialize d c ++ rest)).length < 4 := by simp
    simp only [serialize, List.cons_append, List.append_assoc, parseTree, if_neg (show ¬ 0x02#8 = 0x00#8 by decide),
      if_neg (show ¬ 0x02#8 = 0x01#8 by decide), if_pos, if_neg hlen, field_u32 hf, drop_leBytes_append,
      ih hc _ (by omega : (serialize d c).length ≤ k)]

/-- What parses as a tree is the serialization of that tree and what follows it. -/
theorem serialize_of_parseTree {d : Domain} {k : Nat} {bs rest : List Byte} {T : Node}
    (h : parseTree d k bs = some (T, rest)) : nodeFits d T = true ∧ serialize d T ++ rest = bs := by
  have hfreq (bs : List Byte) (off : Nat) : field bs off 4 < 2 ^ 32 := field_lt bs off 4
  induction k generalizing bs T rest with
  | zero => cases h
  | succ k ih =>
    cases bs with
    | nil => cases h
    | cons tag tl =>
      simp only [parseTree] at h
      split_ifs at h with htag hlen htag hlen htag hlen
      · cases h
        have hsym := leBytes_field_append (bs := tl) (off := 0) (n := symb d) (by omega)
        have hf := leBytes_field_append (bs := tl) (off := symb d) (n := 4) (by omega)
        rw [Nat.zero_add] at hsym
        refine ⟨nodeFits_leaf.mpr ⟨symbolField_lt d _ _, hfreq _ _⟩, ?_⟩
        rw [serialize, List.cons_append, List.append_assoc, hf, hsym, htag, List.drop_zero]
      · have hf := leBytes_field_append (bs := tl) (off := 0) (n := 4) (by omega)
        rw [Nat.zero_add] at hf
        cases hl : parseTree d k (tl.drop 4) with
        | none => simp [hl] at h
        | some l =>
          obtain ⟨l, rest1⟩ := l
          cases hr : parseTree d k rest1 with
          | none => simp [hl, hr] at h
          | some r =>
            obtain ⟨r, rest2⟩ := r
            simp only [hl, hr] at h
            cases h
            obtain ⟨hlfit, hlbytes⟩ := ih hl
            obtain ⟨hrfit, hrbytes⟩ := ih hr
            refine ⟨nodeFits_internal.mpr ⟨hfreq _ _, hlfit, hrfit⟩, ?_⟩
            rw [serialize, List.cons_append, List.append_assoc, List.append_assoc, hrbytes, hlbytes, hf, htag,
              List.drop_zero]
      · have hf := leBytes_field_append (bs := tl) (off := 0) (n := 4) (by omega)
        rw [Nat.zero_add] at hf
        cases hc : parseTree d k (tl.drop 4) with
        | none => simp [hc] at h
        | some c =>
          obtain ⟨c, rest1⟩ := c
          simp only [hc] at h
          cases h
          obtain ⟨hcfit, hcbytes⟩ := ih hc
          refine ⟨nodeFits_wrap.mpr ⟨hfreq _ _, hcfit⟩, ?_⟩
          rw [serialize, List.cons_append, List.append_assoc, hcbytes, hf, htag, List.drop_zero]

/-- A region holds a tree exactly when it is the serialization of that tree (R144). -/
theorem deserialize_eq_some_iff {d : Domain} {region : List Byte} {T : Node} :
    deserialize d region = some T ↔ nodeFits d T = true ∧ serialize d T = region := by
  unfold deserialize
  constructor
  · intro h
    split at h
    · rename_i hparse
      cases h
      simpa using serialize_of_parseTree hparse
    · cases h
    · cases h
  · rintro ⟨hT, rfl⟩
    have hparse := parseTree_serialize hT [] (Nat.le_succ (serialize d T).length)
    rw [List.append_nil] at hparse
    rw [hparse]

/-! ## Item records, R102, R103 -/

/-- The tag of an item's record. -/
def itemTag : Item → Byte
  | .single _ => 0x00#8
  | .run _ _ => 0x01#8
  | .shortRun _ _ => 0x02#8
  | .sequence _ => 0x03#8

/-- An item's record after the tag. -/
def itemBody (d : Domain) : Item → List Byte
  | .single x => leBytes (symb d) x
  | .run x c => leBytes (symb d) x ++ leBytes 4 c
  | .shortRun x c => leBytes (symb d) x ++ leBytes 1 c
  | .sequence q => BitVec.ofNat 8 q.length :: streamBytes d q

theorem itemRecord_eq (d : Domain) (i : Item) : itemRecord d i = itemTag i :: itemBody d i := by cases i <;> rfl

/-- An algorithm recognises the tags of the items it may hold, and no other item's. -/
theorem recognised_itemTag (alg : Algo) (i : Item) : recognised alg (itemTag i) = itemAllowed alg i := by
  cases alg <;> cases i <;> rfl

/-- A symbol and a count after it, as `RUN` and `SHORTRUN` hold them. -/
theorem symbol_count_fields {d : Domain} {x c n : Nat} (hx : x < symbolBound d) (hc : c < 256 ^ n) (rest : List Byte) :
    ¬ (leBytes (symb d) x ++ (leBytes n c ++ rest)).length < symb d + n ∧
      field (leBytes (symb d) x ++ (leBytes n c ++ rest)) 0 (symb d) = x ∧
      field (leBytes (symb d) x ++ (leBytes n c ++ rest)) (symb d) n = c ∧
      (leBytes (symb d) x ++ (leBytes n c ++ rest)).drop (symb d + n) = rest := by
  rw [symbolBound_eq] at hx
  refine ⟨by simp, field_leBytes _ _ _ hx, (field_leBytes_append _ _ _ 0 n).trans (field_leBytes n c rest hc), ?_⟩
  rw [← List.drop_drop, drop_leBytes_append, drop_leBytes_append]

/-- An item that fits its record parses from it, whatever follows. -/
theorem parseBody_itemBody {d : Domain} {i : Item} (h : itemFits d i = true) (rest : List Byte) :
    parseBody d (itemTag i) (itemBody d i ++ rest) = some (i, rest) := by
  cases i with
  | single x =>
    have hx : x < 256 ^ symb d := symbolBound_eq d ▸ of_decide_eq_true h
    have hlen : ¬ (leBytes (symb d) x ++ rest).length < symb d := by simp
    simp only [parseBody, itemTag, itemBody, if_pos, if_neg hlen, field_leBytes _ _ _ hx, drop_leBytes_append]
  | run x c =>
    obtain ⟨hx, hc⟩ : x < symbolBound d ∧ c < 2 ^ 32 := of_decide_eq_true h
    obtain ⟨hlen, hsym, hcount, hdrop⟩ := symbol_count_fields (n := 4) hx hc rest
    simp only [parseBody, itemTag, itemBody, List.append_assoc, if_neg (show ¬ 0x01#8 = 0x00#8 by decide), if_pos,
      if_neg hlen, hsym, hcount, hdrop]
  | shortRun x c =>
    obtain ⟨hx, hc⟩ : x < symbolBound d ∧ c < 2 ^ 8 := of_decide_eq_true h
    obtain ⟨hlen, hsym, hcount, hdrop⟩ := symbol_count_fields (n := 1) hx hc rest
    simp only [parseBody, itemTag, itemBody, List.append_assoc, if_neg (show ¬ 0x02#8 = 0x00#8 by decide),
      if_neg (show ¬ 0x02#8 = 0x01#8 by decide), if_pos, if_neg hlen, hsym, hcount, hdrop]
  | sequence q =>
    simp only [itemFits, Bool.and_eq_true, decide_eq_true_eq, List.all_eq_true] at h
    obtain ⟨hq, hsyms⟩ := h
    have hlen : ¬ (BitVec.ofNat 8 q.length :: (streamBytes d q ++ rest)).length < 1 := by simp
    have hn : field (BitVec.ofNat 8 q.length :: (streamBytes d q ++ rest)) 0 1 = q.length := by
      rw [field_cons_zero, BitVec.toNat_ofNat, Nat.mod_eq_of_lt hq]
    have hbody : ¬ (BitVec.ofNat 8 q.length :: (streamBytes d q ++ rest)).length < 1 + q.length * symb d := by
      simp only [List.length_cons, List.length_append, length_streamBytes]
      omega
    simp only [parseBody, itemTag, itemBody, List.cons_append, if_neg (show ¬ 0x03#8 = 0x00#8 by decide),
      if_neg (show ¬ 0x03#8 = 0x01#8 by decide), if_neg (show ¬ 0x03#8 = 0x02#8 by decide), if_neg hlen, hn,
      if_neg hbody, ← List.drop_drop, List.drop_succ_cons, List.drop_zero,
      List.take_left' (length_streamBytes d q), List.drop_left' (length_streamBytes d q),
      symbolsOf_streamBytes d q hsyms]

/-- One pass of the item loop over a well-formed record (R200). -/
theorem parseItems_itemRecord {d : Domain} {alg : Algo} {i : Item} (hfit : itemFits d i = true)
    (hallowed : itemAllowed alg i = true) (k : Nat) (rest : List Byte) :
    parseItems d alg (k + 1) (itemRecord d i ++ rest) = (parseItems d alg k rest).map (fun is => i :: is) := by
  simp only [itemRecord_eq, List.cons_append, parseItems, recognised_itemTag, hallowed, if_true,
    parseBody_itemBody hfit]
  cases parseItems d alg k rest <;> rfl

/-- The item loop over well-formed records goes on with what follows them. -/
theorem parseItems_itemRecords {d : Domain} {alg : Algo} {items : List Item}
    (h : ∀ i ∈ items, itemFits d i = true ∧ itemAllowed alg i = true) (k : Nat) (rest : List Byte) :
    parseItems d alg (items.length + k) (itemRecords d items ++ rest) =
      (parseItems d alg k rest).map (fun is => items ++ is) := by
  induction items with
  | nil =>
    rw [List.length_nil, Nat.zero_add, itemRecords_nil, List.nil_append]
    cases parseItems d alg k rest <;> rfl
  | cons i items ih =>
    obtain ⟨⟨hfit, hallowed⟩, hrest⟩ := List.forall_mem_cons.mp h
    rw [itemRecords_cons, List.append_assoc, List.length_cons, Nat.add_right_comm,
      parseItems_itemRecord hfit hallowed, ih hrest]
    cases parseItems d alg k rest <;> rfl

/-- A record is never empty, so the length of the region bounds the number of items. -/
theorem length_le_length_itemRecords (d : Domain) (items : List Item) :
    items.length ≤ (itemRecords d items).length := by
  induction items with
  | nil => exact Nat.le_refl 0
  | cons i items ih =>
    rw [itemRecords_cons, itemRecord_eq, List.cons_append, List.length_cons, List.length_cons, List.length_append]
    omega

/-- The items of a region of well-formed records. -/
theorem parseItems_of_records {d : Domain} {alg : Algo} {items : List Item} {k : Nat}
    (h : ∀ i ∈ items, itemFits d i = true ∧ itemAllowed alg i = true) (hk : (itemRecords d items).length ≤ k) :
    parseItems d alg k (itemRecords d items) = .ok items := by
  have hle := length_le_length_itemRecords d items
  obtain ⟨j, rfl⟩ := Nat.exists_eq_add_of_le (hle.trans hk)
  have hnil : parseItems d alg j [] = .ok [] := by cases j <;> rfl
  have hparse := parseItems_itemRecords h j []
  rw [List.append_nil, hnil] at hparse
  rw [hparse]
  exact congrArg Except.ok (List.append_nil items)

/-! ## The encodings are injective, R105 -/

/-- Equal layouts have equal fields and regions. -/
theorem huffLayout_inj {d d' : Domain} {pad pad' origLen origLen' : Nat} {region region' packed packed' : List Byte}
    (hpad : pad < 2 ^ 8) (hpad' : pad' < 2 ^ 8) (horig : origLen < 2 ^ 32) (horig' : origLen' < 2 ^ 32)
    (hregion : region.length < 2 ^ 32) (hregion' : region'.length < 2 ^ 32) (hpacked : packed.length < 2 ^ 32)
    (hpacked' : packed'.length < 2 ^ 32)
    (h : huffLayout d pad origLen region packed = huffLayout d' pad' origLen' region' packed') :
    d = d' ∧ pad = pad' ∧ origLen = origLen' ∧ region = region' ∧ packed = packed' := by
  have hheader := congrArg huffHeader h
  rw [huffHeader_huffLayout d hpad horig hregion hpacked, huffHeader_huffLayout d' hpad' horig' hregion' hpacked',
    HuffHeader.mk.injEq] at hheader
  obtain ⟨hdom, hpadeq, horigeq, htree, _⟩ := hheader
  have hdomain := congrArg domainOfCode hdom
  rw [domainOfCode_domainCode, domainOfCode_domainCode] at hdomain
  have hregioneq := treeRegion_huffLayout d pad origLen region packed
  rw [h, htree, treeRegion_huffLayout] at hregioneq
  have hpackedeq := packedRegion_huffLayout d pad origLen region packed
  rw [h, htree, packedRegion_huffLayout] at hpackedeq
  exact ⟨hdomain, hpadeq, horigeq, hregioneq.symm, hpackedeq.symm⟩

theorem rleLayout_inj {d d' : Domain} {alg alg' : Algo} {origLen origLen' : Nat} {region region' : List Byte}
    (horig : origLen < 2 ^ 32) (horig' : origLen' < 2 ^ 32) (hregion : region.length < 2 ^ 32)
    (hregion' : region'.length < 2 ^ 32)
    (h : rleLayout d alg origLen region = rleLayout d' alg' origLen' region') :
    d = d' ∧ alg = alg' ∧ origLen = origLen' ∧ region = region' := by
  have hheader := congrArg rleHeader h
  rw [rleHeader_rleLayout d alg horig hregion, rleHeader_rleLayout d' alg' horig' hregion', RleHeader.mk.injEq]
    at hheader
  obtain ⟨hdom, halgo, horigeq, _⟩ := hheader
  have hdomain := congrArg domainOfCode hdom
  rw [domainOfCode_domainCode, domainOfCode_domainCode] at hdomain
  have halg := congrArg algoOfCode halgo
  rw [algoOfCode_algoCode, algoOfCode_algoCode] at halg
  have hregioneq := drop_rleLayout d alg origLen region
  rw [h, drop_rleLayout] at hregioneq
  exact ⟨hdomain, halg, horigeq, hregioneq.symm⟩

/-- Settles O5: headers at their offsets, regions by the two parsers; injectivity from the layout and the parser. -/
theorem payloadEncodingsAreInverted : Obligations.PayloadEncodingsAreInverted := by
  refine ⟨fun d pad origLen T packed hpad horig hT hregion hpacked => ?_,
    fun d alg origLen items horig hitems hregion => ?_,
    fun d d' pad pad' origLen origLen' T T' packed packed' hpad hpad' horig horig' hT hT' hregion hregion' hpacked
      hpacked' h => ?_,
    fun d d' alg alg' origLen origLen' items items' horig horig' hitems hitems' hregion hregion' h => ?_⟩
  · rw [encHuff_eq_huffLayout]
    refine ⟨huffHeader_huffLayout d hpad horig hregion hpacked, ?_, packedRegion_huffLayout d pad origLen _ packed⟩
    rw [treeRegion_huffLayout]
    exact deserialize_eq_some_iff.mpr ⟨hT, rfl⟩
  · rw [encRle_eq_rleLayout]
    refine ⟨rleHeader_rleLayout d alg horig hregion, ?_⟩
    rw [drop_rleLayout, length_rleLayout]
    exact parseItems_of_records hitems (by omega)
  · obtain ⟨rfl, rfl, rfl, hregions, rfl⟩ :=
      huffLayout_inj hpad hpad' horig horig' hregion hregion' hpacked hpacked' h
    have hparsed := deserialize_eq_some_iff.mpr ⟨hT, hregions⟩
    have hparsed' := deserialize_eq_some_iff.mpr ⟨hT', rfl⟩
    exact ⟨rfl, rfl, rfl, Option.some.inj (hparsed.symm.trans hparsed'), rfl⟩
  · obtain ⟨rfl, rfl, rfl, hregions⟩ := rleLayout_inj horig horig' hregion hregion' h
    have hparsed := parseItems_of_records hitems (le_refl _)
    have hparsed' := parseItems_of_records hitems' (le_refl _)
    rw [← hregions, hparsed] at hparsed'
    exact ⟨rfl, rfl, rfl, Except.ok.inj hparsed'⟩

end Sys2Proof.Proofs
end

section
/-!
SUPPORT. Errors of the decoders (`60_exceptions.md` R233, R235, R238, `44_rle_decode.md` R200, R202): what `HUFD` and
`RLED` make of a payload up to the first defect.
-/

namespace Sys2Proof.Proofs

open Sys2Proof.Machine Sys2Proof.Laws

/-! ## Ending with an error, R239 -/

theorem failsWith_of_takeError {i : Instr} {s : State} {e : CmdError} (h : exec i s = .next (takeError e s)) :
    FailsWith i s e.code.toNat := ⟨_, h, takeError_failure e s⟩

/-- Settles O54: the test for the unit is the first of `ANLZ`. -/
theorem anlzAbsentIsIllegal : Obligations.AnlzAbsentIsIllegal :=
  fun _ _ h => failsWith_of_takeError (e := .illegalCommand) (if_neg (Bool.eq_false_iff.mp h))

/-! ## The checks on `ILENR` alone, R238 -/

theorem payloadCommand_of_oversize {headerLen : Nat} {s : State} (body : List Byte → CmdResult)
    (h : s.cfg.ibufSize < s.ilenr.toNat) : payloadCommand headerLen s body = .next (takeError .resource s) := by
  unfold payloadCommand
  rw [if_pos h]

theorem payloadCommand_of_short {headerLen : Nat} {s : State} (body : List Byte → CmdResult)
    (hfit : s.ilenr.toNat ≤ s.cfg.ibufSize) (h : s.ilenr.toNat < headerLen) :
    payloadCommand headerLen s body = .next (takeError .malformedPayload s) := by
  unfold payloadCommand
  rw [if_neg (not_lt.mpr hfit), if_pos h]

/-! ## The header checks, R98, R101 -/

theorem hufd_fails {s : State} {bs : List Byte} {e : CmdError} (hin : InputIs s bs) (hlen : 14 ≤ bs.length)
    (hbody : hufdBody s.cfg bs = .err e) : FailsWith .hufd s e.code.toNat := by
  refine failsWith_of_takeError ?_
  rw [← publish_err, ← hbody]
  exact payloadCommand_of_input huffHeaderLen s _ bs hlen hin

theorem rled_fails {s : State} {bs : List Byte} {e : CmdError} (hin : InputIs s bs) (hlen : 10 ≤ bs.length)
    (hbody : rledBody s.cfg bs = .err e) : FailsWith .rled s e.code.toNat := by
  refine failsWith_of_takeError ?_
  rw [← publish_err, ← hbody]
  exact payloadCommand_of_input rleHeaderLen s _ bs hlen hin

theorem huffHeaderOk_iff (h : HuffHeader) (ilen : Nat) :
    huffHeaderOk h ilen = true ↔
      h.domain ≤ 1 ∧ h.pad ≤ 7 ∧ 14 + h.treeLen + h.packLen = ilen ∧ (h.packLen = 0 → h.pad = 0) := by
  simp only [huffHeaderOk, Bool.and_eq_true, Bool.not_eq_true', Bool.and_eq_false_iff, decide_eq_true_eq,
    decide_eq_false_iff_not]
  simp only [huffHeaderLen, Config.padMax]
  omega

theorem rleHeaderOk_iff (h : RleHeader) (ilen : Nat) :
    rleHeaderOk h ilen = true ↔ h.domain ≤ 1 ∧ h.alg ≤ 1 ∧ 10 + h.itemsLen = ilen := by
  simp only [rleHeaderOk, Bool.and_eq_true, decide_eq_true_eq, and_assoc]
  simp only [rleHeaderLen]

theorem hufdBody_of_badHeader {p : Params} {bs : List Byte} (h : ¬ huffHeaderOk (huffHeader bs) bs.length = true) :
    hufdBody p bs = .err .malformedPayload := if_neg h

theorem rledBody_of_badHeader {p : Params} {bs : List Byte} (h : ¬ rleHeaderOk (rleHeader bs) bs.length = true) :
    rledBody p bs = .err .malformedPayload := if_neg h

/-- Settles O56, check by check in the order of R238. -/
theorem decoderHeaderErrors : Obligations.DecoderHeaderErrors := by
  refine ⟨fun s h => ⟨?_, ?_⟩, fun s hfit => ⟨fun h => ?_, fun h => ?_⟩, fun s bs hin hlen hbad => ?_,
    fun s bs hin hlen hbad => ?_⟩
  · exact failsWith_of_takeError (e := .resource) (payloadCommand_of_oversize _ h)
  · exact failsWith_of_takeError (e := .resource) (payloadCommand_of_oversize _ h)
  · exact failsWith_of_takeError (e := .malformedPayload) (payloadCommand_of_short _ hfit h)
  · exact failsWith_of_takeError (e := .malformedPayload) (payloadCommand_of_short _ hfit h)
  · refine hufd_fails hin hlen (hufdBody_of_badHeader ?_)
    rw [huffHeaderOk_iff]
    rintro ⟨hdomain, hpad, hsum, hempty⟩
    rcases hbad with h | h | h | ⟨hpack, h⟩
    · exact absurd hdomain (not_le.mpr h)
    · exact absurd hpad (not_le.mpr h)
    · exact h hsum
    · exact h (hempty hpack)
  · refine rled_fails hin hlen (rledBody_of_badHeader ?_)
    rw [rleHeaderOk_iff]
    rintro ⟨hdomain, halg, hsum⟩
    rcases hbad with h | h | h
    · exact absurd hdomain (not_le.mpr h)
    · exact absurd halg (not_le.mpr h)
    · exact h hsum

/-! ## `HUFD` without a tree, R144, R161 -/

/-- The input of a command is shorter than `2^32` bytes. -/
theorem length_lt_of_inputIs {s : State} {bs : List Byte} (h : InputIs s bs) : bs.length < 2 ^ 32 :=
  h.length ▸ s.ilenr.isLt

/-- The header of a layout with a valid `PAD` passes its checks. -/
theorem huffHeaderOk_huffLayout {d : Domain} {pad origLen : Nat} {region packed : List Byte} (hpad : pad ≤ 7)
    (hempty : packed = [] → pad = 0) (horig : origLen < 2 ^ 32)
    (hlen : (huffLayout d pad origLen region packed).length < 2 ^ 32) :
    huffHeaderOk (huffHeader (huffLayout d pad origLen region packed))
      (huffLayout d pad origLen region packed).length = true := by
  rw [length_huffLayout] at hlen ⊢
  rw [huffHeader_huffLayout d (by omega) horig (by omega) (by omega), huffHeaderOk_iff]
  exact ⟨domainCode_le d, hpad, rfl, fun h => hempty (List.length_eq_zero_iff.mp h)⟩

/-- `HUFD` looks for a tree right after the header. -/
theorem hufdBody_of_noTree {p : Params} {bs : List Byte} (hok : huffHeaderOk (huffHeader bs) bs.length = true)
    (htree : deserialize (domainOfCode (huffHeader bs).domain) ((bs.drop 14).take (huffHeader bs).treeLen) = none) :
    hufdBody p bs = .err .malformedPayload := by
  simp only [hufdBody, hok, if_true, huffHeaderLen, htree]

/-- Settles O57: no tree deserializes from the region, and the tree is parsed before the capacity is looked at. -/
theorem hufdMalformedTree : Obligations.HufdMalformedTree := by
  intro s d pad origLen region packed hpad hempty horig hnoTree hin
  have hnone : deserialize d region = none := by
    cases hparse : deserialize d region with
    | none => rfl
    | some T =>
      obtain ⟨hT, hbytes⟩ := deserialize_eq_some_iff.mp hparse
      exact absurd hbytes (hnoTree T hT)
  have hin' : InputIs s (huffLayout d pad origLen region packed) := hin
  have hlen := length_huffLayout d pad origLen region packed
  have hlt := length_lt_of_inputIs hin'
  have hok := huffHeaderOk_huffLayout hpad (fun h => hempty.resolve_left (not_not.mpr h)) horig hlt
  refine hufd_fails hin' (by omega) (hufdBody_of_noTree hok ?_)
  rw [huffHeader_huffLayout d (by omega) horig (by omega) (by omega), domainOfCode_domainCode, treeRegion_huffLayout,
    hnone]

/-! ## `RLED` with a defect in its items, R200 -/

theorem rleHeaderOk_rleLayout {d : Domain} {alg : Algo} {origLen : Nat} {region : List Byte}
    (horig : origLen < 2 ^ 32) (hlen : (rleLayout d alg origLen region).length < 2 ^ 32) :
    rleHeaderOk (rleHeader (rleLayout d alg origLen region)) (rleLayout d alg origLen region).length = true := by
  rw [length_rleLayout] at hlen ⊢
  rw [rleHeader_rleLayout d alg horig (by omega), rleHeaderOk_iff]
  exact ⟨domainCode_le d, algoCode_le alg, rfl⟩

/-- `RLED` ends with the error of its items when the output would fit. -/
theorem rledBody_of_itemsError {p : Params} {d : Domain} {alg : Algo} {origLen : Nat} {region : List Byte}
    {e : CmdError} (horig : origLen < 2 ^ 32) (hlen : (rleLayout d alg origLen region).length < 2 ^ 32)
    (hcap : origLen * symb d ≤ p.obufSize)
    (hitems : parseItems d alg (rleLayout d alg origLen region).length region = .error e) :
    rledBody p (rleLayout d alg origLen region) = .err e := by
  have hok := rleHeaderOk_rleLayout horig hlen
  have hsum := length_rleLayout d alg origLen region
  simp only [rledBody]
  rw [if_pos hok, rleHeader_rleLayout d alg horig (by omega)]
  simp only [domainOfCode_domainCode, algoOfCode_algoCode, if_neg (not_lt.mpr hcap), rleHeaderLen, drop_rleLayout,
    hitems]

/-- A record after well-formed ones that the item loop rejects ends the loop, whatever the bound on its passes. -/
theorem parseItems_of_defect {d : Domain} {alg : Algo} {items : List Item} {tag : Byte} {rest : List Byte}
    {e : CmdError} (hitems : ∀ i ∈ items, itemFits d i = true ∧ itemAllowed alg i = true)
    (hdefect : ∀ k, parseItems d alg (k + 1) (tag :: rest) = .error e) {n : Nat}
    (hn : (itemRecords d items ++ tag :: rest).length ≤ n) :
    parseItems d alg n (itemRecords d items ++ tag :: rest) = .error e := by
  have hle := length_le_length_itemRecords d items
  rw [List.length_append, List.length_cons] at hn
  obtain ⟨k, rfl⟩ : ∃ k, n = items.length + (k + 1) := ⟨n - items.length - 1, by omega⟩
  rw [parseItems_itemRecords hitems, hdefect]
  rfl

/-- A defect in the items ends `RLED` with its error, whatever `ORIGLEN` says within `OBUF`. -/
theorem rled_fails_of_defect {s : State} {d : Domain} {alg : Algo} {origLen : Nat} {items : List Item} {tag : Byte}
    {rest : List Byte} {e : CmdError} (horig : origLen < 2 ^ 32) (hcap : origLen * symb d ≤ s.cfg.obufSize)
    (hitems : ∀ i ∈ items, itemFits d i = true ∧ itemAllowed alg i = true)
    (hdefect : ∀ k, parseItems d alg (k + 1) (tag :: rest) = .error e)
    (hin : InputIs s ([domainCode d, algoCode alg] ++ leBytes 4 origLen ++
      leBytes 4 ((itemRecords d items).length + 1 + rest.length) ++ itemRecords d items ++ tag :: rest)) :
    FailsWith .rled s e.code.toNat := by
  have hregion : (itemRecords d items).length + 1 + rest.length = (itemRecords d items ++ tag :: rest).length := by
    rw [List.length_append, List.length_cons]
    omega
  rw [hregion, List.append_assoc _ (itemRecords d items)] at hin
  have hin' : InputIs s (rleLayout d alg origLen (itemRecords d items ++ tag :: rest)) := hin
  have hlen := length_rleLayout d alg origLen (itemRecords d items ++ tag :: rest)
  have herror := parseItems_of_defect hitems hdefect (hlen ▸ Nat.le_add_left _ _)
  exact rled_fails hin' (by omega) (rledBody_of_itemsError horig (length_lt_of_inputIs hin') hcap herror)

/-! ## The two defects of a record, R103, R104 -/

theorem parseItems_of_unknownTag {alg : Algo} {tag : Byte} (h : recognised alg tag = false) (d : Domain) (k : Nat)
    (rest : List Byte) : parseItems d alg (k + 1) (tag :: rest) = .error .unknownItemType := by
  simp only [parseItems, h, Bool.false_eq_true, if_false]

theorem parseItems_of_truncated {d : Domain} {alg : Algo} {tag : Byte} {rest : List Byte}
    (h : recognised alg tag = true) (hbody : parseBody d tag rest = none) (k : Nat) :
    parseItems d alg (k + 1) (tag :: rest) = .error .malformedPayload := by
  simp only [parseItems, h, if_true, hbody]

theorem recognised_basic_iff (tag : Byte) : recognised .basic tag = true ↔ tag.toNat ≤ 1 := by
  simp only [recognised, Bool.or_eq_true, beq_iff_eq, BitVec.toNat_eq, BitVec.toNat_ofNat]
  omega

theorem recognised_adaptive_iff (tag : Byte) : recognised .adaptive tag = true ↔ 1 ≤ tag.toNat ∧ tag.toNat ≤ 3 := by
  simp only [recognised, Bool.or_eq_true, beq_iff_eq, BitVec.toNat_eq, BitVec.toNat_ofNat]
  omega

/-- Settles O49: the tag is examined before anything else of its record. -/
theorem rledUnknownTag : Obligations.RledUnknownTag := by
  intro s d alg origLen items tag rest horig hcap hitems hbasic hadaptive hin
  have hunknown : recognised alg tag = false := by
    rw [Bool.eq_false_iff]
    cases alg with
    | basic =>
      have := hbasic rfl
      rw [ne_eq, recognised_basic_iff]
      omega
    | adaptive =>
      have := hadaptive rfl
      rw [ne_eq, recognised_adaptive_iff]
      omega
  exact rled_fails_of_defect horig hcap hitems (fun k => parseItems_of_unknownTag hunknown d k rest) hin

/-- The bytes a record of each tag needs after the tag: a symbol, a symbol and its count, a length byte and as many
symbols (R102). -/
theorem parseBody_of_short {d : Domain} {rest : List Byte} :
    (rest.length < symb d → parseBody d 0x00#8 rest = none) ∧
    (rest.length < symb d + 4 → parseBody d 0x01#8 rest = none) ∧
    (rest.length < symb d + 1 → parseBody d 0x02#8 rest = none) ∧
    ((∀ n ∈ rest.head?, rest.length < 1 + n.toNat * symb d) → parseBody d 0x03#8 rest = none) := by
  refine ⟨fun h => if_pos h, fun h => if_pos h, fun h => if_pos h, fun h => ?_⟩
  show (if rest.length < 1 then none else if rest.length < 1 + field rest 0 1 * symb d then none else _) = none
  cases rest with
  | nil => rfl
  | cons n rest =>
    have hcount : (n :: rest).length < 1 + field (n :: rest) 0 1 * symb d := by
      rw [field_cons_zero]
      exact h n rfl
    rw [if_pos hcount, ite_self]

/-- Settles O50: each tag's record needs more bytes than are left. -/
theorem rledTruncatedRecord : Obligations.RledTruncatedRecord := by
  intro s d alg origLen items tag rest horig hcap hitems hcase hin
  obtain ⟨hsingle, hrun, hshort, hsequence⟩ := parseBody_of_short (d := d) (rest := rest)
  have htag {v : Byte} (h : tag.toNat = v.toNat) : tag = v := BitVec.eq_of_toNat_eq h
  obtain ⟨hknown, hbody⟩ : recognised alg tag = true ∧ parseBody d tag rest = none := by
    rcases hcase with ⟨rfl, h, hlen⟩ | ⟨h, hlen⟩ | ⟨rfl, h, hlen⟩ | ⟨rfl, h, hlen⟩
    · cases htag (v := 0x00#8) h
      exact ⟨rfl, hsingle hlen⟩
    · cases htag (v := 0x01#8) h
      exact ⟨by cases alg <;> rfl, hrun hlen⟩
    · cases htag (v := 0x02#8) h
      exact ⟨rfl, hshort hlen⟩
    · cases htag (v := 0x03#8) h
      exact ⟨rfl, hsequence hlen⟩
  exact rled_fails_of_defect horig hcap hitems (parseItems_of_truncated hknown hbody) hin

end Sys2Proof.Proofs
end

section
/-!
SUPPORT. Sizes of trees and payloads (`30_encoding.md` R109): the frequency table has one entry for each distinct symbol
(`40_huffman_units.md` R130, R131), and a merge keeps any quantity that adds up over the queued nodes (R133, R134), the
serialized bytes among them.
-/

namespace Sys2Proof.Proofs

open Sys2Proof.Machine Sys2Proof.Laws

/-! ## The symbols of the frequency table, R130 -/

/-- A table in the order of R131: symbols ascending, so each symbol once. -/
def AscendingSymbols (F : List (Symbol × Nat)) : Prop := F.Pairwise (fun a b => a.1 < b.1)

theorem mem_symbols_bump (x y : Symbol) (F : List (Symbol × Nat)) :
    y ∈ (bump x F).map Prod.fst ↔ y = x ∨ y ∈ F.map Prod.fst := by
  induction F with
  | nil => simp [bump]
  | cons e F ih =>
    obtain ⟨z, c⟩ := e
    simp only [bump]
    split_ifs with hlt heq
    · simp
    · simp [heq]
    · rw [List.map_cons, List.map_cons, List.mem_cons, List.mem_cons, ih]
      exact or_left_comm

theorem ascending_bump (x : Symbol) {F : List (Symbol × Nat)} (h : AscendingSymbols F) :
    AscendingSymbols (bump x F) := by
  induction F with
  | nil => exact List.pairwise_singleton _ _
  | cons e F ih =>
    obtain ⟨z, c⟩ := e
    obtain ⟨hz, hF⟩ := List.pairwise_cons.mp h
    simp only [bump]
    split_ifs with hlt heq
    · refine List.pairwise_cons.mpr ⟨fun b hb => ?_, h⟩
      rcases List.mem_cons.mp hb with rfl | hb
      · exact hlt
      · exact hlt.trans (hz b hb)
    · exact List.pairwise_cons.mpr ⟨hz, hF⟩
    · refine List.pairwise_cons.mpr ⟨fun b hb => ?_, ih hF⟩
      rcases (mem_symbols_bump x b.1 F).mp (List.mem_map_of_mem hb) with hbx | hb
      · exact hbx ▸ lt_of_le_of_ne (not_lt.mp hlt) (Ne.symm heq)
      · obtain ⟨b', hb', heq'⟩ := List.mem_map.mp hb
        exact heq' ▸ hz b' hb'

/-- The table lists exactly the symbols of the input, ascending. -/
theorem freq_symbols (S : List Symbol) :
    AscendingSymbols (freq S) ∧ ∀ y, y ∈ (freq S).map Prod.fst ↔ y ∈ S := by
  suffices H : ∀ (S : List Symbol) (F : List (Symbol × Nat)), AscendingSymbols F →
      AscendingSymbols (S.foldl (fun F x => bump x F) F) ∧
        ∀ y, y ∈ (S.foldl (fun F x => bump x F) F).map Prod.fst ↔ y ∈ S ∨ y ∈ F.map Prod.fst by
    simpa [freq] using H S [] List.Pairwise.nil
  intro S
  induction S with
  | nil => exact fun F hF => ⟨hF, fun y => by simp⟩
  | cons x S ih =>
    intro F hF
    obtain ⟨hasc, hmem⟩ := ih (bump x F) (ascending_bump x hF)
    refine ⟨hasc, fun y => (hmem y).trans ?_⟩
    rw [mem_symbols_bump, List.mem_cons, or_assoc, or_left_comm]

/-- `K`, the number of distinct symbols, is the length of the table. -/
theorem length_freq (S : List Symbol) : (freq S).length = S.dedup.length := by
  obtain ⟨hasc, hmem⟩ := freq_symbols S
  have hnodup : ((freq S).map Prod.fst).Nodup := (List.pairwise_map.mpr hasc).imp Nat.ne_of_lt
  have hperm : ((freq S).map Prod.fst).Perm S.dedup :=
    (List.perm_ext_iff_of_nodup hnodup S.nodup_dedup).mpr fun y => (hmem y).trans List.mem_dedup.symm
  rw [← hperm.length_eq, List.length_map]

/-! ## What merging keeps, R133, R134 -/

section
variable {M : Type} [AddCommMonoid M]

/-- The sum of a measure over the queued nodes. -/
def queueSum (g : Node → M) (st : List Node × List Nat) : M := (st.2.map (fun i => g (nodeAt st.1 i))).sum

/-- Every queued id names a node of the memory. -/
def QueueInRange (st : List Node × List Nat) : Prop := ∀ i ∈ st.2, i < st.1.length

theorem nodeAt_append_left {nodes : List Node} {i : Nat} (h : i < nodes.length) (more : List Node) :
    nodeAt (nodes ++ more) i = nodeAt nodes i := by
  simp [nodeAt, List.getElem?_append_left h]

theorem nodeAt_append_length (nodes : List Node) (T : Node) : nodeAt (nodes ++ [T]) nodes.length = T := by
  simp [nodeAt]

/-- A merge takes two queued nodes out and queues their parent. -/
theorem mergeStep_eq {pick : Picker} (hp : pick.valid) (nodes : List Node) {pq : List Nat} (h : 2 ≤ pq.length) :
    ∃ i ∈ pq, ∃ j ∈ pq.erase i, mergeStep pick (nodes, pq) =
      (nodes ++ [.internal ((nodeAt nodes i).freq + (nodeAt nodes j).freq) (nodeAt nodes i) (nodeAt nodes j)],
        (pq.erase i).erase j ++ [nodes.length]) := by
  have hne : pq ≠ [] := List.length_pos_iff.mp (by omega)
  obtain ⟨hi, _, herase⟩ := extractMin_spec pick hp nodes pq hne
  have hlen := List.length_erase_of_mem hi
  have hne' : pq.erase (extractMin pick nodes pq).1 ≠ [] := List.length_pos_iff.mp (by omega)
  obtain ⟨hj, _, herase'⟩ := extractMin_spec pick hp nodes _ hne'
  refine ⟨_, hi, _, hj, ?_⟩
  simp only [mergeStep, herase, herase']

/-- A merge shortens the queue by one and keeps the sum of a measure that adds up over the two children. -/
theorem mergeStep_keeps {pick : Picker} (hp : pick.valid) {nodes : List Node} {pq : List Nat} (h : 2 ≤ pq.length)
    (hrange : QueueInRange (nodes, pq)) {g : Node → M} (hg : ∀ f l r, g (.internal f l r) = g l + g r) :
    QueueInRange (mergeStep pick (nodes, pq)) ∧ (mergeStep pick (nodes, pq)).2.length + 1 = pq.length ∧
      queueSum g (mergeStep pick (nodes, pq)) = queueSum g (nodes, pq) := by
  obtain ⟨i, hi, j, hj, hstep⟩ := mergeStep_eq hp nodes h
  have hleft : ∀ k ∈ (pq.erase i).erase j, k < nodes.length := fun k hk =>
    hrange k (List.mem_of_mem_erase (List.mem_of_mem_erase hk))
  rw [hstep]
  refine ⟨fun k hk => ?_, ?_, ?_⟩
  · rw [List.length_append, List.length_singleton]
    rcases List.mem_append.mp hk with hk | hk
    · exact (hleft k hk).trans (Nat.lt_succ_self _)
    · exact (List.mem_singleton.mp hk) ▸ Nat.lt_succ_self _
  · have hlen := List.length_erase_of_mem hi
    have hlen' := List.length_erase_of_mem hj
    simp only [List.length_append, List.length_singleton]
    omega
  · have hkept : ((pq.erase i).erase j).map (fun k => g (nodeAt (nodes ++
        [.internal ((nodeAt nodes i).freq + (nodeAt nodes j).freq) (nodeAt nodes i) (nodeAt nodes j)]) k)) =
        ((pq.erase i).erase j).map (fun k => g (nodeAt nodes k)) :=
      List.map_congr_left fun k hk => by rw [nodeAt_append_left (hleft k hk)]
    have hperm := (List.perm_cons_erase hi).trans ((List.perm_cons_erase hj).cons i)
    have hsum := (hperm.map (fun k => g (nodeAt nodes k))).sum_eq
    simp only [queueSum, List.map_append, hkept, List.map_cons, List.map_nil, nodeAt_append_length, hg,
      List.sum_append, List.sum_cons, List.sum_nil, add_zero, hsum]
    rw [add_comm, add_assoc]

/-- Merging until one node is left keeps the sum. -/
theorem mergeAll_keeps {pick : Picker} (hp : pick.valid) {g : Node → M}
    (hg : ∀ f l r, g (.internal f l r) = g l + g r) (k : Nat) {st : List Node × List Nat} (h : st.2.length = k + 1)
    (hrange : QueueInRange st) :
    (mergeAll pick k st).2.length = 1 ∧ queueSum g (mergeAll pick k st) = queueSum g st := by
  induction k generalizing st with
  | zero => exact ⟨h, rfl⟩
  | succ k ih =>
    obtain ⟨nodes, pq⟩ := st
    have hpq : pq.length = k + 1 + 1 := h
    obtain ⟨hrange', hlen, hsum⟩ := mergeStep_keeps hp (by omega) hrange hg
    obtain ⟨hone, hkeep⟩ := ih (st := mergeStep pick (nodes, pq)) (by omega) hrange'
    exact ⟨hone, hkeep.trans hsum⟩

/-- A measure that adds up over the two children of a node adds up over the leaves of a built tree. -/
theorem measure_build {pick : Picker} (hp : pick.valid) {F : List (Symbol × Nat)} (hF : 2 ≤ F.length) {T : Node}
    (hT : build pick F = some T) {g : Node → M} (hg : ∀ f l r, g (.internal f l r) = g l + g r) :
    g T = (F.map (fun e => g (.leaf e.1 e.2))).sum := by
  have hbuild : build pick F = some (nodeAt (mergeAll pick (F.length - 1) (leafNodes F, List.range F.length)).1
      ((mergeAll pick (F.length - 1) (leafNodes F, List.range F.length)).2.headD 0)) := by
    match F, hF with
    | _ :: _ :: _, _ => rfl
  have hleaves : (List.range F.length).map (fun i => g (nodeAt (leafNodes F) i)) =
      F.map (fun e => g (.leaf e.1 e.2)) := by
    refine List.ext_getElem (by simp) fun i h1 h2 => ?_
    have hi : i < F.length := by simpa using h1
    simp [nodeAt, leafNodes, hi]
  have hrange : QueueInRange (leafNodes F, List.range F.length) := fun i hi => by
    simpa [leafNodes] using hi
  obtain ⟨hone, hsum⟩ := mergeAll_keeps hp hg (F.length - 1) (st := (leafNodes F, List.range F.length))
    (by rw [List.length_range]; omega) hrange
  obtain ⟨i, hi⟩ := List.length_eq_one_iff.mp hone
  rw [hbuild, hi] at hT
  cases hT
  rw [← hleaves]
  simpa [queueSum, hi] using hsum

end

/-! ## The sizes, R109 -/

/-- The bytes of a serialized tree and five more add up over the children of an internal node. -/
theorem length_serialize_build {pick : Picker} (hp : pick.valid) (d : Domain) {F : List (Symbol × Nat)}
    (hF : 2 ≤ F.length) {T : Node} (hT : build pick F = some T) :
    (serialize d T).length + 5 = F.length * (5 + symb d + 5) := by
  have hadds (f : Nat) (l r : Node) : (serialize d (.internal f l r)).length + 5 =
      ((serialize d l).length + 5) + ((serialize d r).length + 5) := by
    rw [length_serialize]
    simp only
    omega
  rw [measure_build hp hF hT (g := fun T => (serialize d T).length + 5) hadds]
  simp [length_serialize]

theorem length_hufcPayload (d : Domain) (T : Node) (S : List Symbol) :
    (hufcPayload d T S).length = 14 + (serialize d T).length + packLength (codeBits (codes T) S).length := by
  rw [hufcPayload, encHuff_eq_huffLayout, length_huffLayout, pack_eq, length_packBytes]

/-- Settles O6: the tree by `length_serialize_build`, the rest by the lengths of the layouts and records. -/
theorem payloadSizes : Obligations.PayloadSizes := by
  refine ⟨fun pick d S T hp _ hT => ⟨fun hK => ?_, fun hK => ?_, length_packBytes _ _, length_hufcPayload d T S⟩,
    fun d x c q => ⟨length_itemRecord d (.single x), length_itemRecord d (.run x c),
      length_itemRecord d (.shortRun x c), length_itemRecord d (.sequence q)⟩,
    fun d alg origLen items => length_rleLayout d alg origLen _, length_streamBytes⟩
  · rw [← length_freq] at hK ⊢
    have hlen := length_serialize_build hp d hK hT
    rw [Nat.sub_mul]
    rw [Nat.mul_add] at hlen
    omega
  · rw [← length_freq] at hK
    obtain ⟨⟨x, c⟩, hF⟩ := List.length_eq_one_iff.mp hK
    rw [hF] at hT
    cases hT
    rw [length_serialize]
    simp only
    rw [length_serialize]

end Sys2Proof.Proofs
end

section
/-!
SUPPORT. Host programs (`30_encoding.md` R107, R108): `FEEDBACK`, and a contract as the run of its accesses, the loads, the
command, the polls before the completion, the completion, and the last poll.
-/

namespace Sys2Proof.Proofs

open Sys2Proof.Machine Sys2Proof.Laws

/-! ## `FEEDBACK`, R107 -/

theorem hostFeedback_of_range {s : State} {bytes : List Byte} (hb : s.status.busy = false)
    (hrange : Memory.range s.obuf 0 s.olen.toNat = some bytes) (hfit : bytes.length ≤ s.cfg.ibufSize) :
    hostFeedback s = .next { s with ibuf := Memory.setBytes s.ibuf 0 bytes, ilen := s.olen } := by
  have hwrite : hostIbufWrite 0 bytes s = .next { s with ibuf := Memory.setBytes s.ibuf 0 bytes } := by
    rcases hostIbufWrite_cases 0 bytes s with ⟨h, _⟩ | ⟨_, h, _⟩ | ⟨_, _, e⟩
    · omega
    · cases hb.symm.trans h
    · exact e
  have hb' : ({ s with ibuf := Memory.setBytes s.ibuf 0 bytes } : State).status.busy = false := hb
  simp only [hostFeedback, hb, Bool.false_eq_true, if_false, hrange, hwrite, regWriteEffect_ilen s.olen hb']

/-- Settles O25: the bytes of the result make a range, and its write to `IBUF` is read back by `byteAt_setBytes`. -/
theorem feedbackCopiesTheResult : Obligations.FeedbackCopiesTheResult := by
  intro s hreset hb hfit hwf hvalued
  obtain ⟨bytes, hrange⟩ : ∃ bytes, Memory.range s.obuf 0 s.olen.toNat = some bytes := by
    refine Option.ne_none_iff_exists'.mp fun hnone => ?_
    obtain ⟨k, hk, hbyte⟩ := (range_eq_none _ _ _).mp hnone
    rw [Nat.zero_add] at hbyte
    simpa [hbyte] using hvalued k hk
  obtain ⟨hlen, hbytes⟩ := (range_eq_some _ _ _ _).mp hrange
  refine ⟨_, (if_pos hreset).trans (hostFeedback_of_range hb hrange (by omega)), rfl, fun k hk => ?_, fun a ha => ?_⟩
  · rw [byteAt_setBytes _ _ _ _ hwf, if_pos (by omega), Nat.sub_zero, ← hbytes k hk, Nat.zero_add]
  · rw [byteAt_setBytes _ _ _ _ hwf, if_neg (by omega)]

/-! ## Runs, one after another -/

theorem runSteps_add_of_next {m : Nat} {s t : State} (h : runSteps m s = .next t) (n : Nat) :
    runSteps (m + n) s = runSteps n t := by
  induction m generalizing s with
  | zero => cases h; rw [Nat.zero_add]
  | succ m ih =>
    rw [Nat.add_right_comm]
    cases hstep : step s with
    | next u =>
      rw [runSteps_succ_of_next hstep] at h ⊢
      exact ih h
    | fault f => nomatch f
    | refused r => simp only [runSteps, hstep] at h; cases h

/-! ## The accesses of a contract on an idle block, R108 -/

theorem step_ibufWrite {s : State} {addr : Nat} {bytes : List Byte} {late : Bool} {rest : List HostMove}
    (hreset : s.resetSeen = true) (hb : s.status.busy = false)
    (hport : s.port = { access := .ibufWrite addr bytes, late := late } :: rest)
    (hfit : addr + bytes.length ≤ s.cfg.ibufSize) :
    step s = .next { s with ibuf := Memory.setBytes s.ibuf addr bytes, port := rest } := by
  rw [step_of_hostMoves hport (not_coreMovesNext_of_idle hb),
    hostAccess_ibufWrite_of_idle (s := { s with port := rest }) hreset hb hfit]

theorem step_ilenWrite {s : State} {w : Word} {late : Bool} {rest : List HostMove} (hreset : s.resetSeen = true)
    (hb : s.status.busy = false) (hport : s.port = { access := .regWrite 0x0C 4 w, late := late } :: rest) :
    step s = .next { s with ilen := w, port := rest } := by
  rw [step_of_hostMoves hport (not_coreMovesNext_of_idle hb),
    hostAccess_regWrite (s := { s with port := rest }) hreset (by decide) (by decide),
    regWriteEffect_ilen (s := { s with port := rest }) w hb]

/-- A poll of `STATUS` changes nothing but what the host has read. -/
theorem step_poll {s : State} {late : Bool} {rest : List HostMove} (hreset : s.resetSeen = true)
    (hport : s.port = { access := .regRead 0x04 4, late := late } :: rest) (hcore : ¬ CoreMovesNext s) :
    ∃ v, step s = .next { s with port := rest, rdata := v } := by
  rw [step_of_hostMoves hport hcore, hostAccess_regRead (s := { s with port := rest }) hreset (by decide) (by decide)]
  exact ⟨_, rfl⟩

/-- The block right after the accept step of the word `w` on the loaded input, with the accesses `rest` to come. -/
def acceptedOn (s : State) (input : List Byte) (w : Word) (rest : List HostMove) : State :=
  acceptCommand w { s with
    ibuf := Memory.setBytes s.ibuf 0 input
    ilen := BitVec.ofNat 32 input.length
    port := rest }

/-- The byte writes of `LOAD`. -/
theorem runSteps_loadWrites {s : State} {k : Nat} {bs : List Byte} {rest : List HostMove} (hreset : s.resetSeen = true)
    (hb : s.status.busy = false) (hport : s.port = loadWrites false k bs ++ rest)
    (hfit : k + bs.length ≤ s.cfg.ibufSize) :
    runSteps bs.length s = .next { s with ibuf := Memory.setBytes s.ibuf k bs, port := rest } := by
  induction bs generalizing s k with
  | nil =>
    cases hport
    rfl
  | cons b bs ih =>
    rw [List.length_cons] at hfit
    have hone : k + [b].length ≤ s.cfg.ibufSize := by
      rw [List.length_singleton]
      omega
    rw [List.length_cons, runSteps_succ_of_next (step_ibufWrite hreset hb hport hone)]
    exact ih hreset hb rfl (show k + 1 + bs.length ≤ s.cfg.ibufSize by omega)

/-- The write of `ILEN` and the accept step. -/
theorem runSteps_ilen_command {s : State} {n w : Word} {late late' : Bool} {rest : List HostMove}
    (hreset : s.resetSeen = true) (hb : s.status.busy = false)
    (hport : s.port = { access := .regWrite 0x0C 4 n, late := late } ::
      { access := .regWrite 0x00 4 w, late := late' } :: rest) :
    runSteps 2 s = .next (acceptCommand w { s with ilen := n, port := rest }) := by
  rw [runSteps_succ_of_next (step_ilenWrite hreset hb hport)]
  refine runSteps_succ_of_next ?_ 0
  exact step_acceptCommand hb hreset rfl

/-- `LOAD` and the command. -/
theorem runSteps_load_command {s : State} {input : List Byte} {w : Word} {rest : List HostMove}
    (hreset : s.resetSeen = true) (hb : s.status.busy = false) (hfit : input.length ≤ s.cfg.ibufSize)
    (hport : s.port = loadWrites false 0 input ++
      { access := .regWrite 0x0C 4 (BitVec.ofNat 32 input.length), late := false } ::
        { access := .regWrite 0x00 4 w, late := false } :: rest) :
    runSteps (input.length + 2) s = .next (acceptedOn s input w rest) := by
  rw [runSteps_add_of_next (runSteps_loadWrites hreset hb hport (by omega))]
  exact runSteps_ilen_command hreset hb rfl

/-- The command in flight has the loaded input (R44). -/
theorem inputIs_acceptedOn {s : State} {input : List Byte} (w : Word) (rest : List HostMove) (hcfg : s.cfg.wf = true)
    (hwf : Memory.wf s.ibuf) (hfit : input.length ≤ s.cfg.ibufSize) :
    InputIs (acceptedOn s input w rest) input := by
  obtain ⟨_, hsize, _, _⟩ := of_decide_eq_true hcfg
  refine ⟨Nat.mod_eq_of_lt (by omega), hfit, fun k hk => ?_⟩
  show Memory.byteAt (Memory.setBytes s.ibuf 0 input) k = input[k]?
  rw [byteAt_setBytes _ _ _ _ hwf, if_pos (by omega), Nat.sub_zero]

/-- The polls of `WAIT` before the completion. -/
theorem runSteps_earlyPolls {s : State} {polls : Nat} {rest : List HostMove} (hreset : s.resetSeen = true)
    (hport : s.port = List.replicate polls { access := .regRead 0x04 4, late := false } ++ rest) :
    ∃ v, runSteps polls s = .next { s with port := rest, rdata := v } := by
  induction polls generalizing s with
  | zero =>
    cases hport
    exact ⟨s.rdata, rfl⟩
  | succ polls ih =>
    rw [List.replicate_succ, List.cons_append] at hport
    obtain ⟨v, hstep⟩ := step_poll hreset hport (not_coreMovesNext_of_early hport)
    rw [runSteps_succ_of_next hstep]
    exact ih hreset rfl

/-! ## The completion and the last poll, R45, R107 -/

theorem inputWritten_of_inputIs {s : State} {bs : List Byte} (h : InputIs s bs) : InputWritten s := by
  intro k hk
  rw [h.length] at hk
  rw [h.bytes k hk, List.getElem?_eq_getElem hk]
  rfl

/-- The last two steps of a contract: the completion, and the poll that lands after it. -/
theorem runSteps_completion_poll {u : State} {i : Instr} (hb : u.status.busy = true) (hreset : u.resetSeen = true)
    (hdec : decode u.cfg.hasAnlz u.cmdr = .command i) (hin : InputWritten u)
    (hport : u.port = [{ access := .regRead 0x04 4, late := true }]) :
    ∃ r t, ResultFits u.cfg i r ∧ exec i u = .next (publish r u) ∧ runSteps 2 u = .next t ∧
      SameResult (publish r u) t ∧ t.port = [] ∧ t.status.busy = false := by
  obtain ⟨_, hnext⟩ := exec_completes i hin
  obtain ⟨r, hfits, hpub⟩ := exec_publishes hnext
  rw [hpub] at hnext
  have hstep := (stepRunsTheLatchedCommand.1 u i (coreMovesNext_of_late hb hport) hdec).trans hnext
  have hframe := publish_frame r u
  have hidle := (publish_done r u).1
  obtain ⟨v, hpoll⟩ := step_poll (hframe.resetSeen.trans hreset) (hframe.port.trans hport)
    (not_coreMovesNext_of_idle hidle)
  have hrun := (runSteps_succ_of_next hstep 1).trans (runSteps_succ_of_next hpoll 0)
  exact ⟨r, _, hfits, hnext, hrun, ⟨rfl, rfl, rfl, rfl, rfl, rfl⟩, rfl, hidle⟩

/-- `WAIT` from the accept step on: the early polls, the completion, the last poll. -/
theorem runSteps_wait {a : State} {i : Instr} {input : List Byte} {polls : Nat} (hb : a.status.busy = true)
    (hreset : a.resetSeen = true) (hdec : decode a.cfg.hasAnlz a.cmdr = .command i) (hin : InputIs a input)
    (hport : a.port = List.replicate polls { access := .regRead 0x04 4, late := false } ++
      [{ access := .regRead 0x04 4, late := true }]) :
    ∃ u r t, u.cfg = a.cfg ∧ u.cmdr = a.cmdr ∧ u.an = a.an ∧ InputIs u input ∧ ResultFits u.cfg i r ∧
      exec i u = .next (publish r u) ∧ runSteps (polls + 2) a = .next t ∧ SameResult (publish r u) t ∧
      t.port = [] ∧ t.status.busy = false := by
  obtain ⟨v, hpolls⟩ := runSteps_earlyPolls hreset hport
  rw [runSteps_add_of_next hpolls]
  obtain ⟨r, t, hlast⟩ := runSteps_completion_poll
    (u := { a with port := [{ access := .regRead 0x04 4, late := true }], rdata := v }) hb hreset hdec
    (inputWritten_of_inputIs { hin with }) rfl
  exact ⟨{ a with port := _, rdata := v }, r, t, rfl, rfl, rfl, { hin with }, hlast⟩

/-! ## A contract, R107 -/

/-- The result a contract reads from a published result: the error code, or the bytes below `OLEN` with `ODOM`. -/
theorem contractResult_of_publish {p : Params} {i : Instr} {r : CmdResult} {s t : State} (hp : p.wf = true)
    (hfits : ResultFits p i r) (h : SameResult (publish r s) t) :
    (t.status.err = true ∧ contractResult t = some (.error (publish r s).errcode)) ∨
      (t.status.err = false ∧ ∃ out, out.length = (publish r s).olen.toNat ∧
        (∀ k, k < out.length → Memory.byteAt (publish r s).obuf k = out[k]?) ∧
        contractResult t = some (.ok (out, (publish r s).odom))) := by
  cases r with
  | err e =>
    have hstatus : t.status = statusCompleted true := h.status
    exact .inl ⟨by rw [hstatus, statusCompleted_err], by simp [contractResult, hstatus, h.errcode]⟩
  | ok out d an =>
    have hstatus : t.status = statusCompleted false := h.status
    have hlen := hfits.length_le
    have hsize := obufSize_lt hp
    have holen : (publish (.ok out d an) s).olen.toNat = out.length := Nat.mod_eq_of_lt (by omega)
    have hrange : Memory.range t.obuf 0 t.olen.toNat = some out := by
      rw [h.olen, holen, h.obuf]
      exact range_ofBytes out
    refine .inr ⟨by rw [hstatus, statusCompleted_err], out, holen.symm, fun k _ => byteAt_ofBytes_zero k out, ?_⟩
    simp [contractResult, hstatus, hrange, h.odom]

/-- The accesses of a contract: the loads with the write of `ILEN`, the write of `CMD`, the polls. -/
theorem contract_accesses (c : Contract) (polls : Nat) :
    (c.steps polls).flatMap (HostStep.accesses false) =
      loadWrites false 0 c.input ++
        { access := .regWrite 0x0C 4 (BitVec.ofNat 32 c.input.length), late := false } ::
          { access := .regWrite 0x00 4 (encode c.command), late := false } ::
            (List.replicate polls { access := .regRead 0x04 4, late := false } ++
              [{ access := .regRead 0x04 4, late := true }]) := by
  simp [Contract.steps, HostStep.accesses]

/-- Settles O27: load and command, the early polls, the completion, the last poll. -/
theorem contractReturnsItsResult : Obligations.ContractReturnsItsResult := by
  intro s c polls hcfg hreset hb hwf hfit hcmd hport
  rw [contract_accesses] at hport
  have hcommand := runSteps_load_command hreset hb hfit hport
  obtain ⟨u, r, t, hucfg, hcmdr, han, huin, hfits, hexec, hwait, hsame, hdrained, hidle⟩ :=
    runSteps_wait (a := acceptedOn s c.input (encode c.command) _) (polls := polls) rfl hreset (decode_encode hcmd)
      (inputIs_acceptedOn _ _ hcfg hwf hfit) rfl
  refine ⟨u, publish r u, t, hucfg, hcmdr, han, huin, hexec, ?_, hsame, hdrained, hidle,
    contractResult_of_publish (hucfg ▸ hcfg) hfits hsame⟩
  rw [show c.input.length + polls + 4 = c.input.length + 2 + (polls + 2) by omega, runSteps_add_of_next hcommand, hwait]

end Sys2Proof.Proofs
end

section
/-!
SUPPORT. What the frequency counter counts (`40_huffman_units.md` R130): a pass of the counter adds one occurrence, so a
sum over the table is a sum over the input.
-/

namespace Sys2Proof.Proofs

open Sys2Proof.Machine Sys2Proof.Laws

/-! ## Lookups in the table, R35 -/

/-- Each symbol has one entry. -/
theorem nodup_symbols_freq (S : List Symbol) : ((freq S).map Prod.fst).Nodup :=
  (List.pairwise_map.mpr (freq_symbols S).1).imp Nat.ne_of_lt

/-- A symbol the table does not list has count 0. -/
theorem freqAt_of_forall_lt {F : List (Symbol × Nat)} {x : Symbol} (h : ∀ e ∈ F, x < e.1) : freqAt F x = 0 := by
  have hnone : F.find? (fun e => e.1 == x) = none :=
    List.find?_eq_none.mpr fun e he => by simpa using (h e he).ne'
  rw [freqAt, hnone]

theorem freqAt_cons (y x : Symbol) (c : Nat) (F : List (Symbol × Nat)) :
    freqAt ((y, c) :: F) x = if y = x then c else freqAt F x := by
  by_cases h : y = x <;> simp [freqAt, h]

/-! ## One pass of the counter, R130 -/

/-- One more occurrence of `x` adds one to the count of `x` alone. -/
theorem freqAt_bump (x y : Symbol) {F : List (Symbol × Nat)} (hF : AscendingSymbols F) :
    freqAt (bump x F) y = freqAt F y + if x = y then 1 else 0 := by
  induction F with
  | nil => rw [bump, freqAt_cons, freqAt, List.find?_nil, Nat.zero_add]
  | cons e F ih =>
    obtain ⟨z, c⟩ := e
    obtain ⟨hz, hF'⟩ := List.pairwise_cons.mp hF
    rw [bump]
    split
    · rename_i hlt
      have hx : ∀ e ∈ (z, c) :: F, x < e.1 :=
        List.forall_mem_cons.mpr ⟨hlt, fun e he => hlt.trans (hz e he)⟩
      rw [freqAt_cons]
      split
      · rename_i hxy
        rw [← hxy, freqAt_of_forall_lt hx]
      · rfl
    · split
      · rename_i heq
        rw [freqAt_cons, freqAt_cons, heq]
        split <;> rfl
      · rename_i hne
        rw [freqAt_cons, freqAt_cons, ih hF']
        split
        · rename_i hzy
          rw [if_neg (hzy ▸ hne), Nat.add_zero]
        · rfl

/-- One more occurrence of `x` adds the weight of `x` to a sum over the occurrences. -/
theorem sum_bump (h : Symbol → Nat) (x : Symbol) (F : List (Symbol × Nat)) :
    ((bump x F).map (fun e => e.2 * h e.1)).sum = (F.map (fun e => e.2 * h e.1)).sum + h x := by
  induction F with
  | nil => simp [bump]
  | cons e F ih =>
    obtain ⟨z, c⟩ := e
    simp only [bump]
    split_ifs with hlt heq
    · simp [add_comm]
    · simp only [List.map_cons, List.sum_cons, heq, Nat.add_mul]
      omega
    · simp only [List.map_cons, List.sum_cons, ih, Nat.add_assoc]

theorem one_le_bump (x : Symbol) {F : List (Symbol × Nat)} (hF : ∀ e ∈ F, 1 ≤ e.2) : ∀ e ∈ bump x F, 1 ≤ e.2 := by
  induction F with
  | nil => simp [bump]
  | cons e F ih =>
    obtain ⟨z, c⟩ := e
    obtain ⟨hc, hF'⟩ := List.forall_mem_cons.mp hF
    simp only [bump]
    split_ifs with hlt heq
    · exact List.forall_mem_cons.mpr ⟨le_refl 1, hF⟩
    · exact List.forall_mem_cons.mpr ⟨Nat.le_add_left 1 c, hF'⟩
    · exact List.forall_mem_cons.mpr ⟨hc, ih hF'⟩

/-! ## The whole input, R130 -/

/-- The last symbol of an input is counted last. -/
theorem freq_append_singleton (S : List Symbol) (x : Symbol) : freq (S ++ [x]) = bump x (freq S) := by
  simp [freq]

theorem freqAt_freq (S : List Symbol) (x : Symbol) : freqAt (freq S) x = S.count x := by
  induction S using List.reverseRecOn with
  | nil => rfl
  | append_singleton S y ih =>
    rw [freq_append_singleton, freqAt_bump y x (freq_symbols S).1, ih, List.count_append, List.count_singleton]
    simp

theorem one_le_of_mem_freq (S : List Symbol) : ∀ e ∈ freq S, 1 ≤ e.2 := by
  induction S using List.reverseRecOn with
  | nil => simp [freq]
  | append_singleton S y ih => exact freq_append_singleton S y ▸ one_le_bump y ih

/-- A sum over the symbols of an input is a sum over its frequency table. -/
theorem sum_map_eq_sum_freq (h : Symbol → Nat) (S : List Symbol) :
    (S.map h).sum = ((freq S).map (fun e => e.2 * h e.1)).sum := by
  induction S using List.reverseRecOn with
  | nil => rfl
  | append_singleton S y ih => simp [freq_append_singleton, sum_bump, ih]

theorem sum_counts_freq (S : List Symbol) : ((freq S).map (fun e => e.2)).sum = S.length := by
  simpa using (sum_map_eq_sum_freq (fun _ => 1) S).symm

/-- Settles O28: the four facts about the table, each kept by one pass of the counter. -/
theorem frequencyTableCounts : Obligations.FrequencyTableCounts :=
  fun S => ⟨freqAt_freq S, (freq_symbols S).1, one_le_of_mem_freq S, sum_counts_freq S⟩

end Sys2Proof.Proofs
end

section
/-!
SUPPORT. Trees and payloads read back (`40_huffman_units.md` R145, R148): a payload of the layout of R97 brings `HUFD` to
its last part with the tree that was serialized.
-/

namespace Sys2Proof.Proofs

open Sys2Proof.Machine Sys2Proof.Laws

/-- Settles O34: a region holds the tree whose serialization it is. -/
theorem deserializeInvertsSerialize : Obligations.DeserializeInvertsSerialize :=
  fun _ _ hT => deserialize_eq_some_iff.mpr ⟨hT, rfl⟩

/-- `HUFD` on the payload of a tree decodes with that tree and the packed bytes (R161). -/
theorem hufdBody_encHuff (p : Params) {d : Domain} {pad origLen : Nat} {T : Node} {packed : List Byte} (hpad : pad ≤ 7)
    (hempty : packed = [] → pad = 0) (horig : origLen < 2 ^ 32) (hT : nodeFits d T = true)
    (hlen : (encHuff d pad origLen T packed).length < 2 ^ 32) :
    hufdBody p (encHuff d pad origLen T packed) =
      hufdDecode p
        { domain := (domainCode d).toNat, pad := pad, origLen := origLen, treeLen := (serialize d T).length,
          packLen := packed.length } T packed := by
  rw [encHuff_eq_huffLayout] at hlen ⊢
  have hok := huffHeaderOk_huffLayout hpad hempty horig hlen
  rw [length_huffLayout] at hlen
  simp only [hufdBody, hok, if_true, huffHeaderLen]
  rw [huffHeader_huffLayout d (by omega) horig (by omega) (by omega)]
  simp only [domainOfCode_domainCode, treeRegion_huffLayout, packedRegion_huffLayout, deserializeInvertsSerialize d T hT]

/-- `HUFD` on a payload that decodes to a result within `OBUF` succeeds with it (R161). -/
theorem hufd_succeeds {s : State} {d : Domain} {bs out : List Byte} (hcfg : s.cfg.wf = true) (hin : InputIs s bs)
    (hlen : 14 ≤ bs.length) (hbody : hufdBody s.cfg bs = .ok out d none) (hout : out.length ≤ s.cfg.obufSize) :
    SucceedsWith .hufd s d out := by
  obtain ⟨_, _, _, hobuf⟩ := of_decide_eq_true hcfg
  have hexec : exec .hufd s = .next (publishOk out d none s) := by
    rw [← publish_ok, ← hbody]
    exact payloadCommand_of_input huffHeaderLen s _ bs hlen hin
  exact ⟨_, hexec, publishOk_success out d none s (by omega), rfl⟩

theorem length_unpack (packed : List Byte) (pad : Nat) : (unpack packed pad).length = 8 * packed.length - pad := by
  have hbits : (packed.flatMap byteBits).length = 8 * packed.length := by
    simp [List.length_flatMap, byteBits, mul_comm]
  rw [unpack, List.length_take, hbits]
  exact min_eq_left (Nat.sub_le _ _)

/-- Settles O41: the walk of a leaf root takes each meaningful bit for the symbol, and `ORIGLEN` counts these bits. -/
theorem hufdOfALeafRoot : Obligations.HufdOfALeafRoot := by
  intro s d pad x f packed hcfg hpad hempty hx hf hin hcap
  have hbits := length_unpack packed pad
  generalize 8 * packed.length - pad = n at *
  have hn : n < 2 ^ 32 := by
    obtain ⟨_, _, _, hobuf⟩ := of_decide_eq_true hcfg
    exact (Nat.le_mul_of_pos_right n (symb_pos d)).trans_lt (hcap.trans_lt hobuf)
  have hdecode := hufdBody_encHuff s.cfg hpad (fun h => hempty.resolve_left (not_not.mpr h)) hn
    (nodeFits_leaf.mpr ⟨hx, hf⟩) (length_lt_of_inputIs hin)
  refine hufd_succeeds hcfg hin ?_ (hdecode.trans ?_) ?_
  · rw [encHuff_eq_huffLayout, length_huffLayout]
    omega
  · simp only [hufdDecode, domainOfCode_domainCode, if_neg (not_lt.mpr hcap), walkBits, hbits, List.length_replicate,
      ne_eq, not_true_eq_false, if_false]
  · rw [length_streamBytes, List.length_replicate]
    exact hcap

end Sys2Proof.Proofs
end

section
/-!
SUPPORT. The tree walker (`40_huffman_units.md` R147, R148) against the paths of a tree: a walk that follows a path stands
at the path's node, and the code table lists the paths that end at a leaf (R137).
-/

namespace Sys2Proof.Proofs

open Sys2Proof.Machine Sys2Proof.Laws

/-! ## Paths, R12, R137 -/

/-- A path goes to a child first. -/
theorem nodeOn_cons (T : Node) (b : Bool) (path : Bits) :
    nodeOn T (b :: path) = (childAt b T).bind (fun c => nodeOn c path) := by
  cases T with
  | leaf x f => rfl
  | internal f l r => rfl
  | wrap f c => cases b <;> rfl

theorem nodeOn_append (T : Node) (p q : Bits) : nodeOn T (p ++ q) = (nodeOn T p).bind (fun c => nodeOn c q) := by
  induction p generalizing T with
  | nil => cases T <;> rfl
  | cons b p ih => rw [List.cons_append, nodeOn_cons, nodeOn_cons, Option.bind_assoc, funext ih]

@[simp] theorem nodeOn_nil (T : Node) : nodeOn T [] = some T := by cases T <;> rfl

/-- No path goes on below a leaf. -/
theorem nodeOn_leaf {x : Symbol} {f : Nat} {path : Bits} {c : Node} (h : nodeOn (.leaf x f) path = some c) :
    path = [] ∧ c = .leaf x f := by
  cases path with
  | nil => exact ⟨rfl, (Option.some.inj h).symm⟩
  | cons b path => cases h

theorem hasChild_or_leaf (T : Node) : rootHasChild T ∨ ∃ x f, T = .leaf x f := by
  cases T with
  | leaf x f => exact .inr ⟨x, f, rfl⟩
  | internal f l r => exact .inl trivial
  | wrap f c => exact .inl trivial

/-- The codes below a node are the paths from it to the leaves, after the path to it. -/
theorem mem_codesFrom {T : Node} {pre : Bits} (h : rootHasChild T ∨ pre ≠ []) {x : Symbol} {w : Bits} :
    (x, w) ∈ codesFrom T pre ↔ ∃ path f, nodeOn T path = some (.leaf x f) ∧ w = pre ++ path := by
  have hnext (pre : Bits) (b : Bool) : pre ++ [b] ≠ [] := by simp
  induction T generalizing pre with
  | leaf y g =>
    have hpre : pre ≠ [] := h.resolve_left id
    simp only [codesFrom, if_neg hpre, List.mem_singleton, Prod.mk.injEq]
    constructor
    · rintro ⟨rfl, rfl⟩
      exact ⟨[], g, rfl, (List.append_nil _).symm⟩
    · rintro ⟨path, f, hpath, rfl⟩
      obtain ⟨rfl, hleaf⟩ := nodeOn_leaf hpath
      cases hleaf
      exact ⟨rfl, List.append_nil _⟩
  | internal g l r ihl ihr =>
    simp only [codesFrom, List.mem_append, ihl (.inr (hnext pre false)),
      ihr (.inr (hnext pre true))]
    constructor
    · rintro (⟨path, f, hpath, rfl⟩ | ⟨path, f, hpath, rfl⟩)
      · exact ⟨false :: path, f, hpath, by simp⟩
      · exact ⟨true :: path, f, hpath, by simp⟩
    · rintro ⟨path, f, hpath, rfl⟩
      match path, hpath with
      | false :: path, hpath => exact .inl ⟨path, f, hpath, by simp⟩
      | true :: path, hpath => exact .inr ⟨path, f, hpath, by simp⟩
  | wrap g c ih =>
    simp only [codesFrom, ih (.inr (hnext pre false))]
    constructor
    · rintro ⟨path, f, hpath, rfl⟩
      exact ⟨false :: path, f, hpath, by simp⟩
    · rintro ⟨path, f, hpath, rfl⟩
      match path, hpath with
      | false :: path, hpath => exact ⟨path, f, hpath, by simp⟩

/-- The code table of a tree that is no single leaf lists the paths to its leaves (R137). -/
theorem mem_codes {T : Node} (h : rootHasChild T) {x : Symbol} {w : Bits} :
    (x, w) ∈ codes T ↔ ∃ f, nodeOn T w = some (.leaf x f) := by
  rw [codes, mem_codesFrom (.inl h)]
  simp

/-! ## The walk along a path, R147 -/

/-- The walk that has just come to a node: at a leaf it emits the symbol and goes back to the root. -/
def walkAt (root : Node) : Node → Bits → Option (List Symbol)
  | .leaf x _, bits => (walkFrom root root bits).map (fun out => x :: out)
  | .internal f l r, bits => walkFrom root (.internal f l r) bits
  | .wrap f c, bits => walkFrom root (.wrap f c) bits

theorem walkAt_of_hasChild {T : Node} (h : rootHasChild T) (root : Node) (bits : Bits) :
    walkAt root T bits = walkFrom root T bits := by
  cases T with
  | leaf x f => exact h.elim
  | internal f l r => rfl
  | wrap f c => rfl

theorem walkBits_of_hasChild {T : Node} (h : rootHasChild T) (bits : Bits) : walkBits T bits = walkFrom T T bits := by
  cases T with
  | leaf x f => exact h.elim
  | internal f l r => rfl
  | wrap f c => rfl

/-- One bit of the walk. -/
theorem walkFrom_cons (root cur : Node) (b : Bool) (bits : Bits) :
    walkFrom root cur (b :: bits) = (childAt b cur).bind (fun c => walkAt root c bits) := by
  rw [walkFrom]
  cases childAt b cur with
  | none => rfl
  | some c => cases c <;> rfl

/-- A walk along a path comes to the path's node. -/
theorem walkAt_path {root T c : Node} {path : Bits} (h : nodeOn T path = some c) (bits : Bits) :
    walkAt root T (path ++ bits) = walkAt root c bits := by
  induction path generalizing T with
  | nil => cases (nodeOn_nil T).symm.trans h; rfl
  | cons b path ih =>
    rw [nodeOn_cons] at h
    obtain ⟨T', hchild, hpath⟩ := Option.bind_eq_some_iff.mp h
    rcases hasChild_or_leaf T with hT | ⟨x, f, rfl⟩
    · rw [List.cons_append, walkAt_of_hasChild hT, walkFrom_cons, hchild, Option.bind_some, ih hpath]
    · cases hchild

/-- A walk over codes emits their symbols and goes on from the root. -/
theorem walkFrom_codes {T : Node} (hT : rootHasChild T) {es : List (Symbol × Bits)} (hes : ∀ e ∈ es, e ∈ codes T)
    (bits : Bits) : walkFrom T T (es.flatMap (fun e => e.2) ++ bits) =
      (walkFrom T T bits).map (fun out => es.map (fun e => e.1) ++ out) := by
  induction es with
  | nil => simp
  | cons e es ih =>
    obtain ⟨he, hes⟩ := List.forall_mem_cons.mp hes
    obtain ⟨f, hpath⟩ := (mem_codes hT).mp he
    rw [List.flatMap_cons, List.append_assoc, ← walkAt_of_hasChild hT, walkAt_path hpath, walkAt, ih hes,
      Option.map_map]
    rfl

/-- Settles O35: the codes by `walkFrom_codes`; the unfinished path ends at a node with a child, where nothing is
emitted. -/
theorem walkerDecodesPaths : Obligations.WalkerDecodesPaths := by
  rintro T es ⟨x, w⟩ q hT hes he ⟨rest, rfl⟩ hq
  obtain ⟨f, hpath⟩ := (mem_codes hT).mp he
  rw [nodeOn_append] at hpath
  obtain ⟨c, hc, hrest⟩ := Option.bind_eq_some_iff.mp hpath
  have hchild : rootHasChild c := (hasChild_or_leaf c).resolve_right <| by
    rintro ⟨y, g, rfl⟩
    exact hq (by rw [(nodeOn_leaf hrest).1, List.append_nil])
  have hempty : walkFrom T T q = some [] := by
    have hwalk := walkAt_path (root := T) hc []
    rwa [List.append_nil, walkAt_of_hasChild hT, walkAt_of_hasChild hchild, walkFrom] at hwalk
  rw [walkBits_of_hasChild hT, walkFrom_codes hT hes, hempty, Option.map_some, List.append_nil]

/-- The walk on the tree of one symbol (R135): every 0 bit is the symbol. -/
theorem walkFrom_wrap_leaf (x : Symbol) (f g : Nat) (bits : Bits) :
    walkFrom (.wrap f (.leaf x g)) (.wrap f (.leaf x g)) bits =
      if true ∈ bits then none else some (List.replicate bits.length x) := by
  induction bits with
  | nil => rfl
  | cons b bits ih =>
    rw [walkFrom_cons]
    cases b with
    | true => simp [childAt]
    | false =>
      simp only [childAt, Bool.false_eq_true, if_false, Option.bind_some, walkAt, ih, List.mem_cons, Bool.true_eq_false,
        false_or]
      split <;> rfl

/-- Settles O36: the walk comes to the wrapper by `walkAt_path`, and the 1 bit has no child there. -/
theorem wrapperHasNoRightChild : Obligations.WrapperHasNoRightChild := by
  refine ⟨fun T c f es path rest hes hpath => ?_, fun x f g bits => walkFrom_wrap_leaf x f g bits⟩
  have hT : rootHasChild T := (hasChild_or_leaf T).resolve_right <| by
    rintro ⟨x, g, rfl⟩
    cases (nodeOn_leaf hpath).2
  have hwrap : walkFrom T T (path ++ true :: rest) = none := by
    rw [← walkAt_of_hasChild hT, walkAt_path hpath, walkAt, walkFrom_cons]
    rfl
  rw [walkBits_of_hasChild hT, walkFrom_codes hT hes, hwrap, Option.map_none]

end Sys2Proof.Proofs
end

section
/-!
SUPPORT. The tree builder (`40_huffman_units.md` R131 to R136 (d)): a merge takes the two least queued trees, so the built
tree comes of the leaves by a chain of such merges, and what each merge keeps holds of the built tree.
-/

namespace Sys2Proof.Proofs

open Sys2Proof.Machine Sys2Proof.Laws

/-! ## Extract-min and the merge step, R132, R133 -/

/-- Extract-min yields a queued node of least frequency and removes it (R132). -/
theorem extractMin_least {pick : Picker} (hp : pick.valid) (nodes : List Node) {pq : List Nat} (h : pq ≠ []) :
    ∃ i ∈ pq, extractMin pick nodes pq = (i, pq.erase i) ∧
      ∀ k ∈ pq, (nodeAt nodes i).freq ≤ (nodeAt nodes k).freq := by
  obtain ⟨hi, hfreq, herase⟩ := extractMin_spec pick hp nodes pq h
  exact ⟨_, hi, Prod.ext rfl herase, fun k hk => hfreq ▸ minFreq_le nodes pq k hk⟩

/-- `MINSEQ` yields the smallest id among the queued nodes of least frequency (R132). -/
theorem extractMin_minSeq_le {nodes : List Node} {pq : List Nat} {k : Nat} (hk : k ∈ pq)
    (hleast : ∀ j ∈ pq, (nodeAt nodes k).freq ≤ (nodeAt nodes j).freq) :
    (extractMin (pickerOf .minSeq) nodes pq).1 ≤ k := by
  obtain ⟨i, hi, hmin⟩ := minFreq_attained nodes pq (List.ne_nil_of_mem hk)
  have hfreq : (nodeAt nodes k).freq = minFreq nodes pq := le_antisymm (hmin ▸ hleast i hi) (minFreq_le nodes pq k hk)
  exact leastId_le _ _ (List.mem_filter.mpr ⟨hk, beq_iff_eq.mpr hfreq⟩)

/-- A merge takes out the two least queued nodes, the lesser as left child, and queues their parent (R133). -/
theorem mergeStep_least {pick : Picker} (hp : pick.valid) (nodes : List Node) {pq : List Nat} (h : 2 ≤ pq.length) :
    ∃ i ∈ pq, ∃ j ∈ pq.erase i,
      (nodeAt nodes i).freq ≤ (nodeAt nodes j).freq ∧
      (∀ k ∈ (pq.erase i).erase j, (nodeAt nodes j).freq ≤ (nodeAt nodes k).freq) ∧
      mergeStep pick (nodes, pq) =
        (nodes ++ [.internal ((nodeAt nodes i).freq + (nodeAt nodes j).freq) (nodeAt nodes i) (nodeAt nodes j)],
          (pq.erase i).erase j ++ [nodes.length]) := by
  obtain ⟨i, hi, hfirst, hleast⟩ := extractMin_least hp nodes (List.length_pos_iff.mp (by omega : 0 < pq.length))
  have hlen := List.length_erase_of_mem hi
  obtain ⟨j, hj, hsecond, hleast'⟩ :=
    extractMin_least hp nodes (List.length_pos_iff.mp (by omega : 0 < (pq.erase i).length))
  refine ⟨i, hi, j, hj, hleast j (List.mem_of_mem_erase hj), fun k hk => hleast' k (List.mem_of_mem_erase hk), ?_⟩
  simp only [mergeStep, hfirst, hsecond]

/-! ## The queue as a bag of trees, R134 -/

/-- The queued trees. -/
def queued (st : List Node × List Nat) : Multiset Node := ↑(st.2.map (nodeAt st.1))

/-- `Merged W T`: merging the two least trees of `W` until one is left may give `T` (R133, R134). -/
inductive Merged : Multiset Node → Node → Prop where
  | one (T : Node) : Merged {T} T
  | merge (a b : Node) (W : Multiset Node) (T : Node) : a.freq ≤ b.freq → (∀ x ∈ W, b.freq ≤ x.freq) →
      Merged (.internal (a.freq + b.freq) a b ::ₘ W) T → Merged (a ::ₘ b ::ₘ W) T

/-- A merge step merges two least trees of the queue. -/
theorem queued_mergeStep {pick : Picker} (hp : pick.valid) {nodes : List Node} {pq : List Nat} (h : 2 ≤ pq.length)
    (hrange : QueueInRange (nodes, pq)) :
    ∃ a b W, a.freq ≤ b.freq ∧ (∀ x ∈ W, b.freq ≤ x.freq) ∧ queued (nodes, pq) = a ::ₘ b ::ₘ W ∧
      queued (mergeStep pick (nodes, pq)) = .internal (a.freq + b.freq) a b ::ₘ W := by
  obtain ⟨i, hi, j, hj, hij, hleast, hstep⟩ := mergeStep_least hp nodes h
  have hkept : ∀ k ∈ (pq.erase i).erase j, ∀ T, nodeAt (nodes ++ [T]) k = nodeAt nodes k := fun k hk T =>
    nodeAt_append_left (hrange k (List.mem_of_mem_erase (List.mem_of_mem_erase hk))) [T]
  have hperm := (List.perm_cons_erase hi).trans ((List.perm_cons_erase hj).cons i)
  refine ⟨nodeAt nodes i, nodeAt nodes j, ↑(((pq.erase i).erase j).map (nodeAt nodes)), hij, fun x hx => ?_,
    Multiset.coe_eq_coe.mpr (hperm.map (nodeAt nodes)), ?_⟩
  · obtain ⟨k, hk, rfl⟩ := List.mem_map.mp hx
    exact hleast k hk
  · rw [hstep, queued, List.map_append, List.map_congr_left fun k hk => hkept k hk _, List.map_singleton,
      nodeAt_append_length]
    exact Multiset.coe_eq_coe.mpr (List.perm_append_singleton _ _)

/-- `k` merges of a queue of `k + 1` trees leave one tree, merged from them. -/
theorem mergeAll_merged {pick : Picker} (hp : pick.valid) (k : Nat) {st : List Node × List Nat}
    (h : st.2.length = k + 1) (hrange : QueueInRange st) :
    Merged (queued st) (nodeAt (mergeAll pick k st).1 ((mergeAll pick k st).2.headD 0)) := by
  induction k generalizing st with
  | zero =>
    obtain ⟨nodes, pq⟩ := st
    obtain ⟨i, rfl⟩ := List.length_eq_one_iff.mp h
    exact Merged.one (nodeAt nodes i)
  | succ k ih =>
    obtain ⟨nodes, pq⟩ := st
    have hpq : pq.length = k + 1 + 1 := h
    obtain ⟨hrange', hlen, -⟩ := mergeStep_keeps hp (by omega) hrange (g := fun _ => 0) (fun _ _ _ => rfl)
    obtain ⟨a, b, W, hab, hW, hbefore, hafter⟩ := queued_mergeStep hp (by omega) hrange
    rw [hbefore]
    exact .merge a b W _ hab hW (hafter ▸ ih (by omega) hrange')

/-- For two or more symbols a tree is built, merged from the leaves of the table (R131, R134). -/
theorem build_merged {pick : Picker} (hp : pick.valid) {F : List (Symbol × Nat)} (hF : 2 ≤ F.length) :
    ∃ T, build pick F = some T ∧ Merged ↑(leafNodes F) T := by
  have hqueued : queued (leafNodes F, List.range F.length) = ↑(leafNodes F) := by
    rw [queued]
    congr 1
    refine List.ext_getElem (by simp [leafNodes]) fun i h1 h2 => ?_
    simp [nodeAt, List.getElem?_eq_getElem h2]
  have hrange : QueueInRange (leafNodes F, List.range F.length) := fun i hi => by
    simpa [leafNodes] using hi
  have hmerged := mergeAll_merged hp (F.length - 1) (st := (leafNodes F, List.range F.length))
    (by rw [List.length_range]; omega) hrange
  rw [hqueued] at hmerged
  refine ⟨_, ?_, hmerged⟩
  match F, hF with
  | _ :: _ :: _, _ => rfl

/-- What holds of the trees of a bag and is kept by a merge holds of the tree merged from it. -/
theorem Merged.keeps {P : Node → Prop} (hP : ∀ a b, P a → P b → P (.internal (a.freq + b.freq) a b))
    {W : Multiset Node} {T : Node} (h : Merged W T) (hW : ∀ x ∈ W, P x) : P T := by
  induction h with
  | one T => exact hW T (Multiset.mem_singleton_self T)
  | merge a b W T _ _ _ ih =>
    obtain ⟨ha, hb, hW⟩ := by simpa only [Multiset.forall_mem_cons] using hW
    exact ih (Multiset.forall_mem_cons.mpr ⟨hP a b ha hb, hW⟩)

/-! ## The built tree, R134 to R136 (d) -/

/-- The frequency of a tree is the sum of its leaves' (R136 (a)). -/
theorem freq_eq_sum_leaves {T : Node} (h : sumsHold T) : T.freq = ((leavesOf T).map (fun e => e.2)).sum := by
  induction T with
  | leaf x f => simp [Node.freq, leavesOf]
  | internal f l r ihl ihr =>
    obtain ⟨hf, hl, hr⟩ := h
    rw [leavesOf, List.map_append, List.sum_append, ← ihl hl, ← ihr hr]
    exact hf
  | wrap f c ih =>
    obtain ⟨hf, hc⟩ := h
    exact hf.trans (ih hc)

/-- The leaves of a tree built for two or more symbols are the table (R136 (c)). -/
theorem leaves_build {pick : Picker} (hp : pick.valid) {F : List (Symbol × Nat)} (hF : 2 ≤ F.length) {T : Node}
    (hT : build pick F = some T) : (leavesOf T).Perm F := by
  have hsum := measure_build hp hF hT (g := fun T => (leavesOf T : Multiset (Symbol × Nat)))
    (fun _ _ _ => (Multiset.coe_add _ _).symm)
  refine Multiset.coe_eq_coe.mp (hsum.trans ?_)
  exact Multiset.sum_map_singleton (F : Multiset (Symbol × Nat))

/-- What R136 (a) to (d) say of the tree built for `S`. -/
structure BuiltFor (S : List Symbol) (T : Node) : Prop where
  sums : sumsHold T
  leaves : (leavesOf T).Perm (freq S)
  shape : ((freq S).length = 1 ∧ ∃ x, T = .wrap S.length (.leaf x S.length)) ∨
    (2 ≤ (freq S).length ∧ binary T ∧ Merged ↑(leafNodes (freq S)) T)

/-- For every tie-break a tree is built, and it is as R136 says. -/
theorem build_freq {pick : Picker} (hp : pick.valid) {S : List Symbol} (hS : S ≠ []) :
    ∃ T, build pick (freq S) = some T ∧ BuiltFor S T := by
  have hcounts := sum_counts_freq S
  rcases lt_trichotomy (freq S).length 1 with hK | hK | hK
  · rw [List.length_eq_zero_iff.mp (Nat.lt_one_iff.mp hK)] at hcounts
    exact absurd (List.length_eq_zero_iff.mp hcounts.symm) hS
  · obtain ⟨⟨x, n⟩, hF⟩ := List.length_eq_one_iff.mp hK
    rw [hF, List.map_singleton, List.sum_singleton] at hcounts
    cases hcounts
    refine ⟨.wrap S.length (.leaf x S.length), by rw [hF]; rfl, ⟨rfl, trivial⟩, ?_, .inl ⟨hK, x, rfl⟩⟩
    rw [hF]
    rfl
  · obtain ⟨T, hT, hmerged⟩ := build_merged hp hK
    obtain ⟨hsums, hbinary⟩ := hmerged.keeps (P := fun T => sumsHold T ∧ binary T)
      (fun a b ha hb => ⟨⟨rfl, ha.1, hb.1⟩, ha.2, hb.2⟩)
      (fun x hx => by obtain ⟨e, -, rfl⟩ := List.mem_map.mp hx; exact ⟨trivial, trivial⟩)
    exact ⟨T, hT, hsums, leaves_build hp hK hT, .inr ⟨hK, hbinary, hmerged⟩⟩

theorem builtFor_of_build {pick : Picker} (hp : pick.valid) {S : List Symbol} (hS : S ≠ []) {T : Node}
    (hT : build pick (freq S) = some T) : BuiltFor S T := by
  obtain ⟨T', hT', hbuilt⟩ := build_freq hp hS
  cases hT.symm.trans hT'
  exact hbuilt

theorem BuiltFor.freq_eq {S : List Symbol} {T : Node} (h : BuiltFor S T) : T.freq = S.length := by
  rw [freq_eq_sum_leaves h.sums, (h.leaves.map _).sum_eq, sum_counts_freq]

theorem BuiltFor.hasChild {S : List Symbol} {T : Node} (h : BuiltFor S T) : rootHasChild T := by
  refine (hasChild_or_leaf T).resolve_right ?_
  rintro ⟨x, f, rfl⟩
  rcases h.shape with ⟨-, y, hy⟩ | ⟨hK, -, -⟩
  · cases hy
  · have hlen : 1 = (freq S).length := h.leaves.length_eq
    omega

end Sys2Proof.Proofs
end

section
/-!
SUPPORT. The code table of a built tree (`40_huffman_units.md` R137 to R140): it has the symbols of the leaves, its codes
are paths to leaves, and a path is no longer than the tree has leaves to offer.
-/

namespace Sys2Proof.Proofs

open Sys2Proof.Machine Sys2Proof.Laws

/-! ## One code for each symbol, R137 -/

/-- In a table with one entry for each symbol the code of a symbol is that of its entry. -/
theorem codeOf_of_mem {table : List (Symbol × Bits)} (hnodup : (table.map Prod.fst).Nodup) {x : Symbol} {w : Bits}
    (h : (x, w) ∈ table) : codeOf table x = w := by
  induction table with
  | nil => cases h
  | cons e table ih =>
    obtain ⟨y, v⟩ := e
    obtain ⟨hy, hnodup⟩ := List.nodup_cons.mp hnodup
    rcases List.mem_cons.mp h with heq | h
    · cases heq
      simp [codeOf]
    · have hx : x ∈ table.map Prod.fst := List.mem_map_of_mem h
      have hne : y ≠ x := fun hyx => hy (hyx ▸ hx)
      simpa [codeOf, hne] using ih hnodup h

/-- The code table has the symbols of the leaves, left to right. -/
theorem codesFrom_symbols (T : Node) (pre : Bits) :
    (codesFrom T pre).map Prod.fst = (leavesOf T).map Prod.fst := by
  induction T generalizing pre with
  | leaf x f => rfl
  | internal f l r ihl ihr => rw [codesFrom, leavesOf, List.map_append, List.map_append, ihl, ihr]
  | wrap f c ih => exact ih _

section
variable {S : List Symbol} {T : Node} (h : BuiltFor S T)
include h

theorem BuiltFor.symbols_perm : ((codes T).map Prod.fst).Perm ((freq S).map Prod.fst) := by
  rw [codes, codesFrom_symbols]
  exact h.leaves.map Prod.fst

theorem BuiltFor.symbols_nodup : ((codes T).map Prod.fst).Nodup :=
  h.symbols_perm.nodup_iff.mpr (nodup_symbols_freq S)

theorem BuiltFor.mem_symbols {x : Symbol} : x ∈ (codes T).map Prod.fst ↔ x ∈ S :=
  h.symbols_perm.mem_iff.trans ((freq_symbols S).2 x)

/-- Every symbol of the input has the code the table lists for it. -/
theorem BuiltFor.codeOf_mem {x : Symbol} (hx : x ∈ S) : (x, codeOf (codes T) x) ∈ codes T := by
  obtain ⟨⟨y, w⟩, he, rfl⟩ := List.mem_map.mp (h.mem_symbols.mpr hx)
  exact (codeOf_of_mem h.symbols_nodup he).symm ▸ he

/-- The code of a symbol is the path to a leaf of that symbol. -/
theorem BuiltFor.nodeOn_codeOf {x : Symbol} (hx : x ∈ S) : ∃ f, nodeOn T (codeOf (codes T) x) = some (.leaf x f) :=
  (mem_codes h.hasChild).mp (h.codeOf_mem hx)

/-- No path to a leaf goes on to another (R139). -/
theorem BuiltFor.eq_of_codeOf_prefix {x y : Symbol} (hx : x ∈ S) (hy : y ∈ S)
    (hprefix : codeOf (codes T) x <+: codeOf (codes T) y) : x = y := by
  obtain ⟨rest, hrest⟩ := hprefix
  obtain ⟨f, hxpath⟩ := h.nodeOn_codeOf hx
  obtain ⟨g, hypath⟩ := h.nodeOn_codeOf hy
  rw [← hrest, nodeOn_append, hxpath, Option.bind_some] at hypath
  cases (nodeOn_leaf hypath).2
  rfl

end

/-- Settles O30: a symbol has one code since the leaves' symbols differ, and codes are paths to different leaves. -/
theorem codeTableIsPrefixFree : Obligations.CodeTableIsPrefixFree := by
  intro pick S T hp hS hT
  have h := builtFor_of_build hp hS hT
  refine ⟨fun x hx => ?_, fun e he => ⟨h.mem_symbols.mp (List.mem_map_of_mem he), ?_⟩,
    fun x hx y hy hne hprefix => hne (h.eq_of_codeOf_prefix hx hy hprefix)⟩
  · have hone : ((codes T).map Prod.fst).count x = 1 := List.count_eq_one_of_mem h.symbols_nodup (h.mem_symbols.mpr hx)
    rwa [List.count, List.countP_map, List.countP_eq_length_filter] at hone
  · exact (codeOf_of_mem h.symbols_nodup he).symm

/-! ## Code lengths, R140 -/

theorem length_leavesOf_pos (T : Node) : 0 < (leavesOf T).length := by
  induction T with
  | leaf x f => exact Nat.one_pos
  | internal f l r ihl _ => rw [leavesOf, List.length_append]; omega
  | wrap f c ih => exact ih

/-- Each bit of a path leaves at least one leaf aside. -/
theorem length_path_add_leaves_le {T c : Node} {path : Bits} (hT : binary T) (h : nodeOn T path = some c) :
    path.length + (leavesOf c).length ≤ (leavesOf T).length := by
  induction path generalizing T with
  | nil =>
    cases (nodeOn_nil T).symm.trans h
    exact (Nat.zero_add _).le
  | cons b path ih =>
    cases T with
    | leaf x f => cases h
    | internal f l r =>
      have hl := length_leavesOf_pos l
      have hr := length_leavesOf_pos r
      rw [leavesOf, List.length_append, List.length_cons]
      cases b with
      | false => have := ih hT.1 h; omega
      | true => have := ih hT.2 h; omega
    | wrap f c => exact hT.elim

theorem BuiltFor.codeOf_ne_nil {S : List Symbol} {T : Node} (h : BuiltFor S T) {x : Symbol} (hx : x ∈ S) :
    codeOf (codes T) x ≠ [] := by
  intro hnil
  obtain ⟨f, hpath⟩ := h.nodeOn_codeOf hx
  rw [hnil, nodeOn_nil] at hpath
  cases hpath
  exact h.hasChild

/-- A code has at most `max(1, K - 1)` bits. -/
theorem BuiltFor.length_codeOf_le {S : List Symbol} {T : Node} (h : BuiltFor S T) {x : Symbol} (hx : x ∈ S) :
    (codeOf (codes T) x).length ≤ max 1 ((freq S).length - 1) := by
  rcases h.shape with ⟨-, y, rfl⟩ | ⟨-, hbinary, -⟩
  · have hcode : (x, codeOf (codes (.wrap S.length (.leaf y S.length))) x) ∈ [(y, [false])] := h.codeOf_mem hx
    rw [(Prod.mk.inj (List.mem_singleton.mp hcode)).2]
    exact le_max_left _ _
  · obtain ⟨f, hpath⟩ := h.nodeOn_codeOf hx
    have hlen := length_path_add_leaves_le hbinary hpath
    rw [h.leaves.length_eq, leavesOf, List.length_singleton] at hlen
    exact le_max_of_le_right (by omega)

/-- Words that are not empty spell an input in at least one bit for each symbol. -/
theorem length_le_length_flatMap {S : List Symbol} {c : Symbol → Bits} (hc : ∀ x ∈ S, c x ≠ []) :
    S.length ≤ (S.flatMap c).length := by
  have hsum := List.card_nsmul_le_sum (S.map (fun x => (c x).length)) 1
    (List.forall_mem_map.mpr fun x hx => List.length_pos_iff.mpr (hc x hx))
  rwa [List.length_map, smul_eq_mul, mul_one, ← List.length_flatMap] at hsum

/-- Settles O31: the bounds of each code, added up over the input. -/
theorem codeLengthBounds : Obligations.CodeLengthBounds := by
  intro pick S T hp hS hT most
  have h := builtFor_of_build hp hS hT
  refine ⟨fun x hx => ⟨List.length_pos_iff.mpr (h.codeOf_ne_nil hx), h.length_codeOf_le hx⟩,
    length_le_length_flatMap fun x hx => h.codeOf_ne_nil hx, ?_⟩
  have hsum := List.sum_le_card_nsmul (S.map (fun x => (codeOf (codes T) x).length)) most
    (List.forall_mem_map.mpr fun x hx => h.length_codeOf_le hx)
  rwa [List.length_map, smul_eq_mul, ← List.length_flatMap] at hsum

end Sys2Proof.Proofs
end

section
/-!
SUPPORT. Huffman's theorem for the built tree (`40_huffman_units.md` R136 (e)): the bits of its code are the cost of the
merges that built it, and no code of the kind R139 and R140 describe is below that cost, since its lengths satisfy
Kraft's inequality.
-/

namespace Sys2Proof.Proofs

open Sys2Proof.Machine Sys2Proof.Laws InformationTheory

/-! ## The bits of the tree's code -/

/-- The sum of the frequencies of all nodes that have a child: what the merges cost. -/
def mergeCost : Node → Nat
  | .leaf _ _ => 0
  | .internal f l r => f + (mergeCost l + mergeCost r)
  | .wrap f c => f + mergeCost c

/-- A leaf's frequency is paid once for each node above it: code lengths weighted by frequencies add up to the cost. -/
theorem sum_leaves_eq_mergeCost {T : Node} (hT : sumsHold T) {pre : Bits} (h : rootHasChild T ∨ pre ≠ [])
    {len : Symbol → Nat} (hlen : ∀ e ∈ codesFrom T pre, len e.1 = e.2.length) :
    ((leavesOf T).map (fun e => e.2 * len e.1)).sum = mergeCost T + T.freq * pre.length := by
  induction T generalizing pre with
  | leaf x f =>
    have hx := hlen _ (List.mem_singleton_self _)
    rw [if_neg (h.resolve_left id)] at hx
    simp [leavesOf, mergeCost, Node.freq, hx]
  | internal f l r ihl ihr =>
    obtain ⟨hf, hl, hr⟩ := hT
    obtain ⟨hlenl, hlenr⟩ := List.forall_mem_append.mp hlen
    have hsuml := ihl hl (.inr (by simp)) hlenl
    have hsumr := ihr hr (.inr (by simp)) hlenr
    rw [leavesOf, List.map_append, List.sum_append, hsuml, hsumr, mergeCost, Node.freq, hf]
    simp only [List.length_append, List.length_singleton]
    ring
  | wrap f c ih =>
    obtain ⟨hf, hc⟩ := hT
    have hsum := ih hc (.inr (by simp)) hlen
    rw [leavesOf, hsum, mergeCost, Node.freq, hf]
    simp only [List.length_append, List.length_singleton]
    ring

/-- The bits in which words spell an input, counted over its frequency table. -/
theorem length_flatMap_eq_sum_freq (c : Symbol → Bits) (S : List Symbol) :
    (S.flatMap c).length = ((freq S).map (fun e => e.2 * (c e.1).length)).sum := by
  rw [List.length_flatMap, sum_map_eq_sum_freq (fun x => (c x).length)]

theorem BuiltFor.length_codeBits {S : List Symbol} {T : Node} (h : BuiltFor S T) :
    (codeBits (codes T) S).length = mergeCost T := by
  have hlen : ∀ e ∈ codesFrom T [], (codeOf (codes T) e.1).length = e.2.length := fun e he =>
    congrArg List.length (codeOf_of_mem h.symbols_nodup he)
  have hsum := sum_leaves_eq_mergeCost h.sums (.inl h.hasChild)
    (len := fun x => (codeOf (codes T) x).length) hlen
  rw [List.length_nil, mul_zero, add_zero] at hsum
  rw [codeBits, length_flatMap_eq_sum_freq, ← hsum]
  exact (h.leaves.map _).sum_eq.symm

/-- The merges of trees cost what the merges of their frequencies cost. -/
theorem Merged.merges {W : Multiset Node} {T : Node} (h : Merged W T) :
    ∃ c, Merges (W.map Node.freq) c ∧ mergeCost T = (W.map mergeCost).sum + c := by
  induction h with
  | one T => exact ⟨0, Multiset.map_singleton Node.freq T ▸ .one _, by simp⟩
  | merge a b W T hab hW _ ih =>
    obtain ⟨c, hmerges, hcost⟩ := ih
    rw [Multiset.map_cons] at hmerges
    refine ⟨c + (a.freq + b.freq), ?_, ?_⟩
    · rw [Multiset.map_cons, Multiset.map_cons]
      exact .merge _ _ _ _ hab (Multiset.forall_mem_map_iff.mpr hW) hmerges
    · rw [hcost]
      simp only [Multiset.map_cons, Multiset.sum_cons, mergeCost]
      omega

/-! ## Kraft's inequality, R139 -/

/-- A bit-string is cut into words of such a code in one way: of two words it begins with, one begins with the
other. -/
theorem uniquelyDecodable_of_prefixCode {S : List Symbol} {c : Symbol → Bits} (hc : prefixCode S c) :
    UniquelyDecodable {w | ∃ x ∈ S, c x = w} := by
  obtain ⟨hne, hfree⟩ := hc
  have heq {x y : Symbol} (hx : x ∈ S) (hy : y ∈ S) (h : c x <+: c y) : x = y := by
    by_contra hxy
    exact hfree x hx y hy hxy h
  intro L₁
  induction L₁ with
  | nil =>
    intro L₂ _ hL₂ hflat
    cases L₂ with
    | nil => rfl
    | cons w L₂ =>
      obtain ⟨x, hx, rfl⟩ := hL₂ w List.mem_cons_self
      exact absurd (List.append_eq_nil_iff.mp hflat.symm).1 (hne x hx)
  | cons w L₁ ih =>
    intro L₂ hL₁ hL₂ hflat
    obtain ⟨x, hx, rfl⟩ := hL₁ w List.mem_cons_self
    cases L₂ with
    | nil => exact absurd (List.append_eq_nil_iff.mp hflat).1 (hne x hx)
    | cons v L₂ =>
      obtain ⟨y, hy, rfl⟩ := hL₂ v List.mem_cons_self
      rw [List.flatten_cons, List.flatten_cons] at hflat
      have hxy : x = y := by
        rcases List.prefix_or_prefix_of_prefix (List.prefix_append _ _) ⟨_, hflat.symm⟩ with h | h
        · exact heq hx hy h
        · exact (heq hy hx h).symm
      subst hxy
      rw [ih L₂ (List.forall_mem_cons.mp hL₁).2 (List.forall_mem_cons.mp hL₂).2 (List.append_cancel_left hflat)]

/-- The counts of an input with the lengths of its words. -/
def countsAndLengths (S : List Symbol) (c : Symbol → Bits) : Multiset (Nat × Nat) :=
  ↑((freq S).map (fun e => (e.2, (c e.1).length)))

/-- Kraft's sum over a frequency table is a sum over the distinct symbols. -/
theorem kraftSum_countsAndLengths (S : List Symbol) (c : Symbol → Bits) (D : Nat) :
    kraftSum D (countsAndLengths S c) = ∑ x ∈ S.toFinset, 2 ^ (D - (c x).length) := by
  have hset : S.toFinset = ((freq S).map Prod.fst).toFinset := by
    ext x
    rw [List.mem_toFinset, List.mem_toFinset, (freq_symbols S).2]
  rw [hset, List.sum_toFinset _ (nodup_symbols_freq S), kraftSum, countsAndLengths, Multiset.map_coe, Multiset.sum_coe,
    List.map_map, List.map_map]
  rfl

theorem kraftSum_le_of_prefixCode {S : List Symbol} {c : Symbol → Bits} (hc : prefixCode S c) {D : Nat}
    (hD : ∀ x ∈ S, (c x).length ≤ D) : kraftSum D (countsAndLengths S c) ≤ 2 ^ D := by
  have hinj : Set.InjOn c S.toFinset := fun x hx y hy hxy => by
    by_contra hne
    exact hc.2 x (by simpa using hx) y (by simpa using hy) hne (hxy ▸ List.prefix_rfl)
  have hdecodable : UniquelyDecodable (↑(S.toFinset.image c) : Set Bits) := by
    simpa [Set.image] using uniquelyDecodable_of_prefixCode hc
  have hkraft := kraft_mcmillan_inequality hdecodable
  rw [Finset.sum_image hinj, Fintype.card_bool] at hkraft
  have hscale : ((∑ x ∈ S.toFinset, 2 ^ (D - (c x).length) : Nat) : ℝ) =
      2 ^ D * ∑ x ∈ S.toFinset, (1 / (2 : Nat) : ℝ) ^ (c x).length := by
    rw [Nat.cast_sum, Finset.mul_sum]
    refine Finset.sum_congr rfl fun x hx => ?_
    rw [Nat.cast_pow, Nat.cast_ofNat, one_div, inv_pow, pow_sub₀ 2 two_ne_zero (hD x (List.mem_toFinset.mp hx))]
  rw [kraftSum_countsAndLengths]
  have hle : ((∑ x ∈ S.toFinset, 2 ^ (D - (c x).length) : Nat) : ℝ) ≤ 2 ^ D := by
    rw [hscale]
    exact mul_le_of_le_one_right (by positivity) hkraft
  exact_mod_cast hle

/-! ## No code is shorter, R136 (e) -/

theorem BuiltFor.length_codeBits_le {S : List Symbol} {T : Node} (h : BuiltFor S T) {c : Symbol → Bits}
    (hc : prefixCode S c) : (codeBits (codes T) S).length ≤ (S.flatMap c).length := by
  rw [h.length_codeBits]
  rcases h.shape with ⟨-, x, rfl⟩ | ⟨-, -, hmerged⟩
  · exact length_le_length_flatMap hc.1
  · obtain ⟨cost, hmerges, hcost⟩ := hmerged.merges
    obtain ⟨D, hD⟩ : ∃ D, ∀ x ∈ S, (c x).length ≤ D :=
      ⟨(S.map (fun x => (c x).length)).sum, fun x hx => List.single_le_sum (by simp) _ (List.mem_map_of_mem hx)⟩
    have hfreqs : (countsAndLengths S c).map Prod.fst = Multiset.map Node.freq ↑(leafNodes (freq S)) := by
      simp [countsAndLengths, leafNodes, Node.freq, Function.comp_def]
    have hleaves : (Multiset.map mergeCost ↑(leafNodes (freq S))).sum = 0 := by
      simp [leafNodes, mergeCost, Function.comp_def]
    have hlengths : ∀ e ∈ countsAndLengths S c, e.2 ≤ D := by
      intro e he
      obtain ⟨y, hy, rfl⟩ := List.mem_map.mp he
      exact hD y.1 (((freq_symbols S).2 y.1).mp (List.mem_map_of_mem hy))
    calc mergeCost T = cost := by rw [hcost, hleaves, Nat.zero_add]
      _ ≤ weightedLength (countsAndLengths S c) :=
        merges_le_weightedLength hmerges D _ hfreqs hlengths (kraftSum_le_of_prefixCode hc hD)
      _ = (S.flatMap c).length := by
        rw [length_flatMap_eq_sum_freq, weightedLength, countsAndLengths, Multiset.map_coe, Multiset.sum_coe,
          List.map_map]
        rfl

/-- Settles O29: extract-min and the merge as they are, the tree by `build_freq`, its optimality by the cost of the
merges and Kraft's inequality. -/
theorem builtTreeInvariants : Obligations.BuiltTreeInvariants := by
  refine ⟨fun pick nodes pq hp => extractMin_least hp nodes, fun nodes pq k => extractMin_minSeq_le,
    fun pick nodes pq hp => mergeStep_least hp nodes, fun pick S hp hS => ?_⟩
  obtain ⟨T, hT, h⟩ := build_freq hp hS
  refine ⟨T, hT, h.sums, h.freq_eq, h.leaves, fun hK => ?_, fun hK => ?_, fun c => h.length_codeBits_le⟩
  · rcases h.shape with ⟨-, hwrap⟩ | ⟨hK', -, -⟩
    · exact hwrap
    · omega
  · rcases h.shape with ⟨hK', -⟩ | ⟨-, hbinary, -⟩
    · omega
    · exact hbinary

end Sys2Proof.Proofs
end

section
/-!
SUPPORT. Commands over a symbol stream (`60_exceptions.md` R238, `30_encoding.md` R96): a completion is an error of the
checks, which no body has a part in, or the body's answer on the symbols in `IBUF`; and the end of a compress command.
-/

namespace Sys2Proof.Proofs

open Sys2Proof.Machine Sys2Proof.Laws

/-! ## The symbols of a stream, R94, R96 -/

theorem symbolsOf_char_lt : ∀ bs : List Byte, ∀ x ∈ symbolsOf .char bs, x < symbolBound .char
  | [] => by simp [symbolsOf]
  | [_] => by simp [symbolsOf]
  | lo :: hi :: rest => by
    rw [symbolsOf]
    exact List.forall_mem_cons.mpr ⟨symbolField_lt .char [lo, hi] 0, symbolsOf_char_lt rest⟩

/-- Bytes are read as symbols of the domain. -/
theorem symbolsOf_lt (d : Domain) (bs : List Byte) : ∀ x ∈ symbolsOf d bs, x < symbolBound d := by
  cases d with
  | byte =>
    rw [symbolsOf]
    exact List.forall_mem_map.mpr fun b _ => b.isLt
  | char => exact symbolsOf_char_lt bs

theorem inputIs_of_sameInput {s t : State} {bs : List Byte} (h : SameInput s t) (hin : InputIs s bs) :
    InputIs t bs where
  length := h.ilenr ▸ hin.length
  fits := h.ibufSize ▸ hin.fits
  bytes := fun k hk => (h.bytes k (hin.length ▸ hk)).trans (hin.bytes k hk)

/-- A completed command over a symbol stream was stopped by a check before its body, or its input is a non-empty stream
of the domain, on which the body answered; any body on the same input goes the same way. -/
theorem streamCommand_next {d : Domain} {s t s' : State} {body : List Symbol → CmdResult}
    (body' : List Symbol → CmdResult) (h : SameInput s t) (hs : streamCommand d s body = .next s') :
    (∃ e, s' = takeError e s ∧ streamCommand d t body' = .next (takeError e t)) ∨
    ∃ S, S ≠ [] ∧ (∀ x ∈ S, x < symbolBound d) ∧ InputIs s (streamBytes d S) ∧ s' = publish (body S) s ∧
      streamCommand d t body' = .next (publish (body' S) t) := by
  rcases streamCommand_cases d s body with ⟨hmod, e⟩ | ⟨hmod, hbig, e⟩ | ⟨hzero, hfit, e⟩ | ⟨-, -, -, -, e⟩ |
    ⟨hmod, hpos, hfit, input, hinput, hlen, e⟩ <;> cases e.symm.trans hs
  · refine .inl ⟨_, rfl, ?_⟩
    rw [streamCommand, h.ilenr, if_pos hmod]
  · refine .inl ⟨_, rfl, ?_⟩
    rw [streamCommand, h.ilenr, h.ibufSize, if_neg (not_not.mpr hmod), if_pos hbig]
  · refine .inl ⟨_, rfl, ?_⟩
    rw [streamCommand, h.ilenr, h.ibufSize, if_neg (by simp [hzero]), if_neg (not_lt.mpr hfit), if_pos hzero]
  · have hbytes : streamBytes d (symbolsOf d input) = input := streamBytes_symbolsOf d input (hlen ▸ hmod)
    have hin : InputIs s (streamBytes d (symbolsOf d input)) := hbytes.symm ▸ inputIs_of_inputBytes hinput hfit
    have hne : symbolsOf d input ≠ [] := by
      intro hnil
      rw [hnil, streamBytes_nil] at hbytes
      rw [← hlen, ← hbytes] at hpos
      exact absurd hpos (lt_irrefl 0)
    have hlt := symbolsOf_lt d input
    exact .inr ⟨_, hne, hlt, hin, rfl, streamCommand_of_stream d t body' _ hne hlt (inputIs_of_sameInput h hin)⟩

/-! ## The end of a compress command, R45, R237 -/

/-- A compress command that gets to its end succeeds with the payload when it fits `OBUF`, and else ends with
`ResourceError`. -/
theorem compress_outcome {i : Instr} {s : State} {d : Domain} {payload : List Byte} (hcfg : s.cfg.wf = true)
    (h : exec i s = .next (publish (finishEncode s.cfg d payload) s)) :
    (payload.length ≤ s.cfg.obufSize → SucceedsWith i s d payload) ∧
      (s.cfg.obufSize < payload.length → FailsWith i s 6) := by
  have hsize := obufSize_lt hcfg
  rcases finishEncode_cases s.cfg d payload with ⟨hfit, heq⟩ | ⟨hbig, heq⟩ <;> rw [heq] at h
  · exact ⟨fun _ => ⟨_, h, publishOk_success payload d none s (by omega), rfl⟩, fun hbig => by omega⟩
  · exact ⟨fun hfit => by omega, fun _ => failsWith_of_takeError (e := .resource) h⟩

/-- A published result that is given to a command as its input, as `FEEDBACK` does, is its input when it fits
`IBUF`. -/
theorem inputIs_of_published {out : List Byte} {d : Domain} {an : Option Analysis} {s u : State}
    (hout : out.length < 2 ^ 32) (hlen : u.ilenr = (publishOk out d an s).olen)
    (hbytes : ∀ k, k < (publishOk out d an s).olen.toNat →
      Memory.byteAt u.ibuf k = Memory.byteAt (publishOk out d an s).obuf k)
    (hfit : out.length ≤ u.cfg.ibufSize) : InputIs u out := by
  obtain ⟨-, -, holen, -, hobuf, -⟩ := publishOk_success out d an s hout
  exact ⟨by rw [hlen, holen], hfit, fun k hk => by rw [hbytes k (holen.symm ▸ hk), hobuf]⟩

end Sys2Proof.Proofs
end

section
/-!
SUPPORT. `HUFC` (`41_huffman_commands.md` R160): its completion on a non-empty stream, the payload of one repeated
symbol, and what of the payload no tie-break has a part in.
-/

namespace Sys2Proof.Proofs

open Sys2Proof.Machine Sys2Proof.Laws

/-! ## The payload or `ResourceError`, R160, R237 -/

theorem hufcBody_of_build {p : Params} {S : List Symbol} {T : Node} (hT : build (pickerOf p.tieBreak) (freq S) = some T)
    (d : Domain) : hufcBody p d S = finishEncode p d (hufcPayload d T S) := by
  rw [hufcBody, hT]

/-- Settles O37: the tree by `build_freq`, the outcome by the end of a compress command. -/
theorem hufcWritesThePayload : Obligations.HufcWritesThePayload := by
  intro d s S hcfg hne hS hin
  obtain ⟨T, hT, -⟩ := build_freq (pickerOf_valid s.cfg.tieBreak) hne
  have hexec : exec (.hufc d) s = .next (publish (finishEncode s.cfg d (hufcPayload d T S)) s) := by
    rw [← hufcBody_of_build hT]
    exact streamCommand_of_stream d s _ S hne hS hin
  exact ⟨T, hT, compress_outcome hcfg hexec⟩

/-! ## One repeated symbol, R135, R160 (a), (b) -/

theorem freq_replicate (x : Symbol) (n : Nat) : freq (List.replicate (n + 1) x) = [(x, n + 1)] := by
  induction n with
  | zero => rfl
  | succ n ih =>
    rw [List.replicate_succ', freq_append_singleton, ih]
    simp [bump]

/-- The wrapper's only leaf has the code `0` (R135). -/
theorem codeBits_replicate (x : Symbol) (f g n : Nat) :
    codeBits (codes (.wrap f (.leaf x g))) (List.replicate n x) = List.replicate n false := by
  have hcode : codeOf (codes (.wrap f (.leaf x g))) x = [false] := by simp [codes, codesFrom, codeOf]
  induction n with
  | zero => rfl
  | succ n ih => rw [List.replicate_succ, codeBits, List.flatMap_cons, hcode, ← codeBits, ih]; rfl

theorem packBytes_replicate_false (P n : Nat) : packBytes P (List.replicate n false) = List.replicate P 0x00#8 := by
  induction P generalizing n with
  | zero => rfl
  | succ P ih =>
    rw [packBytes, List.take_replicate, bitsToNat_replicate_false, List.drop_replicate, ih, List.replicate_succ]

/-- Zero bits are packed into zero bytes. -/
theorem pack_replicate_false (n : Nat) :
    pack (List.replicate n false) = (List.replicate ((n + 7) / 8) 0x00#8, (8 - n % 8) % 8) := by
  obtain ⟨-, hpad, -⟩ := packPlacesBitsAndUnpackInverts (List.replicate n false)
  rw [List.length_replicate] at hpad
  refine Prod.ext ?_ hpad
  rw [pack_eq, paddedBits, List.replicate_append_replicate, packBytes_replicate_false, List.length_replicate]
  rfl

/-- The payload of `n` copies of a symbol: header, wrapper record, leaf record, zero bytes. -/
theorem hufcPayload_replicate (d : Domain) (x : Symbol) (n : Nat) :
    hufcPayload d (.wrap n (.leaf x n)) (List.replicate n x) =
      [domainCode d, BitVec.ofNat 8 ((8 - n % 8) % 8)] ++ leBytes 4 n ++ leBytes 4 (10 + symb d) ++
        leBytes 4 ((n + 7) / 8) ++ (0x02#8 :: leBytes 4 n) ++ (0x00#8 :: leBytes (symb d) x) ++ leBytes 4 n ++
        List.replicate ((n + 7) / 8) 0x00#8 := by
  have hlen : (serialize d (.wrap n (.leaf x n))).length = 10 + symb d := by
    simp only [length_serialize]
    omega
  rw [hufcPayload, codeBits_replicate, pack_replicate_false, encHuff_eq_huffLayout, huffLayout, hlen,
    List.length_replicate, List.length_replicate]
  simp only [serialize, List.append_assoc, List.cons_append, List.nil_append]

/-- Settles O38: `HUFC` builds the wrapper, and its payload fits. -/
theorem hufcOfOneRepeatedSymbol : Obligations.HufcOfOneRepeatedSymbol := by
  intro d s x n hcfg hn hx hin hfit
  obtain ⟨k, rfl⟩ := Nat.exists_eq_add_of_le' hn
  have hne : List.replicate (k + 1) x ≠ [] := List.cons_ne_nil _ _
  obtain ⟨T, hT, hfits, -⟩ :=
    hufcWritesThePayload d s _ hcfg hne (fun y hy => List.eq_of_mem_replicate hy ▸ hx) hin
  rw [freq_replicate] at hT
  cases hT
  have hlen : (hufcPayload d (.wrap (k + 1) (.leaf x (k + 1))) (List.replicate (k + 1) x)).length =
      24 + symb d + (k + 1 + 7) / 8 := by
    rw [hufcPayload_replicate]
    simp only [List.length_append, List.length_cons, List.length_nil, length_leBytes, List.length_replicate]
    omega
  rw [← hufcPayload_replicate]
  exact hfits (hlen.le.trans hfit)

/-! ## What no tie-break has a part in, R160 (f) -/

theorem BuiltFor.prefixCode {S : List Symbol} {T : Node} (h : BuiltFor S T) : prefixCode S (codeOf (codes T)) :=
  ⟨fun _ hx => h.codeOf_ne_nil hx, fun _ hx _ hy hne hprefix => hne (h.eq_of_codeOf_prefix hx hy hprefix)⟩

/-- The first 14 bytes of a layout tell of the regions their lengths alone. -/
theorem take_huffLayout (d : Domain) (pad origLen : Nat) (region packed : List Byte) :
    (huffLayout d pad origLen region packed).take 14 =
      [domainCode d, BitVec.ofNat 8 pad] ++ leBytes 4 origLen ++ leBytes 4 region.length ++
        leBytes 4 packed.length := by
  rw [huffLayout, List.append_assoc _ region packed]
  exact List.take_left' (by simp)

section
variable {pick pick' : Picker} (hp : pick.valid) (hp' : pick'.valid) {S : List Symbol} (hS : S ≠ []) {T T' : Node}
  (hT : build pick (freq S) = some T) (hT' : build pick' (freq S) = some T')
include hp hp' hS hT hT'

/-- Two trees built for an input spell it in equally many bits, since no code of this kind is shorter (R136 (e)). -/
theorem length_codeBits_eq : (codeBits (codes T') S).length = (codeBits (codes T) S).length :=
  have h := builtFor_of_build hp hS hT
  have h' := builtFor_of_build hp' hS hT'
  le_antisymm (h'.length_codeBits_le h.prefixCode) (h.length_codeBits_le h'.prefixCode)

/-- Two trees built for an input take equally many bytes (R109). -/
theorem length_serialize_eq (d : Domain) : (serialize d T').length = (serialize d T).length := by
  obtain ⟨hmany, hone, -⟩ := payloadSizes.1 pick d S T hp hS hT
  obtain ⟨hmany', hone', -⟩ := payloadSizes.1 pick' d S T' hp' hS hT'
  rcases Nat.lt_or_ge S.dedup.length 2 with hK | hK
  · have hpos : 0 < S.dedup.length := List.length_pos_iff.mpr (mt (List.dedup_eq_nil S).mp hS)
    rw [hone (by omega), hone' (by omega)]
  · rw [hmany hK, hmany' hK]

/-- Two payloads `HUFC` could make of an input have the same length and the same header (R160 (f)). -/
theorem hufcPayload_sizes_eq (d : Domain) : (hufcPayload d T' S).length = (hufcPayload d T S).length ∧
    (hufcPayload d T' S).take 14 = (hufcPayload d T S).take 14 := by
  have htree := length_serialize_eq hp hp' hS hT hT' d
  have hbits := length_codeBits_eq hp hp' hS hT hT'
  constructor
  · rw [length_hufcPayload, length_hufcPayload, htree, hbits]
  · rw [hufcPayload, hufcPayload, encHuff_eq_huffLayout, encHuff_eq_huffLayout, take_huffLayout, take_huffLayout, htree,
      pack_eq, pack_eq, length_packBytes, length_packBytes, hbits]

end

/-- Settles O39: a check before the body stops both runs, or both payloads have the same sizes. -/
theorem hufcSizesIndependentOfTieBreak : Obligations.HufcSizesIndependentOfTieBreak := by
  intro d s t t' k h h'
  have hsame : SameInput s { s with cfg := { s.cfg with tieBreak := k } } := ⟨rfl, rfl, rfl, rfl, fun _ _ => rfl⟩
  rcases streamCommand_next (hufcBody { s.cfg with tieBreak := k } d) hsame h with
    ⟨e, rfl, hrun⟩ | ⟨S, hne, -, -, rfl, hrun⟩ <;> cases hrun.symm.trans h'
  · exact ⟨rfl, rfl, rfl, rfl, rfl, fun _ _ => rfl⟩
  · obtain ⟨T, hT, -⟩ := build_freq (pickerOf_valid s.cfg.tieBreak) hne
    obtain ⟨T', hT', -⟩ := build_freq (pickerOf_valid k) hne
    obtain ⟨hlen, hheader⟩ := hufcPayload_sizes_eq (pickerOf_valid _) (pickerOf_valid _) hne hT hT' d
    rw [hufcBody_of_build hT, hufcBody_of_build (p := { s.cfg with tieBreak := k }) hT', finishEncode, finishEncode,
      hlen]
    split_ifs
    · exact ⟨rfl, rfl, rfl, rfl, rfl, fun _ _ => rfl⟩
    · refine ⟨rfl, rfl, ?_, rfl, rfl, fun a ha => ?_⟩
      · rw [publish_ok, publish_ok, publishOk_olen, publishOk_olen, hlen]
      · rw [publish_ok, publish_ok, publishOk_obuf, publishOk_obuf, byteAt_ofBytes_zero, byteAt_ofBytes_zero,
          ← List.getElem?_take_of_lt ha, hheader, List.getElem?_take_of_lt ha]

end Sys2Proof.Proofs
end

section
/-!
SUPPORT. `HUFD` on payloads of the layout of R97 (`41_huffman_commands.md` R161): capacity, walk and length check, in
that order; and on a payload of `HUFC`, whose tree walks the packed codes back to the input (R162).
-/

namespace Sys2Proof.Proofs

open Sys2Proof.Machine Sys2Proof.Laws

/-! ## After the tree, R161, R238 -/

section
variable {p : Params} {d : Domain} {h : HuffHeader} (hd : domainOfCode h.domain = d) (T : Node) (packed : List Byte)
include hd

theorem hufdDecode_of_oversize (hbig : p.obufSize < h.origLen * symb d) : hufdDecode p h T packed = .err .resource := by
  subst hd
  exact if_pos hbig

variable (hfit : h.origLen * symb d ≤ p.obufSize)
include hfit

theorem hufdDecode_of_noWalk (hwalk : walkBits T (unpack packed h.pad) = none) :
    hufdDecode p h T packed = .err .malformedPayload := by
  subst hd
  simp only [hufdDecode, if_neg (not_lt.mpr hfit), hwalk]

/-- After the walk `ORIGLEN` is held against the number of symbols. -/
theorem hufdDecode_of_walk {syms : List Symbol} (hwalk : walkBits T (unpack packed h.pad) = some syms) :
    hufdDecode p h T packed =
      if syms.length ≠ h.origLen then .err .lengthMismatch else .ok (streamBytes d syms) d none := by
  subst hd
  simp only [hufdDecode, if_neg (not_lt.mpr hfit), hwalk]

end

/-- Settles O40: the body by `hufdBody_encHuff`, then check by check. -/
theorem hufdDecodesAPayload : Obligations.HufdDecodesAPayload := by
  intro s d pad origLen T packed hcfg hpad hempty horig hT hin
  have hhdr : 14 ≤ (encHuff d pad origLen T packed).length := by
    rw [encHuff_eq_huffLayout, length_huffLayout]
    omega
  have hbody := hufdBody_encHuff s.cfg hpad (fun h => hempty.resolve_left (not_not.mpr h)) horig hT
    (length_lt_of_inputIs hin)
  have hd := domainOfCode_domainCode d
  refine ⟨fun hbig => ?_, fun hfit => ⟨fun hwalk => ?_, fun syms hwalk => ⟨fun hlen => ?_, fun hlen => ?_⟩⟩⟩
  · exact hufd_fails (e := .resource) hin hhdr (hbody.trans (hufdDecode_of_oversize hd T packed hbig))
  · exact hufd_fails (e := .malformedPayload) hin hhdr (hbody.trans (hufdDecode_of_noWalk hd T packed hfit hwalk))
  · refine hufd_fails (e := .lengthMismatch) hin hhdr ?_
    rw [hbody, hufdDecode_of_walk hd T packed hfit hwalk, if_pos hlen]
  · refine hufd_succeeds hcfg hin hhdr ?_ ((length_streamBytes d syms).trans_le (hlen.symm ▸ hfit))
    rw [hbody, hufdDecode_of_walk hd T packed hfit hwalk, if_neg (not_not.mpr hlen)]

/-! ## The tree of an input, R12, R145 -/

/-- A tree of sums fits the records when its root's frequency and its leaves' symbols do. -/
theorem nodeFits_of_sumsHold {d : Domain} {T : Node} (hsums : sumsHold T) (hfreq : T.freq < 2 ^ 32)
    (hleaves : ∀ e ∈ leavesOf T, e.1 < symbolBound d) : nodeFits d T = true := by
  induction T with
  | leaf x f => exact nodeFits_leaf.mpr ⟨hleaves _ (List.mem_singleton_self _), hfreq⟩
  | internal f l r ihl ihr =>
    obtain ⟨hf, hl, hr⟩ := hsums
    obtain ⟨hleavesl, hleavesr⟩ := List.forall_mem_append.mp hleaves
    rw [Node.freq] at hfreq
    exact nodeFits_internal.mpr ⟨hfreq, ihl hl (by omega) hleavesl, ihr hr (by omega) hleavesr⟩
  | wrap f c ih =>
    obtain ⟨hf, hc⟩ := hsums
    rw [Node.freq] at hfreq
    exact nodeFits_wrap.mpr ⟨hfreq, ih hc (hf ▸ hfreq) hleaves⟩

section
variable {S : List Symbol} {T : Node} (h : BuiltFor S T)
include h

theorem BuiltFor.nodeFits {d : Domain} (hn : S.length < 2 ^ 32) (hS : ∀ x ∈ S, x < symbolBound d) :
    nodeFits d T = true :=
  nodeFits_of_sumsHold h.sums (h.freq_eq ▸ hn) fun e he =>
    hS _ (((freq_symbols S).2 e.1).mp (List.mem_map_of_mem (h.leaves.mem_iff.mp he)))

/-- The walk takes the codes of an input back to its symbols (R147). -/
theorem BuiltFor.walkBits_codeBits : walkBits T (codeBits (codes T) S) = some S := by
  have hes : ∀ e ∈ S.map (fun x => (x, codeOf (codes T) x)), e ∈ codes T :=
    List.forall_mem_map.mpr fun x hx => h.codeOf_mem hx
  have hwalk := walkFrom_codes h.hasChild hes []
  rw [List.flatMap_map, List.append_nil, List.map_map] at hwalk
  rw [walkBits_of_hasChild h.hasChild]
  exact hwalk.trans (by simp [walkFrom, Function.comp_def])

/-- `HUFD` takes the payload of a built tree back to the input, if it fits `OBUF` (R162). -/
theorem BuiltFor.hufdBody_hufcPayload {d : Domain} (hn : S.length < 2 ^ 32) (hS : ∀ x ∈ S, x < symbolBound d)
    (hlen : (hufcPayload d T S).length < 2 ^ 32) (p : Params) :
    (p.obufSize < S.length * symb d → hufdBody p (hufcPayload d T S) = .err .resource) ∧
      (S.length * symb d ≤ p.obufSize → hufdBody p (hufcPayload d T S) = .ok (streamBytes d S) d none) := by
  obtain ⟨hpacklen, hpad, -, -, hunpack⟩ := packPlacesBitsAndUnpackInverts (codeBits (codes T) S)
  have hempty : (pack (codeBits (codes T) S)).1 = [] → (pack (codeBits (codes T) S)).2 = 0 := by
    intro hnil
    rw [hnil, List.length_nil] at hpacklen
    omega
  have hbody := hufdBody_encHuff p (by omega) hempty hn (h.nodeFits hn hS) hlen
  have hd := domainOfCode_domainCode d
  have hwalk := (congrArg (walkBits T) hunpack).trans h.walkBits_codeBits
  refine ⟨fun hbig => hbody.trans (hufdDecode_of_oversize hd T _ hbig), fun hfit => ?_⟩
  exact hbody.trans ((hufdDecode_of_walk hd T _ hfit hwalk).trans (if_neg (not_not.mpr rfl)))

end

/-! ## The two commands, R162 -/

/-- When `HUFC` completes without an error it has published the payload of a built tree for its input, within `OBUF`. -/
theorem hufc_success {d : Domain} {s t : State} (h : exec (.hufc d) s = .next t) (herr : t.errcode = 0#8) :
    ∃ S T, BuiltFor S T ∧ (∀ x ∈ S, x < symbolBound d) ∧ InputIs s (streamBytes d S) ∧
      (hufcPayload d T S).length ≤ s.cfg.obufSize ∧ t = publishOk (hufcPayload d T S) d none s := by
  have hsame : SameInput s s := ⟨rfl, rfl, rfl, rfl, fun _ _ => rfl⟩
  rcases streamCommand_next (hufcBody s.cfg d) hsame h with ⟨e, rfl, -⟩ | ⟨S, hne, hS, hin, rfl, -⟩
  · exact absurd herr (code_ne_zero e)
  · obtain ⟨T, hT, hbuilt⟩ := build_freq (pickerOf_valid s.cfg.tieBreak) hne
    rw [hufcBody_of_build hT] at herr ⊢
    rcases finishEncode_cases s.cfg d (hufcPayload d T S) with ⟨hfit, heq⟩ | ⟨-, heq⟩ <;> rw [heq] at herr ⊢
    · exact ⟨S, T, hbuilt, hS, hin, hfit, rfl⟩
    · exact absurd herr (code_ne_zero .resource)

/-- Settles O42: the payload in `IBUF` decodes by `BuiltFor.hufdBody_hufcPayload`; the same lemma speaks for every
choice function. -/
theorem huffmanRoundTrip : Obligations.HuffmanRoundTrip := by
  refine ⟨fun d s t u hcfg hexec herr hlen hbytes => ?_, fun pick d S T p hp hne hn hS hT hpayload hfit =>
    ((builtFor_of_build hp hne hT).hufdBody_hufcPayload hn hS hpayload p).2 hfit⟩
  obtain ⟨S, T, hbuilt, hS, hin, hpayload, rfl⟩ := hufc_success hexec herr
  have hlt : (hufcPayload d T S).length < 2 ^ 32 := hpayload.trans_lt (obufSize_lt hcfg)
  have holen := (publishOk_success (hufcPayload d T S) d none s hlt).olen
  have hilen : s.ilenr.toNat = S.length * symb d := hin.length.trans (length_streamBytes d S)
  have hn : S.length < 2 ^ 32 := (Nat.le_mul_of_pos_right _ (symb_pos d)).trans_lt (hilen ▸ s.ilenr.isLt)
  have hhdr : 14 ≤ (hufcPayload d T S).length := by
    rw [length_hufcPayload]
    omega
  have hu := inputIs_of_published hlt hlen hbytes
  obtain ⟨hbig, hok⟩ := hbuilt.hufdBody_hufcPayload hn hS hlt u.cfg
  rw [holen, hilen]
  refine ⟨fun hover => ?_, fun hfit hover => ?_, fun hfit hroom => ?_⟩
  · exact failsWith_of_takeError (e := .resource) (payloadCommand_of_oversize _ (by rwa [hlen, holen]))
  · exact hufd_fails (e := .resource) (hu hfit) hhdr (hbig hover)
  · refine ⟨_, payloadCommand_of_input huffHeaderLen u _ _ hhdr (hu hfit), ?_⟩
    rw [hok hroom, publish_ok]
    refine ⟨rfl, rfl, rfl, ?_, fun k hk => ?_⟩
    · rw [publishOk_olen, ← hin.length, BitVec.ofNat_toNat, BitVec.setWidth_eq]
    · rw [publishOk_obuf, byteAt_ofBytes_zero, hin.bytes k (by rwa [length_streamBytes])]

end Sys2Proof.Proofs
end

section
/-!
SUPPORT. Maximal runs (`42_rle_basic.md` R180): the scan takes a run off the front of a sequence, every sequence is
spelled by a list of maximal runs, and the scan finds that list.
-/

namespace Sys2Proof.Proofs

open Sys2Proof.Machine Sys2Proof.Laws

/-! ## One run, R180 -/

/-- The symbol after a maximal run is another one. -/
theorem head_drop_runLen (x : Symbol) (xs : List Symbol) :
    ∀ y ∈ ((x :: xs).drop (runLen (x :: xs))).head?, y ≠ x := by
  rw [runLen, Nat.add_comm, List.drop_succ_cons]
  exact head_drop_leading x xs

theorem getElem?_of_lt_runLen {x : Symbol} {xs : List Symbol} {k : Nat} (hk : k < runLen (x :: xs)) :
    (x :: xs)[k]? = some x := by
  rw [← replicate_runLen_append x xs, List.getElem?_append_left (by rwa [List.length_replicate]),
    List.getElem?_replicate_of_lt hk]

theorem getElem?_runLen_ne (x : Symbol) (xs : List Symbol) : (x :: xs)[runLen (x :: xs)]? ≠ some x := by
  rw [← List.head?_drop]
  exact fun h => head_drop_runLen x xs x h rfl

section
variable {x : Symbol} {ys : List Symbol} (hys : ∀ y ∈ ys.head?, y ≠ x)
include hys

theorem leading_replicate_append (n : Nat) : leading x (List.replicate n x ++ ys) = n := by
  induction n with
  | zero =>
    cases ys with
    | nil => rfl
    | cons y ys => exact if_neg (hys y rfl)
  | succ n ih => rw [List.replicate_succ, List.cons_append, leading, if_pos rfl, ih]

/-- The scan takes a run off the front. -/
theorem maximalRuns_replicate_append {n : Nat} (hn : 1 ≤ n) :
    maximalRuns (List.replicate n x ++ ys) = (x, n) :: maximalRuns ys := by
  obtain ⟨k, rfl⟩ := Nat.exists_eq_add_of_le' hn
  have hrun : runLen (x :: (List.replicate k x ++ ys)) = k + 1 := by
    rw [runLen, leading_replicate_append hys, Nat.add_comm]
  rw [List.replicate_succ, List.cons_append, maximalRuns_cons, hrun, List.drop_succ_cons,
    List.drop_left' List.length_replicate]

end

/-! ## Lists of runs -/

theorem spell_cons (r : Symbol × Nat) (rs : List (Symbol × Nat)) :
    spell (r :: rs) = List.replicate r.2 r.1 ++ spell rs := rfl

theorem isRunList_cons {r : Symbol × Nat} {rs : List (Symbol × Nat)} :
    isRunList (r :: rs) ↔ 1 ≤ r.2 ∧ (∀ y ∈ (rs.map (fun r => r.1)).head?, r.1 ≠ y) ∧ isRunList rs := by
  simp only [isRunList, neighboursDiffer, List.forall_mem_cons, List.map_cons, List.isChain_cons]
  tauto

/-- The first symbol spelled is that of the first run. -/
theorem head?_spell {rs : List (Symbol × Nat)} (h : isRunList rs) :
    (spell rs).head? = (rs.map (fun r => r.1)).head? := by
  cases rs with
  | nil => rfl
  | cons r rs =>
    obtain ⟨hr, -, -⟩ := isRunList_cons.mp h
    obtain ⟨k, hk⟩ := Nat.exists_eq_add_of_le' hr
    rw [spell_cons, hk]
    rfl

/-- The scan finds a list of maximal runs in the sequence it spells. -/
theorem maximalRuns_spell {rs : List (Symbol × Nat)} (h : isRunList rs) : maximalRuns (spell rs) = rs := by
  induction rs with
  | nil => rfl
  | cons r rs ih =>
    obtain ⟨hr, hhead, hrs⟩ := isRunList_cons.mp h
    have hnext : ∀ y ∈ (spell rs).head?, y ≠ r.1 := by
      rw [head?_spell hrs]
      exact fun y hy => (hhead y hy).symm
    rw [spell_cons, maximalRuns_replicate_append hnext hr, ih hrs]

/-- Every sequence is spelled by a list of maximal runs: the run at its front, and then those of the rest. -/
theorem exists_runList (S : List Symbol) : ∃ rs, isRunList rs ∧ spell rs = S := by
  induction hn : S.length using Nat.strong_induction_on generalizing S with
  | _ n ih =>
    cases S with
    | nil => exact ⟨[], ⟨List.forall_mem_nil _, List.isChain_nil⟩, rfl⟩
    | cons x xs =>
      obtain ⟨hpos, -⟩ := runLen_bounds x xs
      have hlt : ((x :: xs).drop (runLen (x :: xs))).length < n := by
        rw [List.length_drop, hn]
        rw [List.length_cons] at hn
        omega
      obtain ⟨rs, hrs, hspell⟩ := ih _ hlt _ rfl
      refine ⟨(x, runLen (x :: xs)) :: rs, isRunList_cons.mpr ⟨hpos, ?_, hrs⟩, ?_⟩
      · rw [← head?_spell hrs, hspell]
        exact fun y hy => (head_drop_runLen x xs y hy).symm
      · rw [spell_cons, hspell, replicate_runLen_append]

/-- Settles O43: a sequence is what some list of maximal runs spells, and the scan finds that list; the run from an
index on is the one at the front of a suffix. -/
theorem runScannerFindsMaximalRuns : Obligations.RunScannerFindsMaximalRuns := by
  refine ⟨fun S => ?_, fun rs => maximalRuns_spell, fun S i x hx => ?_⟩
  · obtain ⟨rs, hrs, rfl⟩ := exists_runList S
    rw [maximalRuns_spell hrs]
    exact ⟨rfl, hrs⟩
  · have hdrop : S.drop i = x :: S.drop (i + 1) := List.drop_eq_getElem?_toList_append.trans (by rw [hx]; rfl)
    simp only [runLenAt, ← List.getElem?_drop, hdrop]
    exact ⟨(runLen_bounds x _).1, fun k => getElem?_of_lt_runLen, getElem?_runLen_ne x _⟩

end Sys2Proof.Proofs
end

section
/-!
SUPPORT. `RLEC` (`42_rle_basic.md` R181, R182): the items of a list of runs, and the completion on a non-empty stream.
-/

namespace Sys2Proof.Proofs

open Sys2Proof.Machine Sys2Proof.Laws

/-! ## The item of a run, R181 -/

/-- The item of a run expands to the run. -/
theorem expand_basicItem {r : Symbol × Nat} (hr : 1 ≤ r.2) : expand (basicItem r) = List.replicate r.2 r.1 := by
  rw [basicItem]
  split_ifs with h
  · rfl
  · rw [show r.2 = 1 by omega]
    rfl

theorem basicShape_basicItem (r : Symbol × Nat) : basicShape (basicItem r) := by
  rw [basicItem]
  split_ifs with h
  · exact h
  · exact trivial

/-- The item of a run holds no symbol but the run's. -/
theorem eq_of_mem_expand_basicItem {r : Symbol × Nat} {x : Symbol} (hx : x ∈ expand (basicItem r)) : x = r.1 := by
  rw [basicItem] at hx
  split_ifs at hx
  · exact List.eq_of_mem_replicate hx
  · exact List.mem_singleton.mp hx

theorem meetApart_basicItem {a b : Symbol × Nat} (h : a.1 ≠ b.1) : meetApart (basicItem a) (basicItem b) := by
  intro x hx y hy
  rw [eq_of_mem_expand_basicItem (List.mem_of_mem_getLast? hx), eq_of_mem_expand_basicItem (List.mem_of_mem_head? hy)]
  exact h

/-! ## The items of a list of runs, R182 -/

theorem expandAll_map_basicItem {rs : List (Symbol × Nat)} (h : ∀ r ∈ rs, 1 ≤ r.2) :
    expandAll (rs.map basicItem) = spell rs := by
  rw [expandAll, List.flatMap_map, spell, List.flatMap_congr fun r hr => expand_basicItem (h r hr)]

/-- There are no more runs than symbols. -/
theorem length_le_length_spell {rs : List (Symbol × Nat)} (h : ∀ r ∈ rs, 1 ≤ r.2) : rs.length ≤ (spell rs).length := by
  induction rs with
  | nil => exact le_rfl
  | cons r rs ih =>
    obtain ⟨hr, hrs⟩ := List.forall_mem_cons.mp h
    have := ih hrs
    rw [spell_cons, List.length_append, List.length_replicate, List.length_cons]
    omega

/-! ## The payload or `ResourceError`, R181, R237 -/

/-- The size of an RLE payload (R101, R109). -/
theorem length_encRle (d : Domain) (alg : Algo) (origLen : Nat) (items : List Item) :
    (encRle d alg origLen items).length = 10 + (itemRecords d items).length :=
  length_rleLayout d alg origLen _

theorem exec_rlec_of_stream {d : Domain} {s : State} {S : List Symbol} (hne : S ≠ [])
    (hS : ∀ x ∈ S, x < symbolBound d) (hin : InputIs s (streamBytes d S)) :
    exec (.rlec d) s = .next (publish (finishEncode s.cfg d (encRle d .basic S.length (basicItems S))) s) :=
  streamCommand_of_stream d s (rlecBody s.cfg d) S hne hS hin

/-- Settles O44: the items are those of the maximal runs, the outcome is by the end of a compress command. -/
theorem rlecWritesMaximalRuns : Obligations.RlecWritesMaximalRuns := by
  intro d s S hcfg hne hS hin
  obtain ⟨hspell, hpos, hdiffer⟩ := runScannerFindsMaximalRuns.1 S
  have hexpand : expandAll (basicItems S) = S := (expandAll_map_basicItem hpos).trans hspell
  have hlen : (basicItems S).length = (maximalRuns S).length := List.length_map _
  have hle : (maximalRuns S).length ≤ S.length := (length_le_length_spell hpos).trans_eq (congrArg _ hspell)
  have hsome : basicItems S ≠ [] := by
    intro hnil
    rw [hnil] at hexpand
    exact hne hexpand.symm
  have houtcome := compress_outcome hcfg (exec_rlec_of_stream hne hS hin)
  rw [length_encRle] at houtcome
  exact ⟨basicItems S, hexpand, List.forall_mem_map.mpr fun r _ => basicShape_basicItem r,
    List.isChain_map_of_isChain basicItem (fun _ _ => meetApart_basicItem) ((List.isChain_map _).mp hdiffer),
    hlen, List.length_pos_iff.mpr hsome, hlen.trans_le hle, houtcome⟩

end Sys2Proof.Proofs
end

section
/-!
SUPPORT. `ARLEC` (`43_rle_adaptive.md` R190 to R193): where the sequence accumulator stops, the item the classifier
takes off the front of a sequence, the properties of the items so taken, and the completion on a non-empty stream.
-/

namespace Sys2Proof.Proofs

open Sys2Proof.Machine Sys2Proof.Laws

/-! ## The sequence accumulator, R191 -/

/-- One symbol of look-ahead tells a run of length 1 from a longer one. -/
theorem startsRun_eq_false_iff (x : Symbol) (xs : List Symbol) :
    startsRun (x :: xs) = false ↔ runLen (x :: xs) = 1 := by
  cases xs with
  | nil => simp [startsRun, runLen, leading]
  | cons y ys =>
    rw [startsRun, beq_eq_false_iff_ne, runLen, leading]
    split_ifs with h <;> simp [h]

/-- The next symbol differs from one that starts no run. -/
theorem ne_head_of_startsRun_eq_false {x : Symbol} {xs : List Symbol} (h : startsRun (x :: xs) = false) :
    ∀ y ∈ xs.head?, x ≠ y := by
  cases xs with
  | nil => simp
  | cons z zs =>
    rintro y ⟨⟩
    exact (beq_eq_false_iff_ne.mp h).symm

/-- The accumulator takes no two equal neighbours, and what it leaves begins with a symbol that differs from the last it
took. -/
theorem extendSequence_neighboursDiffer (k : Nat) {x : Symbol} {xs : List Symbol} (h : startsRun (x :: xs) = false) :
    neighboursDiffer (x :: (extendSequence k xs).1) ∧
      ∀ a ∈ (x :: (extendSequence k xs).1).getLast?, ∀ b ∈ (extendSequence k xs).2.head?, a ≠ b := by
  have hnext := ne_head_of_startsRun_eq_false h
  induction k generalizing x xs with
  | zero => exact ⟨List.isChain_singleton x, by rintro a ⟨⟩; exact hnext⟩
  | succ k ih =>
    cases xs with
    | nil => exact ⟨List.isChain_singleton x, by simp [extendSequence]⟩
    | cons y ys =>
      rw [extendSequence]
      split_ifs with hstart
      · exact ⟨List.isChain_singleton x, by rintro a ⟨⟩; exact hnext⟩
      · have hlone := eq_false_of_ne_true hstart
        obtain ⟨hchain, hlast⟩ := ih hlone (ne_head_of_startsRun_eq_false hlone)
        exact ⟨List.isChain_cons_cons.mpr ⟨hnext y rfl, hchain⟩, by rwa [List.getLast?_cons_cons]⟩

/-- The accumulator stops at its cap, at the end of the input or before a run. -/
theorem extendSequence_stop (k : Nat) (xs : List Symbol) :
    (extendSequence k xs).1.length = k ∨ (extendSequence k xs).2 = [] ∨ startsRun (extendSequence k xs).2 = true := by
  induction k generalizing xs with
  | zero => exact .inl rfl
  | succ k ih =>
    cases xs with
    | nil => exact .inr (.inl rfl)
    | cons y ys =>
      rw [extendSequence]
      split_ifs with hstart
      · exact .inr (.inr hstart)
      · exact (ih ys).imp_left fun hk => by rw [List.length_cons, hk]

theorem startsRun_of_neighboursDiffer : ∀ {S : List Symbol}, neighboursDiffer S → startsRun S = false
  | [], _ => rfl
  | [_], _ => rfl
  | _ :: _ :: _, h => beq_eq_false_iff_ne.mpr (List.isChain_cons_cons.mp h).1.symm

/-- Where no neighbours are equal, only the cap or the end of the input stops the accumulator. -/
theorem extendSequence_of_neighboursDiffer (k : Nat) {xs : List Symbol} (h : neighboursDiffer xs) :
    extendSequence k xs = (xs.take k, xs.drop k) := by
  induction k generalizing xs with
  | zero => rfl
  | succ k ih =>
    cases xs with
    | nil => rfl
    | cons y ys =>
      rw [extendSequence, if_neg (ne_true_of_eq_false (startsRun_of_neighboursDiffer h)),
        ih (xs := ys) (List.IsChain.tail h)]
      rfl

theorem takeSequence_of_neighboursDiffer {S : List Symbol} (h : neighboursDiffer S) :
    takeSequence S = (S.take 255, S.drop 255) := by
  cases S with
  | nil => rfl
  | cons x xs =>
    rw [takeSequence, extendSequence_of_neighboursDiffer _ (xs := xs) (List.IsChain.tail h)]
    rfl

/-! ## The classifier, R190 -/

/-- The item and what it leaves are those of one pass, and the bound of the passes still covers what is left. -/
theorem adaptiveItems_of_scan {x : Symbol} {xs rest : List Symbol} {item : Item}
    (hscan : scanAdaptive (xs.length + 1) (x :: xs) = item :: scanAdaptive xs.length rest)
    (hlt : rest.length ≤ xs.length) : adaptiveItems (x :: xs) = item :: adaptiveItems rest := by
  rw [adaptiveItems, List.length_cons, hscan, scanAdaptive_bound _ _ hlt]

theorem length_drop_runLen_le (x : Symbol) (xs : List Symbol) :
    ((x :: xs).drop (runLen (x :: xs))).length ≤ xs.length := by
  have := runLen_bounds x xs
  rw [List.length_drop, List.length_cons]
  omega

theorem adaptiveItems_of_run {x : Symbol} {xs : List Symbol} (h : 4 ≤ runLen (x :: xs)) :
    adaptiveItems (x :: xs) =
      .run x (runLen (x :: xs)) :: adaptiveItems ((x :: xs).drop (runLen (x :: xs))) :=
  adaptiveItems_of_scan (if_pos h) (length_drop_runLen_le x xs)

theorem adaptiveItems_of_shortRun {x : Symbol} {xs : List Symbol} (h : runLen (x :: xs) = 2 ∨ runLen (x :: xs) = 3) :
    adaptiveItems (x :: xs) =
      .shortRun x (runLen (x :: xs)) :: adaptiveItems ((x :: xs).drop (runLen (x :: xs))) := by
  have hmin : ¬ runLen (x :: xs) ≥ Config.runMin := by rw [Config.runMin]; omega
  have hshort : runLen (x :: xs) ≥ Config.shortMin := by rw [Config.shortMin]; omega
  exact adaptiveItems_of_scan ((if_neg hmin).trans (if_pos hshort)) (length_drop_runLen_le x xs)

theorem adaptiveItems_of_lone {x : Symbol} {xs : List Symbol} (h : runLen (x :: xs) = 1) :
    adaptiveItems (x :: xs) =
      .sequence (takeSequence (x :: xs)).1 :: adaptiveItems (takeSequence (x :: xs)).2 := by
  have hmin : ¬ runLen (x :: xs) ≥ Config.runMin := by rw [h]; decide
  have hshort : ¬ runLen (x :: xs) ≥ Config.shortMin := by rw [h]; decide
  have hlt : (takeSequence (x :: xs)).2.length ≤ xs.length := by
    have hlen := congrArg List.length (takeSequence_append (x :: xs))
    have := takeSequence_length x xs
    rw [List.length_append, List.length_cons] at hlen
    omega
  exact adaptiveItems_of_scan ((if_neg hmin).trans (if_neg hshort)) hlt

/-! ## Items of a sequence without equal neighbours, R193 (e) -/

theorem adaptiveItems_of_neighboursDiffer {S : List Symbol} (hne : S ≠ []) (h : neighboursDiffer S) :
    adaptiveItems S = .sequence (S.take 255) :: adaptiveItems (S.drop 255) := by
  obtain ⟨x, xs, rfl⟩ := List.exists_cons_of_ne_nil hne
  rw [adaptiveItems_of_lone ((startsRun_eq_false_iff x xs).mp (startsRun_of_neighboursDiffer h)),
    takeSequence_of_neighboursDiffer h]

/-- Settles O46: a sequence without equal neighbours gives its first 255 symbols as one item, and so does what is
left of it. -/
theorem longSequenceSplitsAt255 : Obligations.LongSequenceSplitsAt255 := by
  intro S hlen h
  have hdrop : (S.drop 255).length = 1 := by rw [List.length_drop, hlen]
  rw [adaptiveItems_of_neighboursDiffer (List.ne_nil_of_length_pos (by omega)) h,
    adaptiveItems_of_neighboursDiffer (List.ne_nil_of_length_pos (by omega)) (h.drop 255),
    List.take_of_length_le (hdrop.le.trans (by decide)), List.drop_of_length_le (hdrop.le.trans (by decide))]
  rfl

/-! ## The items of a sequence, R193 -/

/-- What `ARLEC` takes off the front of `S`: an item of the classifier's counts and lengths, no run going on into
`rest`; a `Sequence` only where no run starts, and it ends at the cap, with the input or before a run. -/
structure FrontItem (S : List Symbol) (item : Item) (rest : List Symbol) : Prop where
  spells : expand item ++ rest = S
  shape : adaptiveShape item
  apart : ∀ a ∈ (expand item).getLast?, ∀ b ∈ rest.head?, a ≠ b
  lone : ∀ q, item = .sequence q → S ≠ [] ∧ startsRun S = false
  stop : ∀ q, item = .sequence q → q.length = 255 ∨ rest = [] ∨ startsRun rest = true

/-- An item that expands to the maximal run at the front. -/
theorem frontItem_of_maximalRun {x : Symbol} {xs : List Symbol} {item : Item}
    (hexpand : expand item = List.replicate (runLen (x :: xs)) x) (hshape : adaptiveShape item)
    (hseq : ∀ q, item ≠ .sequence q) :
    FrontItem (x :: xs) item ((x :: xs).drop (runLen (x :: xs))) where
  spells := by rw [hexpand, replicate_runLen_append]
  shape := hshape
  apart := by
    intro a ha b hb
    rw [hexpand] at ha
    rw [List.eq_of_mem_replicate (List.mem_of_mem_getLast? ha)]
    exact (head_drop_runLen x xs b hb).symm
  lone := fun q hq => absurd hq (hseq q)
  stop := fun q hq => absurd hq (hseq q)

theorem frontItem_sequence {x : Symbol} {xs : List Symbol} (h : startsRun (x :: xs) = false) :
    FrontItem (x :: xs) (.sequence (takeSequence (x :: xs)).1) (takeSequence (x :: xs)).2 := by
  obtain ⟨hlen, hcap⟩ := takeSequence_length x xs
  obtain ⟨hchain, hlast⟩ := extendSequence_neighboursDiffer (Config.seqCap - 1) h
  refine ⟨takeSequence_append (x :: xs), ⟨hlen, hcap, hchain⟩, hlast, fun _ _ => ⟨List.cons_ne_nil x xs, h⟩, ?_⟩
  rintro q ⟨⟩
  exact (extendSequence_stop (Config.seqCap - 1) xs).imp_left fun hk => by rw [takeSequence, List.length_cons, hk]; rfl

theorem length_expand_pos {item : Item} (h : adaptiveShape item) : 0 < (expand item).length := by
  cases item with
  | single x => exact h.elim
  | run x c =>
    rw [adaptiveShape] at h
    rw [expand, List.length_replicate]
    omega
  | shortRun x c =>
    rw [adaptiveShape] at h
    rw [expand, List.length_replicate]
    omega
  | sequence q => exact h.1

theorem FrontItem.length_lt {S rest : List Symbol} {item : Item} (h : FrontItem S item rest) :
    rest.length < S.length := by
  have hpos := length_expand_pos h.shape
  rw [← h.spells, List.length_append]
  omega

/-- Every length of the run at the front falls in one row of the classifier. -/
theorem exists_frontItem (x : Symbol) (xs : List Symbol) :
    ∃ item rest, FrontItem (x :: xs) item rest ∧ adaptiveItems (x :: xs) = item :: adaptiveItems rest := by
  have hpos := (runLen_bounds x xs).1
  obtain h | h | h : 4 ≤ runLen (x :: xs) ∨ (runLen (x :: xs) = 2 ∨ runLen (x :: xs) = 3) ∨ runLen (x :: xs) = 1 := by
    omega
  · exact ⟨.run _ _, _, frontItem_of_maximalRun rfl h nofun, adaptiveItems_of_run h⟩
  · exact ⟨.shortRun _ _, _, frontItem_of_maximalRun rfl h nofun, adaptiveItems_of_shortRun h⟩
  · exact ⟨_, _, frontItem_sequence ((startsRun_eq_false_iff x xs).mpr h), adaptiveItems_of_lone h⟩

/-- A list of items taken off the front of a sequence one after another, until nothing is left. -/
inductive Classified : List Symbol → List Item → Prop
  | nil : Classified [] []
  | cons {S rest : List Symbol} {item : Item} {items : List Item} :
      FrontItem S item rest → Classified rest items → Classified S (item :: items)

theorem classified_adaptiveItems (S : List Symbol) : Classified S (adaptiveItems S) := by
  induction hn : S.length using Nat.strong_induction_on generalizing S with
  | _ n ih =>
    cases S with
    | nil => exact .nil
    | cons x xs =>
      obtain ⟨item, rest, hfront, heq⟩ := exists_frontItem x xs
      rw [heq]
      exact .cons hfront (ih _ (hn ▸ hfront.length_lt) _ rfl)

namespace Classified

variable {S : List Symbol} {items : List Item}

theorem expandAll_eq (h : Classified S items) : expandAll items = S := by
  induction h with
  | nil => rfl
  | cons hfront _ ih => rw [expandAll_cons, ih, hfront.spells]

theorem shapes (h : Classified S items) : ∀ i ∈ items, adaptiveShape i := by
  induction h with
  | nil => exact List.forall_mem_nil _
  | cons hfront _ ih => exact List.forall_mem_cons.mpr ⟨hfront.shape, ih⟩

/-- The first item begins with the first symbol. -/
theorem head?_expand (h : Classified S items) : ∀ i ∈ items.head?, ∀ y ∈ (expand i).head?, y ∈ S.head? := by
  cases h with
  | nil => simp
  | cons hfront _ =>
    rintro i ⟨⟩ y hy
    rw [← hfront.spells]
    exact List.mem_head?_append_of_mem_head? hy

theorem isChain_meetApart (h : Classified S items) : items.IsChain meetApart := by
  induction h with
  | nil => exact List.isChain_nil
  | cons hfront hrest ih =>
    exact List.isChain_cons.mpr
      ⟨fun i hi a ha b hb => hfront.apart a ha b (hrest.head?_expand i hi b hb), ih⟩

/-- A `Sequence` comes first only where no run starts. -/
theorem startsRun_of_sequence {q : List Symbol} (h : Classified S items) (hq : .sequence q ∈ items.head?) :
    S ≠ [] ∧ startsRun S = false := by
  cases h with
  | nil => cases hq
  | cons hfront _ => exact hfront.lone q (Option.some.inj hq)

theorem isChain_sequenceFull (h : Classified S items) : items.IsChain sequenceFull := by
  induction h with
  | nil => exact List.isChain_nil
  | @cons S rest item items hfront hrest ih =>
    refine List.isChain_cons.mpr ⟨fun i hi => ?_, ih⟩
    cases item with
    | sequence q =>
      cases i with
      | sequence q' =>
        obtain ⟨hne, hlone⟩ := hrest.startsRun_of_sequence hi
        rcases hfront.stop q rfl with hfull | hnil | hstart
        · exact hfull
        · exact absurd hnil hne
        · exact absurd hstart (ne_true_of_eq_false hlone)
      | _ => exact trivial
    | _ => cases i <;> exact trivial

end Classified

/-! ## The payload or `ResourceError`, R192, R237 -/

theorem exec_arlec_of_stream {d : Domain} {s : State} {S : List Symbol} (hne : S ≠ [])
    (hS : ∀ x ∈ S, x < symbolBound d) (hin : InputIs s (streamBytes d S)) :
    exec (.arlec d) s = .next (publish (finishEncode s.cfg d (encRle d .adaptive S.length (adaptiveItems S))) s) :=
  streamCommand_of_stream d s (arlecBody s.cfg d) S hne hS hin

/-- Settles O45: the items are those the classifier takes off the front one after another, the outcome is by the end
of a compress command. -/
theorem arlecWritesClassifiedRuns : Obligations.ArlecWritesClassifiedRuns := by
  intro d s S hcfg hne hS hin
  have hitems := classified_adaptiveItems S
  have houtcome := compress_outcome hcfg (exec_arlec_of_stream hne hS hin)
  rw [length_encRle] at houtcome
  exact ⟨adaptiveItems S, hitems.expandAll_eq, hitems.shapes, hitems.isChain_meetApart, hitems.isChain_sequenceFull,
    houtcome⟩

end Sys2Proof.Proofs
end

section
/-!
SUPPORT. `RLED` on payloads of well-formed items (`44_rle_decode.md` R200, R201): capacity and length check, in that
order, then the expansion of the items.
-/

namespace Sys2Proof.Proofs

open Sys2Proof.Machine Sys2Proof.Laws

/-! ## Item expansion, R201 -/

/-- Settles O47: the equations of the two functions, and the count `NOUT` for the length. -/
theorem itemExpansion : Obligations.ItemExpansion :=
  ⟨fun _ => rfl, fun _ _ => rfl, fun _ _ => rfl, fun _ => rfl, fun _ _ => List.flatMap_append,
    fun i => List.append_nil (expand i), rfl, length_expandAll⟩

/-! ## Expanding a payload, R200, R237, R238 -/

/-- `RLED` on the payload of items its algorithm recognises: the capacity check, and after the items `ORIGLEN` held
against the number of symbols they expand to. -/
theorem rledBody_encRle (p : Params) {d : Domain} {alg : Algo} {origLen : Nat} {items : List Item}
    (horig : origLen < 2 ^ 32) (hitems : ∀ i ∈ items, itemFits d i = true ∧ itemAllowed alg i = true)
    (hlen : (encRle d alg origLen items).length < 2 ^ 32) :
    rledBody p (encRle d alg origLen items) =
      if p.obufSize < origLen * symb d then .err .resource
      else if (expandAll items).length ≠ origLen then .err .lengthMismatch
      else .ok (streamBytes d (expandAll items)) d none := by
  have hok := rleHeaderOk_rleLayout horig hlen
  have hsum := length_encRle d alg origLen items
  have hparse := parseItems_of_records hitems (k := (encRle d alg origLen items).length) (by omega)
  rw [encRle_eq_rleLayout] at hparse ⊢
  simp only [rledBody]
  rw [if_pos hok, rleHeader_rleLayout d alg horig (by omega)]
  simp only [domainOfCode_domainCode, algoOfCode_algoCode, rleHeaderLen, drop_rleLayout, hparse, length_expandAll]

section
variable {p : Params} {d : Domain} {alg : Algo} {origLen : Nat} {items : List Item} (horig : origLen < 2 ^ 32)
  (hitems : ∀ i ∈ items, itemFits d i = true ∧ itemAllowed alg i = true)
  (hlen : (encRle d alg origLen items).length < 2 ^ 32)
include horig hitems hlen

theorem rledBody_of_oversize (hbig : p.obufSize < origLen * symb d) :
    rledBody p (encRle d alg origLen items) = .err .resource := by
  rw [rledBody_encRle p horig hitems hlen, if_pos hbig]

variable (hfit : origLen * symb d ≤ p.obufSize)
include hfit

theorem rledBody_of_mismatch (hne : (expandAll items).length ≠ origLen) :
    rledBody p (encRle d alg origLen items) = .err .lengthMismatch := by
  rw [rledBody_encRle p horig hitems hlen, if_neg (not_lt.mpr hfit), if_pos hne]

theorem rledBody_of_match (heq : (expandAll items).length = origLen) :
    rledBody p (encRle d alg origLen items) = .ok (streamBytes d (expandAll items)) d none := by
  rw [rledBody_encRle p horig hitems hlen, if_neg (not_lt.mpr hfit), if_neg (not_not.mpr heq)]

end

theorem rleHeaderLen_le_length_encRle (d : Domain) (alg : Algo) (origLen : Nat) (items : List Item) :
    10 ≤ (encRle d alg origLen items).length := by
  rw [length_encRle]
  exact Nat.le_add_right 10 _

/-- `RLED` publishes what its body makes of a payload. -/
theorem exec_rled_of_encRle {s : State} {d : Domain} {alg : Algo} {origLen : Nat} {items : List Item}
    (hin : InputIs s (encRle d alg origLen items)) :
    exec .rled s = .next (publish (rledBody s.cfg (encRle d alg origLen items)) s) :=
  payloadCommand_of_input rleHeaderLen s _ _ (rleHeaderLen_le_length_encRle d alg origLen items) hin

/-- Settles O48: the body check by check. -/
theorem rledExpandsItems : Obligations.RledExpandsItems := by
  intro s d alg origLen items hcfg horig hitems hin
  have hhdr := rleHeaderLen_le_length_encRle d alg origLen items
  have hlen := length_lt_of_inputIs hin
  refine ⟨fun hbig => ?_, fun hfit => ⟨fun hne => ?_, fun heq => ?_⟩⟩
  · exact rled_fails (e := .resource) hin hhdr (rledBody_of_oversize horig hitems hlen hbig)
  · exact rled_fails (e := .lengthMismatch) hin hhdr (rledBody_of_mismatch horig hitems hlen hfit hne)
  · have hout : (streamBytes d (expandAll items)).length < 2 ^ 32 := by
      rw [length_streamBytes, heq]
      exact hfit.trans_lt (obufSize_lt hcfg)
    have hexec := exec_rled_of_encRle hin
    rw [rledBody_of_match horig hitems hlen hfit heq, publish_ok] at hexec
    exact ⟨_, hexec, publishOk_success _ d none s hout, rfl⟩

end Sys2Proof.Proofs
end

section
/-!
SUPPORT. The RLE round trip (`44_rle_decode.md` R203): the items of `RLEC` and `ARLEC` fit their records and are of the
forms their algorithm tag allows, so `RLED` reads them back and expands them to the input.
-/

namespace Sys2Proof.Proofs

open Sys2Proof.Machine Sys2Proof.Laws

/-! ## The items of the two encoders fit their records, R102, R182, R193 -/

section
variable {d : Domain} {i : Item} (hsyms : ∀ x ∈ expand i, x < symbolBound d) (hlen : (expand i).length < 2 ^ 32)
include hsyms hlen

theorem itemFits_of_basicShape (h : basicShape i) : itemFits d i = true ∧ itemAllowed .basic i = true := by
  cases i with
  | single x => exact ⟨decide_eq_true (hsyms x (List.mem_singleton_self x)), rfl⟩
  | run x c =>
    rw [basicShape] at h
    rw [expand, List.length_replicate] at hlen
    exact ⟨decide_eq_true ⟨hsyms x (List.mem_replicate.mpr ⟨by omega, rfl⟩), hlen⟩, rfl⟩
  | shortRun x c => exact h.elim
  | sequence q => exact h.elim

theorem itemFits_of_adaptiveShape (h : adaptiveShape i) : itemFits d i = true ∧ itemAllowed .adaptive i = true := by
  cases i with
  | single x => exact h.elim
  | run x c =>
    rw [adaptiveShape] at h
    rw [expand, List.length_replicate] at hlen
    exact ⟨decide_eq_true ⟨hsyms x (List.mem_replicate.mpr ⟨by omega, rfl⟩), hlen⟩, rfl⟩
  | shortRun x c =>
    rw [adaptiveShape] at h
    exact ⟨decide_eq_true ⟨hsyms x (List.mem_replicate.mpr ⟨by omega, rfl⟩), by omega⟩, rfl⟩
  | sequence q =>
    obtain ⟨-, hcap, -⟩ := h
    simp only [itemFits, Bool.and_eq_true, decide_eq_true_eq, List.all_eq_true]
    exact ⟨⟨by omega, hsyms⟩, rfl⟩

end

/-- The expansion of an item is a part of the expansion of the list. -/
theorem expand_sublist_expandAll {items : List Item} {i : Item} (hi : i ∈ items) :
    (expand i).Sublist (expandAll items) := by
  rw [expandAll, List.flatMap_def]
  exact List.sublist_flatten_of_mem (List.mem_map_of_mem hi)

/-- Items `alg` may write for the symbols `S`: they expand to `S`, and `alg` recognises their records. -/
structure ItemsFor (d : Domain) (alg : Algo) (S : List Symbol) (items : List Item) : Prop where
  expands : expandAll items = S
  fits : ∀ i ∈ items, itemFits d i = true ∧ itemAllowed alg i = true

section
variable {d : Domain} {S : List Symbol} (hS : ∀ x ∈ S, x < symbolBound d) (hn : S.length < 2 ^ 32)
include hS hn

/-- What holds of every item by its shape, its symbols and its length holds of the items that expand to `S`. -/
theorem itemsFor_of_shapes {alg : Algo} {shape : Item → Prop} {items : List Item} (hexpand : expandAll items = S)
    (hshape : ∀ i ∈ items, shape i)
    (hfits : ∀ {i : Item}, (∀ x ∈ expand i, x < symbolBound d) → (expand i).length < 2 ^ 32 → shape i →
      itemFits d i = true ∧ itemAllowed alg i = true) : ItemsFor d alg S items where
  expands := hexpand
  fits := fun i hi => by
    have hsub : (expand i).Sublist S := hexpand ▸ expand_sublist_expandAll hi
    exact hfits (fun x hx => hS x (hsub.subset hx)) (hsub.length_le.trans_lt hn) (hshape i hi)

theorem itemsFor_basicItems : ItemsFor d .basic S (basicItems S) := by
  obtain ⟨hspell, hpos, -⟩ := runScannerFindsMaximalRuns.1 S
  exact itemsFor_of_shapes hS hn ((expandAll_map_basicItem hpos).trans hspell)
    (List.forall_mem_map.mpr fun r _ => basicShape_basicItem r) itemFits_of_basicShape

theorem itemsFor_adaptiveItems : ItemsFor d .adaptive S (adaptiveItems S) :=
  itemsFor_of_shapes hS hn (classified_adaptiveItems S).expandAll_eq (classified_adaptiveItems S).shapes
    itemFits_of_adaptiveShape

end

/-! ## A successful encoder, R181, R192 -/

/-- When a compress command completes without an error it has published the payload of its input, within `OBUF`. -/
theorem compress_success {d : Domain} {s t : State} {payload : List Symbol → List Byte}
    (h : streamCommand d s (fun S => finishEncode s.cfg d (payload S)) = .next t) (herr : t.errcode = 0#8) :
    ∃ S, (∀ x ∈ S, x < symbolBound d) ∧ InputIs s (streamBytes d S) ∧ (payload S).length ≤ s.cfg.obufSize ∧
      t = publishOk (payload S) d none s := by
  have hsame : SameInput s s := ⟨rfl, rfl, rfl, rfl, fun _ _ => rfl⟩
  rcases streamCommand_next (fun S => finishEncode s.cfg d (payload S)) hsame h with
    ⟨e, rfl, -⟩ | ⟨S, -, hS, hin, rfl, -⟩
  · exact absurd herr (code_ne_zero e)
  · rcases finishEncode_cases s.cfg d (payload S) with ⟨hfit, heq⟩ | ⟨-, heq⟩ <;> rw [heq] at herr ⊢
    · exact ⟨S, hS, hin, hfit, rfl⟩
    · exact absurd herr (code_ne_zero .resource)

/-- A stream in `IBUF` has fewer than `2^32` symbols. -/
theorem length_lt_of_stream {s : State} {d : Domain} {S : List Symbol} (h : InputIs s (streamBytes d S)) :
    S.length < 2 ^ 32 := by
  have hlt := length_lt_of_inputIs h
  rw [length_streamBytes] at hlt
  exact (Nat.le_mul_of_pos_right _ (symb_pos d)).trans_lt hlt

/-- When `RLEC` or `ARLEC` completes without an error it has published the payload of items for its input. -/
theorem rle_success {i : Instr} {d : Domain} {s t : State} (hi : i = .rlec d ∨ i = .arlec d) (h : exec i s = .next t)
    (herr : t.errcode = 0#8) :
    ∃ S alg items, InputIs s (streamBytes d S) ∧ ItemsFor d alg S items ∧
      (encRle d alg S.length items).length ≤ s.cfg.obufSize ∧
      t = publishOk (encRle d alg S.length items) d none s := by
  rcases hi with rfl | rfl
  · obtain ⟨S, hS, hin, hfit, ht⟩ :=
      compress_success (payload := fun S => encRle d .basic S.length (basicItems S)) h herr
    exact ⟨S, .basic, _, hin, itemsFor_basicItems hS (length_lt_of_stream hin), hfit, ht⟩
  · obtain ⟨S, hS, hin, hfit, ht⟩ :=
      compress_success (payload := fun S => encRle d .adaptive S.length (adaptiveItems S)) h herr
    exact ⟨S, .adaptive, _, hin, itemsFor_adaptiveItems hS (length_lt_of_stream hin), hfit, ht⟩

/-! ## The two commands, R203 -/

/-- Publishing the input of another block gives the length and the bytes that block has in `ILENR` and `IBUF`. -/
theorem publishOk_of_inputIs {s : State} {bs : List Byte} (h : InputIs s bs) (d : Domain) (an : Option Analysis)
    (u : State) : (publishOk bs d an u).olen = s.ilenr ∧
      ∀ k, k < s.ilenr.toNat → Memory.byteAt (publishOk bs d an u).obuf k = Memory.byteAt s.ibuf k := by
  refine ⟨?_, fun k hk => ?_⟩
  · rw [publishOk_olen, ← h.length, BitVec.ofNat_toNat, BitVec.setWidth_eq]
  · rw [publishOk_obuf, byteAt_ofBytes_zero, h.bytes k (h.length ▸ hk)]

/-- Settles O51: the payload holds items for the input, and `RLED` expands them. -/
theorem rleRoundTrip : Obligations.RleRoundTrip := by
  intro i d s t u hi hcfg hexec herr hlen hbytes
  obtain ⟨S, alg, items, hin, hitems, hpayload, rfl⟩ := rle_success hi hexec herr
  have hlt : (encRle d alg S.length items).length < 2 ^ 32 := hpayload.trans_lt (obufSize_lt hcfg)
  have holen := (publishOk_success (encRle d alg S.length items) d none s hlt).olen
  have hilen : s.ilenr.toNat = S.length * symb d := hin.length.trans (length_streamBytes d S)
  have hn := length_lt_of_stream hin
  have hu := inputIs_of_published hlt hlen hbytes
  rw [holen]
  refine ⟨fun hover => ?_, fun hfit hover => ?_, fun hfit hroom => ?_⟩
  · exact failsWith_of_takeError (e := .resource) (payloadCommand_of_oversize _ (by rwa [hlen, holen]))
  · exact rled_fails (e := .resource) (hu hfit) (rleHeaderLen_le_length_encRle d alg _ items)
      (rledBody_of_oversize hn hitems.fits hlt (hilen ▸ hover))
  · have hrun := exec_rled_of_encRle (hu hfit)
    rw [rledBody_of_match hn hitems.fits hlt (hilen ▸ hroom) (congrArg List.length hitems.expands), hitems.expands,
      publish_ok] at hrun
    exact ⟨_, hrun, rfl, rfl, rfl, publishOk_of_inputIs hin d none u⟩

end Sys2Proof.Proofs
end

section
/-!
SUPPORT. `ANLZ` (`45_analyze.md` R215, R216): the counted runs of a list of runs and their bounds, the values the five
registers hold, the completion on a non-empty stream, and the ratios the host computes from the registers.
-/

namespace Sys2Proof.Proofs

open Sys2Proof.Machine Sys2Proof.Laws

/-! ## The counted runs and the longest of them, R215 (a), (b) -/

theorem countedRuns_spell {rs : List (Symbol × Nat)} (h : isRunList rs) :
    countedRuns (spell rs) = (rs.map (fun r => r.2)).filter (fun c => decide (1 < c)) := by
  rw [countedRuns, maximalRuns_spell h]

theorem two_le_of_mem_countedRuns {S : List Symbol} {c : Nat} (hc : c ∈ countedRuns S) : 2 ≤ c :=
  of_decide_eq_true (List.mem_filter.mp hc).2

theorem longestRun_cons (c : Nat) (cs : List Nat) : longestRun (c :: cs) = max c (longestRun cs) := by
  rw [longestRun, List.foldl_cons, max_comm, List.foldl_assoc, longestRun]

theorem le_longestRun {c : Nat} {cs : List Nat} (hc : c ∈ cs) : c ≤ longestRun cs := by
  induction cs with
  | nil => cases hc
  | cons b cs ih =>
    rw [longestRun_cons]
    rcases List.mem_cons.mp hc with rfl | hc
    · exact le_max_left _ _
    · exact (ih hc).trans (le_max_right _ _)

theorem longestRun_mem {cs : List Nat} (hne : cs ≠ []) : longestRun cs ∈ cs := by
  induction cs with
  | nil => exact absurd rfl hne
  | cons c cs ih =>
    rw [longestRun_cons]
    rcases le_total (longestRun cs) c with hle | hle
    · rw [max_eq_left hle]
      exact List.mem_cons_self
    · rw [max_eq_right hle]
      by_cases hnil : cs = []
      · subst hnil
        rw [Nat.le_zero.mp hle]
        exact List.mem_cons_self
      · exact List.mem_cons_of_mem _ (ih hnil)

theorem longestRun_mem_or_eq_zero (cs : List Nat) : longestRun cs ∈ cs ∨ (cs = [] ∧ longestRun cs = 0) := by
  cases cs with
  | nil => exact .inr ⟨rfl, rfl⟩
  | cons c cs => exact .inl (longestRun_mem (List.cons_ne_nil c cs))

/-- A bound is passed by the longest run exactly when some run passes it. -/
theorem lt_longestRun_iff {k : Nat} {cs : List Nat} : k < longestRun cs ↔ ∃ c ∈ cs, k < c := by
  refine ⟨fun h => ?_, fun ⟨c, hc, hk⟩ => hk.trans_le (le_longestRun hc)⟩
  have hne : cs ≠ [] := by
    rintro rfl
    exact absurd h (Nat.not_lt_zero k)
  exact ⟨_, longestRun_mem hne, h⟩

/-! ## Bounds on the counted runs -/

theorem length_spell (rs : List (Symbol × Nat)) : (spell rs).length = (rs.map (fun r => r.2)).sum := by
  simp [spell, List.length_flatMap]

/-- The counted runs are disjoint parts of the input. -/
theorem sum_countedRuns_le (S : List Symbol) : (countedRuns S).sum ≤ S.length := by
  obtain ⟨rs, hrs, rfl⟩ := exists_runList S
  rw [countedRuns_spell hrs, length_spell]
  exact List.filter_sublist.sum_le_sum fun _ _ => Nat.zero_le _

theorem two_mul_length_countedRuns_le (S : List Symbol) : 2 * (countedRuns S).length ≤ (countedRuns S).sum := by
  rw [Nat.mul_comm]
  exact List.card_nsmul_le_sum _ 2 fun _ => two_le_of_mem_countedRuns

theorem sum_le_length_mul_longestRun (cs : List Nat) : cs.sum ≤ cs.length * longestRun cs :=
  List.sum_le_card_nsmul cs _ fun _ => le_longestRun

theorem longestRun_le_sum (cs : List Nat) : longestRun cs ≤ cs.sum := by
  by_cases hnil : cs = []
  · subst hnil
    exact le_rfl
  · exact List.le_sum_of_mem (longestRun_mem hnil)

/-! ## The five registers, R28, R215 -/

/-- No register loses a bit: every number `ANLZ` reports is at most the length of the input. -/
theorem analyze_toNat {S : List Symbol} (h : S.length < 2 ^ 32) :
    (analyze S).runCount.toNat = (countedRuns S).length ∧ (analyze S).totalRun.toNat = (countedRuns S).sum ∧
      (analyze S).longest.toNat = longestRun (countedRuns S) ∧ (analyze S).inLen.toNat = S.length := by
  have value {n : Nat} (hn : n ≤ S.length) : (BitVec.ofNat 32 n).toNat = n :=
    (BitVec.toNat_ofNat n 32).trans (Nat.mod_eq_of_lt (hn.trans_lt h))
  have hsum := sum_countedRuns_le S
  have hcount := two_mul_length_countedRuns_le S
  exact ⟨value (by omega), value hsum, value ((longestRun_le_sum _).trans hsum), value le_rfl⟩

theorem analyze_recommend (S : List Symbol) : (analyze S).recommend = true ↔
    10 * (countedRuns S).length > S.length ∨ ∃ c ∈ countedRuns S, 4 < c := by
  rw [← lt_longestRun_iff]
  simp [analyze, recommendFlag, Config.recRunsDen, Config.recRunsNum, Config.recLongest]

/-! ## The completion of `ANLZ` -/

theorem exec_anlz_of_hasAnlz {s : State} (d : Domain) (hanlz : s.cfg.hasAnlz = true) :
    exec (.anlz d) s = streamCommand d s (anlzBody d) := if_pos hanlz

theorem exec_anlz_of_stream {d : Domain} {s : State} {S : List Symbol} (hanlz : s.cfg.hasAnlz = true) (hne : S ≠ [])
    (hS : ∀ x ∈ S, x < symbolBound d) (hin : InputIs s (streamBytes d S)) :
    exec (.anlz d) s = .next (publishOk [] d (some (analyze S)) s) :=
  (exec_anlz_of_hasAnlz d hanlz).trans (streamCommand_of_stream d s (anlzBody d) S hne hS hin)

/-- When `ANLZ` completes without an error its registers hold the values of a non-empty input. -/
theorem anlz_success {d : Domain} {s t : State} (h : exec (.anlz d) s = .next t) (herr : t.errcode = 0#8) :
    ∃ S, S ≠ [] ∧ InputIs s (streamBytes d S) ∧ t.an = analyze S := by
  by_cases hanlz : s.cfg.hasAnlz = true
  · rw [exec_anlz_of_hasAnlz d hanlz] at h
    have hsame : SameInput s s := ⟨rfl, rfl, rfl, rfl, fun _ _ => rfl⟩
    rcases streamCommand_next (anlzBody d) hsame h with ⟨e, rfl, -⟩ | ⟨S, hne, -, hin, rfl, -⟩
    · exact absurd herr (code_ne_zero e)
    · exact ⟨S, hne, hin, rfl⟩
  · obtain ⟨u, hu, hfail⟩ := anlzAbsentIsIllegal d s (Bool.not_eq_true _ ▸ hanlz)
    cases hu.symm.trans h
    exact absurd (herr ▸ hfail.errcode) (by decide)

/-- Settles O52: the scan finds the list of runs, and no register loses a bit of what is counted. -/
theorem anlzReportsRuns : Obligations.AnlzReportsRuns := by
  intro d s rs hanlz hrs hne hsyms hin cs
  have hcs : countedRuns (spell rs) = cs := countedRuns_spell hrs
  have hspell : spell rs ≠ [] :=
    List.length_pos_iff.mp ((List.length_pos_iff.mpr hne).trans_le (length_le_length_spell hrs.1))
  have hS : ∀ x ∈ spell rs, x < symbolBound d := by
    intro x hx
    obtain ⟨r, hr, hxr⟩ := List.mem_flatMap.mp hx
    exact List.eq_of_mem_replicate hxr ▸ hsyms r hr
  have hrec := analyze_recommend (spell rs)
  obtain ⟨hcount, htotal, hlongest, hlen⟩ := analyze_toNat (length_lt_of_stream hin)
  rw [hcs] at hrec hcount htotal hlongest
  refine ⟨_, exec_anlz_of_stream hanlz hspell hS hin, publishOk_success [] d _ s (by decide), hcount, htotal,
    fun c hc => hlongest.symm ▸ le_longestRun hc, hlongest.symm ▸ longestRun_mem_or_eq_zero cs, hlen, hrec⟩

/-! ## The two ratios, R216 -/

section
variable {a : Analysis}

theorem compressionPotential_nonneg : 0 ≤ compressionPotential a :=
  div_nonneg (Nat.cast_nonneg _) (Nat.cast_nonneg _)

theorem compressionPotential_le_one (h : a.totalRun.toNat ≤ a.inLen.toNat) : compressionPotential a ≤ 1 :=
  div_le_one_of_le₀ (Nat.cast_le.mpr h) (Nat.cast_nonneg _)

theorem compressionPotential_eq_zero (h : a.totalRun.toNat = 0) : compressionPotential a = 0 := by
  rw [compressionPotential, h, Nat.cast_zero, zero_div]

/-- A bound on the sum of the runs, as so many times their number, is a bound on the average. -/
theorem le_averageRunLength {k : Nat} (hpos : 0 < a.runCount.toNat) (h : k * a.runCount.toNat ≤ a.totalRun.toNat) :
    (k : Rat) ≤ averageRunLength a := by
  rw [averageRunLength, if_neg hpos.ne', le_div_iff₀ (Nat.cast_pos.mpr hpos)]
  exact_mod_cast h

theorem averageRunLength_le {k : Nat} (hpos : 0 < a.runCount.toNat) (h : a.totalRun.toNat ≤ k * a.runCount.toNat) :
    averageRunLength a ≤ (k : Rat) := by
  rw [averageRunLength, if_neg hpos.ne', div_le_iff₀ (Nat.cast_pos.mpr hpos)]
  exact_mod_cast h

end

/-- Settles O53: the counted runs lie within the input, and each is between 2 and the longest. -/
theorem analyzerRatiosAreBounded : Obligations.AnalyzerRatiosAreBounded := by
  intro d s t hexec herr
  obtain ⟨S, hne, hin, han⟩ := anlz_success hexec herr
  obtain ⟨hcount, htotal, hlongest, hlen⟩ := analyze_toNat (length_lt_of_stream hin)
  rw [← han] at hcount htotal hlongest hlen
  have hsum : t.an.totalRun.toNat ≤ t.an.inLen.toNat := by
    rw [htotal, hlen]
    exact sum_countedRuns_le S
  have htwo : 2 * t.an.runCount.toNat ≤ t.an.totalRun.toNat := by
    rw [hcount, htotal]
    exact two_mul_length_countedRuns_le S
  have hmost : t.an.totalRun.toNat ≤ t.an.longest.toNat * t.an.runCount.toNat := by
    rw [hcount, htotal, hlongest, Nat.mul_comm]
    exact sum_le_length_mul_longestRun _
  refine ⟨hlen ▸ List.length_pos_iff.mpr hne, compressionPotential_nonneg, compressionPotential_le_one hsum,
    fun hpos => ⟨le_averageRunLength hpos htwo, averageRunLength_le hpos hmost⟩, fun hzero => ⟨if_pos hzero, ?_⟩⟩
  rw [hzero, Nat.mul_zero] at hmost
  exact compressionPotential_eq_zero (Nat.le_zero.mp hmost)

end Sys2Proof.Proofs
end

section
/-!
SUPPORT. The checks before a stream command's body and the end of a failed command (`60_exceptions.md` R236 to R239),
and the idle block (R245).
-/

namespace Sys2Proof.Proofs

open Sys2Proof.Machine Sys2Proof.Laws

/-! ## Checks 2 to 4 of R238 -/

section
variable {d : Domain} {s : State}

theorem streamCommand_of_not_multiple (body : List Symbol → CmdResult) (h : s.ilenr.toNat % symb d ≠ 0) :
    streamCommand d s body = .next (takeError .illegalCommand s) := if_pos h

theorem streamCommand_of_oversize (body : List Symbol → CmdResult) (hmod : s.ilenr.toNat % symb d = 0)
    (h : s.cfg.ibufSize < s.ilenr.toNat) : streamCommand d s body = .next (takeError .resource s) := by
  rw [streamCommand, if_neg (not_not.mpr hmod), if_pos h]

/-- Length 0 is a multiple of every symbol size and above no buffer size. -/
theorem streamCommand_of_empty (body : List Symbol → CmdResult) (h : s.ilenr.toNat = 0) :
    streamCommand d s body = .next (takeError .emptyInput s) := by
  rw [streamCommand, if_neg (by simp [h]), if_neg (by simp [h]), if_pos h]

/-- A legal command that reads a symbol stream has the shape of `streamCommand`. -/
theorem exec_eq_streamCommand {i : Instr} (hi : streamDomain i = some d) (hwf : i.wf s.cfg.hasAnlz = true) :
    ∃ body, exec i s = streamCommand d s body := by
  cases i <;> cases hi
  case hufc => exact ⟨_, rfl⟩
  case rlec => exact ⟨_, rfl⟩
  case arlec => exact ⟨_, rfl⟩
  case anlz => exact ⟨_, exec_anlz_of_hasAnlz d hwf⟩

end

/-- Settles O55: the three checks of `streamCommand`, which no body has a part in. -/
theorem streamCommandLengthErrors : Obligations.StreamCommandLengthErrors := by
  intro i d s hi hwf
  obtain ⟨body, hexec⟩ := exec_eq_streamCommand hi hwf
  refine ⟨fun hmod => ?_, fun hmod hbig => ?_, fun hzero => ?_⟩
  · exact failsWith_of_takeError (hexec.trans (streamCommand_of_not_multiple body hmod))
  · exact failsWith_of_takeError (hexec.trans (streamCommand_of_oversize body hmod hbig))
  · exact failsWith_of_takeError (hexec.trans (streamCommand_of_empty body hzero))

/-! ## The end of a failed command, R239 -/

/-- Settles O58: a completion publishes a result, whose code is 0, or takes an error. -/
theorem failedCommandPublishesNothing : Obligations.FailedCommandPublishesNothing := by
  intro i s t hexec hcode
  obtain ⟨r, -, rfl⟩ := exec_publishes hexec
  cases r with
  | ok out d an => exact absurd rfl hcode
  | err e => exact ⟨takeError_failure e s, code_range e⟩

/-! ## The idle block, R245 -/

/-- Settles O11: the core does not move on an idle block, and the host has no move left. -/
theorem idleBlockStays : Obligations.IdleBlockStays := by
  intro s hidle hport
  have hturn : coreTurn s ≠ true := (coreTurn_iff s).not.mpr (not_coreMovesNext_of_idle hidle)
  calc step s = hostTurn s := if_neg hturn
    _ = .next s := by simp only [hostTurn, hport]

end Sys2Proof.Proofs
end
